-- ==== Sys2Proof/Word.lean ====
section
/-! DEFINITION. The word types of the engine and the narrowing of an exact integer to a word (00_scope R10). -/

namespace Sys2Proof

/-- An `XLEN`-bit register value or memory word; `w` is `XLEN` (00_scope R10, D1). -/
abbrev Word (w : Nat) := BitVec w

/-- A packed 32-bit dispatch record (30_encoding R86). -/
abbrev Record := BitVec 32

/-- A 4-bit register field RA, RB or RC of a record (30_encoding R86). -/
abbrev RegField := BitVec 4

/-- The 16-bit two's-complement field IMM of a record (30_encoding R86, R89). -/
abbrev Imm := BitVec 16

/-- `wrap(n)`: the word whose unsigned value is `n mod 2^XLEN`, for any integer `n` (00_scope R10). -/
def wrap (w : Nat) (n : Int) : Word w := BitVec.ofInt w n

end Sys2Proof
end

