-- ==== Sys2Proof/Syntax.lean ====
section
/-! DEFINITION. The instructions as terms: one constructor per row of spec/opcode_table.json, the two markers among them
(30_encoding R86, R87, R91), and the names of operations and pools (10_state R25). -/

namespace Sys2Proof

/-- The five reservation-station pools, in their declaration order (10_state R25). -/
inductive PoolId where
  | add
  | nand
  | load
  | store
  | beq
deriving DecidableEq, Repr, Inhabited

/-- The six operations a slot can hold (00_scope R2, 10_state R26). -/
inductive Opcode where
  | add
  | sub
  | nand
  | load
  | store
  | beq
deriving DecidableEq, Repr, Inhabited

/-- A decoded record: the six operations and the two marker rows. Register numbers are the raw 4-bit fields; whether
they name a register of this machine is the range check of 30_encoding R90. -/
inductive Instr where
  /-- `ADD Rd, Rs, Rt`: RA = d, RB = s, RC = t (R160). -/
  | add (ra rb rc : RegField)
  /-- `SUB Rd, Rs, Rt`: RA = d, RB = s, RC = t (R161). -/
  | sub (ra rb rc : RegField)
  /-- `NAND Rd, Rs, Rt`: RA = d, RB = s, RC = t (R162). -/
  | nand (ra rb rc : RegField)
  /-- `LOAD Rd, imm(Rb)`: RA = d, RB = b (R180). -/
  | load (ra rb : RegField) (imm : Imm)
  /-- `STORE Rs, imm(Rb)`: RA = s, RB = b (R181). -/
  | store (ra rb : RegField) (imm : Imm)
  /-- `BEQ Rs, Rt, imm`: RA = s, RB = t (R200). -/
  | beq (ra rb : RegField) (imm : Imm)
  /-- A record with OP = 110; `rest` is bits 28 to 0, which the engine ignores (R91). -/
  | rangeMarker (rest : BitVec 29)
  /-- A record with OP = 111; `rest` is bits 28 to 0, which the engine ignores (R91). -/
  | malformedMarker (rest : BitVec 29)
deriving DecidableEq, Repr

/-- The two rejection codes of dispatch (60_exceptions R230). -/
inductive ErrCode where
  /-- Code 1 (R231). -/
  | malformedOperand
  /-- Code 2 (R232). -/
  | registerOutOfRange
deriving DecidableEq, Repr, Inhabited

end Sys2Proof
end

