-- ==== Sys2Proof/WellFormed.lean ====
section
/-! DEFINITION. When an instruction names registers of the machine: the range check of 30_encoding R90. -/

namespace Sys2Proof

/-- The register fields an instruction uses; unused fields are not range-checked (30_encoding R88, R90). -/
def Instr.usedRegs : Instr → List RegField
  | .add ra rb rc => [ra, rb, rc]
  | .sub ra rb rc => [ra, rb, rc]
  | .nand ra rb rc => [ra, rb, rc]
  | .load ra rb _ => [ra, rb]
  | .store ra rb _ => [ra, rb]
  | .beq ra rb _ => [ra, rb]
  | .rangeMarker _ => []
  | .malformedMarker _ => []

/-- Every used register field is below `NREG` (30_encoding R90). -/
def Instr.wellFormed (nreg : Nat) (i : Instr) : Bool :=
  i.usedRegs.all fun r => decide (r.toNat < nreg)

end Sys2Proof
end

