-- ==== Sys2Proof/Decode.lean ====
section
/-! DEFINITION. The decoder of 30_encoding R86 to R91 and R96, total on every 32-bit word, and the encoder from the same
table. -/

namespace Sys2Proof

/-- OP, bits 31 to 29 (R86). -/
def opField (w : Record) : BitVec 3 := w.extractLsb' 29 3

/-- RA, bits 28 to 25 (R86). -/
def raField (w : Record) : RegField := w.extractLsb' 25 4

/-- RB, bits 24 to 21 (R86). -/
def rbField (w : Record) : RegField := w.extractLsb' 21 4

/-- RC, bits 20 to 17 (R86). -/
def rcField (w : Record) : RegField := w.extractLsb' 17 4

/-- Z, bit 16 (R86). -/
def zField (w : Record) : BitVec 1 := w.extractLsb' 16 1

/-- IMM, bits 15 to 0 (R86). -/
def immField (w : Record) : Imm := w.extractLsb' 0 16

/-- Bits 28 to 0 of a marker record, ignored by the engine (R91). -/
def restField (w : Record) : BitVec 29 := w.extractLsb' 0 29

/-- Format RRR: Z and IMM must be 0 (R88). -/
def decodeRRR (mk : RegField → RegField → RegField → Instr) (w : Record) : Option Instr :=
  if zField w = 0 ∧ immField w = 0 then some (mk (raField w) (rbField w) (rcField w)) else none

/-- Format RRI: RC and Z must be 0 (R88). -/
def decodeRRI (mk : RegField → RegField → Imm → Instr) (w : Record) : Option Instr :=
  if rcField w = 0 ∧ zField w = 0 then some (mk (raField w) (rbField w) (immField w)) else none

/-- The row of the opcode table a word belongs to, or `none` for a word whose must-be-zero field is not zero, which is a
MalformedOperand (R87, R88, R91). -/
def decodeRecord (w : Record) : Option Instr :=
  match (opField w).toNat with
  | 0 => decodeRRR .add w
  | 1 => decodeRRR .sub w
  | 2 => decodeRRR .nand w
  | 3 => decodeRRI .load w
  | 4 => decodeRRI .store w
  | 5 => decodeRRI .beq w
  | 6 => some (.rangeMarker (restField w))
  | _ => some (.malformedMarker (restField w))

/-- The spec's decoder answers an instruction to dispatch or a rejection (R96). -/
inductive Decoded where
  | inst (i : Instr)
  | reject (code : ErrCode)
deriving DecidableEq, Repr

/-- How an instruction of the table is classified: the markers are rejections, and so is a register number out of range
(R90, R91). -/
def classify (nreg : Nat) (i : Instr) : Decoded :=
  match i with
  | .rangeMarker _ => .reject .registerOutOfRange
  | .malformedMarker _ => .reject .malformedOperand
  | _ => if i.wellFormed nreg then .inst i else .reject .registerOutOfRange

/-- `decode(w)` of R96: the must-be-zero fields are looked at before the register ranges, so a word that is both malformed
and out of range is a MalformedOperand. -/
def decode (nreg : Nat) (w : Record) : Decoded :=
  match decodeRecord w with
  | none => .reject .malformedOperand
  | some i => classify nreg i

/-- A field's value at its place in a record. -/
def place {n : Nat} (v : BitVec n) (bit : Nat) : Record := v.setWidth 32 <<< bit

/-- The packed record of format RRR: Z and IMM are 0 (R86, R88). -/
def packRRR (op : BitVec 3) (ra rb rc : RegField) : Record :=
  place op 29 ||| place ra 25 ||| place rb 21 ||| place rc 17

/-- The packed record of format RRI: RC and Z are 0 (R86, R88). -/
def packRRI (op : BitVec 3) (ra rb : RegField) (imm : Imm) : Record :=
  place op 29 ||| place ra 25 ||| place rb 21 ||| place imm 0

/-- A marker record (R91). -/
def packMarker (op : BitVec 3) (rest : BitVec 29) : Record := place op 29 ||| place rest 0

/-- The word of an instruction, from the table of R86 to R89. -/
def encode : Instr → Record
  | .add ra rb rc => packRRR 0 ra rb rc
  | .sub ra rb rc => packRRR 1 ra rb rc
  | .nand ra rb rc => packRRR 2 ra rb rc
  | .load ra rb imm => packRRI 3 ra rb imm
  | .store ra rb imm => packRRI 4 ra rb imm
  | .beq ra rb imm => packRRI 5 ra rb imm
  | .rangeMarker rest => packMarker 6 rest
  | .malformedMarker rest => packMarker 7 rest

/-- The record whose low `nbits` bits are those of `w` and whose other bits are 0. A record is one 32-bit word, so the
table's bit numbers are its own. -/
def tableRecord (nbits w : Nat) : Record := BitVec.ofNat 32 (w % 2 ^ nbits)

/-- The instruction the decoder reads from a word numbered as spec/opcode_table.json numbers it. -/
def decodeTableWord (nbits w : Nat) : Option Instr := decodeRecord (tableRecord nbits w)

end Sys2Proof
end

