-- ==== Sys2Proof/Machine/Slot.lean ====
section
/-! DEFINITION. Reservation-station slots as data: tags, operands, slots, pools and completion events (10_state R25 to R27,
30_encoding R95, 40_engine_cycle R128). -/

namespace Sys2Proof.Machine

/-- A tag: pool and slot index of a busy slot (30_encoding R95). -/
structure Tag where
  pool : PoolId
  slot : Nat
deriving DecidableEq, Repr, Inhabited

/-- A source operand: a resolved value (Vj or Vk) or the tag of its pending producer (Qj or Qk) (10_state R27). -/
inductive Operand (w : Nat) where
  | val (v : Word w)
  | wait (t : Tag)
deriving DecidableEq, Repr, Inhabited

/-- The fields of a busy slot (10_state R26). -/
structure Slot (w : Nat) where
  op : Opcode
  pidx : Nat
  oj : Operand w
  ok : Operand w
  dest : Option Nat
  a : Int
  target : Int
  cl : Nat
  fresh : Bool
  seq : Nat
deriving DecidableEq, Repr, Inhabited

/-- The slots of one pool; `none` is an idle slot (10_state R26, R45). -/
abbrev Station (w : Nat) := List (Option (Slot w))

/-- The five pools (10_state R25). -/
structure Pools (w : Nat) where
  add : Station w
  nand : Station w
  load : Station w
  store : Station w
  beq : Station w
deriving DecidableEq, Repr, Inhabited

/-- A completion event (40_engine_cycle R128). -/
structure Event (w : Nat) where
  tag : Tag
  pidx : Nat
  op : Opcode
  dest : Option Nat
  value : Option (Word w)
  taken : Option Bool
  target : Int
deriving DecidableEq, Repr, Inhabited

/-- The two sticky dispatch-error flags (10_state R34). -/
structure ErrFlags where
  malformed : Bool
  range : Bool
deriving DecidableEq, Repr, Inhabited

end Sys2Proof.Machine
end

