-- ==== Sys2Proof/Config.lean ====
section
/-! DEFINITION. The parameters an implementation fixes (00_scope R7), their constraints, the reference configuration, and the
one free value of the model: what the state holds after a fault (60_exceptions R242). -/

namespace Sys2Proof

/-- The parameters of 00_scope R7. They are data of the machine, so that every statement holds for each choice of them; `N`,
the program length, is the launch input `State.prog` and its sample `Engine.progLen`. -/
structure Config where
  /-- `XLEN`: bits of a register and of a memory word. -/
  xlen : Nat
  /-- `NREG`: number of registers. -/
  nreg : Nat
  /-- `MEM_WORDS`: words of data memory. -/
  memWords : Nat
  capAdd : Nat
  capNand : Nat
  capLoad : Nat
  capStore : Nat
  capBeq : Nat
  latAdd : Nat
  latSub : Nat
  latNand : Nat
  latLoad : Nat
  latStore : Nat
  latBeq : Nat
  /-- `IW`: the divisor of a branch offset. -/
  iw : Nat
  /-- `PIDX_W`: hardware width of a program index. -/
  pidxW : Nat
  /-- `CNT_W`: hardware width of the three counters. -/
  cntW : Nat
  /-- `MAX_CYCLES`: the optional cycle-limit guard. -/
  maxCycles : Option Nat
  memwinBase : Nat
  memwinLen : Nat
deriving DecidableEq, Repr

/-- The constraints of 00_scope R7, but for the one on `N`, which is `Launchable`'s. -/
abbrev Config.Valid (c : Config) : Prop :=
  1 ≤ c.xlen ∧ (1 ≤ c.nreg ∧ c.nreg ≤ 16) ∧ 1 ≤ c.memWords ∧
  (1 ≤ c.capAdd ∧ 1 ≤ c.capNand ∧ 1 ≤ c.capLoad ∧ 1 ≤ c.capStore ∧ 1 ≤ c.capBeq) ∧
  (1 ≤ c.latAdd ∧ 1 ≤ c.latSub ∧ 1 ≤ c.latNand ∧ 1 ≤ c.latLoad ∧ 1 ≤ c.latStore ∧ 1 ≤ c.latBeq) ∧
  1 ≤ c.iw ∧ 1 ≤ c.pidxW ∧ (1 ≤ c.cntW ∧ c.cntW ≤ 32) ∧ c.maxCycles ≠ some 0 ∧
  c.memwinBase + c.memwinLen ≤ c.memWords

/-- A configuration and a program length that together meet every constraint of 00_scope R7. -/
abbrev Config.Launchable (c : Config) (n : Nat) : Prop := c.Valid ∧ n ≤ 2 ^ c.pidxW

/-- The reference configuration `RC` (00_scope R7). DESIGN CHOICE (log entry 1): the spec lets no parameter be fixed by `RC`;
the model uses it as the configuration of `State.reset` only. -/
def Config.reference : Config where
  xlen := 16
  nreg := 8
  memWords := 64
  capAdd := 3
  capNand := 2
  capLoad := 2
  capStore := 2
  capBeq := 1
  latAdd := 2
  latSub := 2
  latNand := 2
  latLoad := 1
  latStore := 1
  latBeq := 1
  iw := 4
  pidxW := 16
  cntW := 32
  maxCycles := none
  memwinBase := 0
  memwinLen := 8

/-- What a fault leaves in the parts of the state the spec calls unspecified: registers, memory words by address, register
status, pools, stream, counters and error records (60_exceptions R242). -/
structure Residue (w : Nat) where
  regs : List (Word w)
  words : List (Word w)
  rst : List (Option Machine.Tag)
  pools : Machine.Pools w
  stream : List Nat
  seqNext : Nat
  completed : Nat
  dropped : Nat
  errflags : Machine.ErrFlags
  lasterr : Option (ErrCode × Nat)
deriving DecidableEq, Repr, Inhabited

/-- FREE VALUE (log entry 6): the unspecified state after the `k`-th fault of a machine whose words have `w` bits
(60_exceptions R242, I12). It has no body: nothing can be proved of it. -/
opaque Config.afterFault (w k : Nat) : Residue w

end Sys2Proof
end

