-- ==== Sys2Proof/Machine/State.lean ====
section
/-! DEFINITION. The state of the engine (10_state R20), its reasons to stop, its memory (20_memory R60), and the state after
reset (10_state R45). -/

namespace Sys2Proof.Machine

/-- The engine's state (10_state R33). -/
inductive Status where
  | running
  | halted
  | faulted
deriving DecidableEq, Repr

/-- The engine faults that stop a run in the `Faulted` STATE (60_exceptions R230). They are data of the state, not outcomes of
a step: a step that raises one answers the next state the spec gives (R242). -/
inductive FaultCode where
  /-- Code 8: a LOAD or STORE address outside memory (R235). -/
  | memoryAddressOutOfRange
  /-- Code 9: a taken branch to a negative target (R236). -/
  | branchTargetOutOfRange
  /-- Code 10: the maximum-cycle guard (R237). -/
  | cycleLimit
  /-- Code 11: allocation from a full pool, which no run reaches (R238). -/
  | allocationOverflow
deriving DecidableEq, Repr

/-- Why the MODEL stops with a fault. -/
inductive Fault where
  /-- Raised by the cycle alone, when the head of the pending stream names no record of the program: no state that a run
  reaches (10_state R28, R30). Safe: the model stops where the spec gives no behaviour (log entry 11). -/
  | programReadOutside (index : Nat)
deriving DecidableEq, Repr

/-- Why the MODEL gives no meaning. -/
inductive Refusal where
  /-- An instruction whose meaning is not written yet, raised by `exec`'s arm for it. Safe. No arm raises it. -/
  | notModelled (mnemonic : String)
deriving DecidableEq, Repr

/-- Data memory as (word address, word) pairs: addresses strictly rising, no pair holding the word an unlisted address reads
as (20_memory R60; log entries 3 and 4). -/
abbrev Memory (w : Nat) := List (Nat × Word w)

/-- What an unlisted word of memory reads as. DESIGN CHOICE (log entry 3): INIT_MEM is the host's to choose (10_state D12,
20_memory R74); a launch whose INIT_MEM differs lists its words. -/
def Memory.unlisted (w : Nat) : Word w := 0

/-- The canonical form: addresses strictly rising, and no cell equal to what an unlisted address reads as. -/
def Memory.wf {w : Nat} (m : Memory w) : Bool :=
  decide ((m.map Prod.fst).Pairwise (· < ·)) && m.all fun c => decide (c.2 ≠ Memory.unlisted w)

/-- Everything a cycle can change (10_state R20), the sampled program length, and the model's count of faults. -/
structure Engine (c : Config) where
  /-- Register file values (R21). -/
  x : List (Word c.xlen)
  /-- Register status table: `none` is Ready, `some t` is PendingOn(t) (R23). -/
  rst : List (Option Tag)
  /-- Data memory (20_memory R60). -/
  mem : Memory c.xlen
  /-- Reservation-station pools (R25, R26). -/
  pools : Pools c.xlen
  /-- Pending stream of program indices (R28). -/
  stream : List Nat
  /-- Dispatch sequence counter (R31). -/
  seqNext : Nat
  /-- Cycles performed since reset (R32). -/
  cycle : Nat
  /-- Completion events released (R32). -/
  completed : Nat
  /-- Instructions rejected at dispatch (R32). -/
  dropped : Nat
  /-- Running, Halted or Faulted (R33). -/
  status : Status
  /-- Fault code and program index (R33). -/
  fault : Option (FaultCode × Nat)
  /-- Sticky dispatch-error flags (R34). -/
  errflags : ErrFlags
  /-- Last rejected instruction (R34). -/
  lasterr : Option (ErrCode × Nat)
  /-- `N` as sampled at reset (R36 PROGLEN, R41, 70_reset_and_hazards R260). -/
  progLen : Nat
  /-- The model's own: faults raised so far, which selects the free value after the next one (log entry 6). -/
  faults : Nat
deriving DecidableEq, Repr

/-- The machine: its parameters, the program the host loaded, the reset input and the engine. -/
structure State where
  /-- The parameters (00_scope R7); no step changes them. -/
  cfg : Config
  /-- The program store: `N` records, read-only (10_state R29); no step changes it. -/
  prog : List Record
  /-- The `reset` input (10_state R41), set by the host between cycles. -/
  resetPin : Bool
  /-- The engine. -/
  eng : Engine cfg
deriving DecidableEq, Repr

/-- Right after reset, with the reset input released (10_state R45; 70_reset_and_hazards R260), in the configuration `RC` with
no program loaded and every register and memory word launched at 0 (log entries 1, 2, 3, 10). -/
def State.reset : State where
  cfg := Config.reference
  prog := []
  resetPin := false
  eng :=
    { x := List.replicate 8 0
      rst := List.replicate 8 none
      mem := []
      pools :=
        { add := [none, none, none]
          nand := [none, none]
          load := [none, none]
          store := [none, none]
          beq := [none] }
      stream := []
      seqNext := 0
      cycle := 0
      completed := 0
      dropped := 0
      status := .running
      fault := none
      errflags := { malformed := false, range := false }
      lasterr := none
      progLen := 0
      faults := 0 }

end Sys2Proof.Machine
end

