-- ==== Sys2Proof/Machine/Flags.lean ====
section
/-! DEFINITION. The only flags of the engine: the two sticky dispatch-error flags and the record of the last rejection
(10_state R34). No operation writes a condition flag, and overflow is recorded nowhere (10_state R35, 41_arithmetic R163). -/

namespace Sys2Proof.Machine

/-- A rejection sets the flag of its code and leaves the other (10_state R34, 40_engine_cycle R117). -/
def ErrFlags.set (f : ErrFlags) (code : ErrCode) : ErrFlags :=
  match code with
  | .malformedOperand => { f with malformed := true }
  | .registerOutOfRange => { f with range := true }

/-- The record a rejection leaves: its sticky flag, and `lasterr` with the program index (40_engine_cycle R117). -/
def Engine.recordRejection {c : Config} (e : Engine c) (code : ErrCode) (i : Nat) : Engine c :=
  { e with errflags := e.errflags.set code, lasterr := some (code, i) }

end Sys2Proof.Machine
end

