-- ==== Sys2Proof/Machine/Ops.lean ====
section
/-! DEFINITION. The named operations over memory, registers, the register status table, the pools and the pending stream, and
the two operations that change the engine's status from outside an instruction: raising a fault (60_exceptions R242) and reset
(70_reset_and_hazards R260). -/

namespace Sys2Proof.Machine

/-! ### Parameters by pool and by operation -/

/-- The pools in declaration order, in which every per-pool loop runs (10_state R25). -/
def poolOrder : List PoolId := [.add, .nand, .load, .store, .beq]

/-- `poolOf`: the pool that executes an operation; ADD and SUB share one (40_engine_cycle R116). -/
def poolOf : Opcode → PoolId
  | .add => .add
  | .sub => .add
  | .nand => .nand
  | .load => .load
  | .store => .store
  | .beq => .beq

/-- `CAP_p`, the number of slots of a pool (10_state R25). -/
def capOf (c : Config) : PoolId → Nat
  | .add => c.capAdd
  | .nand => c.capNand
  | .load => c.capLoad
  | .store => c.capStore
  | .beq => c.capBeq

/-- `LAT(op)`, the fixed latency of an operation (40_engine_cycle R120). -/
def latOf (c : Config) : Opcode → Nat
  | .add => c.latAdd
  | .sub => c.latSub
  | .nand => c.latNand
  | .load => c.latLoad
  | .store => c.latStore
  | .beq => c.latBeq

/-! ### Memory -/

/-- The word at an address (20_memory R62). -/
def Memory.read {w : Nat} (m : Memory w) (a : Nat) : Word w :=
  match m with
  | [] => Memory.unlisted w
  | (b, v) :: rest => if a = b then v else Memory.read rest a

/-- A canonical cell list for one address: nothing where the word is what an unlisted address reads as. -/
def Memory.cell {w : Nat} (a : Nat) (v : Word w) : Memory w :=
  if v = Memory.unlisted w then [] else [(a, v)]

/-- Write one word, keeping the canonical form (20_memory R62). -/
def Memory.write {w : Nat} (m : Memory w) (a : Nat) (v : Word w) : Memory w :=
  match m with
  | [] => Memory.cell a v
  | (b, u) :: rest =>
    if a < b then Memory.cell a v ++ (b, u) :: rest
    else if a = b then Memory.cell a v ++ rest
    else (b, u) :: Memory.write rest a v

/-- The range check of an access: `0 <= ea < MEM_WORDS` (20_memory R61). -/
def inMemory (c : Config) (ea : Int) : Bool := decide (0 ≤ ea ∧ ea < (c.memWords : Int))

/-- `MemRead(ea, 1)`: `none` where it raises MemoryAddressOutOfRange (20_memory R61). -/
def memRead {c : Config} (m : Memory c.xlen) (ea : Int) : Option (Word c.xlen) :=
  if inMemory c ea then some (m.read ea.toNat) else none

/-- `MemWrite(ea, 1, v)`: `none` where it raises MemoryAddressOutOfRange (20_memory R61). -/
def memWrite {c : Config} (m : Memory c.xlen) (ea : Int) (v : Word c.xlen) : Option (Memory c.xlen) :=
  if inMemory c ea then some (m.write ea.toNat v) else none

/-- The canonical memory whose words at addresses 0, 1, ... are those of a list. -/
def Memory.ofWords {w : Nat} (vs : List (Word w)) : Memory w :=
  ((List.range vs.length).zip vs).foldl (fun m p => m.write p.1 p.2) []

/-! ### Register file and register status table -/

/-- The value of register `r` (10_state R21). No register is hard-wired. A number past the file, which no decoded
instruction that passed the range check and no run has, reads 0 (log entry 14). -/
def Engine.reg {c : Config} (e : Engine c) (r : Nat) : Word c.xlen := e.x.getD r 0

/-- `x[r] <- v`. -/
def Engine.setReg {c : Config} (e : Engine c) (r : Nat) (v : Word c.xlen) : Engine c :=
  { e with x := e.x.set r v }

/-- `current_tag(r)` (10_state R23). -/
def Engine.currentTag {c : Config} (e : Engine c) (r : Nat) : Option Tag := e.rst.getD r none

/-- `is_ready(r)` (10_state R23). -/
def Engine.isReady {c : Config} (e : Engine c) (r : Nat) : Bool := (e.currentTag r).isNone

/-- `mark_pending(r, t)` (10_state R23). -/
def Engine.markPending {c : Config} (e : Engine c) (r : Nat) (t : Tag) : Engine c :=
  { e with rst := e.rst.set r (some t) }

/-- `clear(r)` (10_state R23). -/
def Engine.clearPending {c : Config} (e : Engine c) (r : Nat) : Engine c :=
  { e with rst := e.rst.set r none }

/-! ### Pools -/

/-- The slots of a pool. -/
def Pools.get {w : Nat} (p : Pools w) : PoolId → Station w
  | .add => p.add
  | .nand => p.nand
  | .load => p.load
  | .store => p.store
  | .beq => p.beq

/-- Replace the slots of a pool. -/
def Pools.put {w : Nat} (p : Pools w) (q : PoolId) (l : Station w) : Pools w :=
  match q with
  | .add => { p with add := l }
  | .nand => { p with nand := l }
  | .load => { p with load := l }
  | .store => { p with store := l }
  | .beq => { p with beq := l }

/-- The same change to every busy slot of every pool. -/
def Pools.mapBusy {w : Nat} (f : Slot w → Slot w) (p : Pools w) : Pools w where
  add := p.add.map (Option.map f)
  nand := p.nand.map (Option.map f)
  load := p.load.map (Option.map f)
  store := p.store.map (Option.map f)
  beq := p.beq.map (Option.map f)

/-- Every slot idle (10_state R45). -/
def idlePools (c : Config) : Pools c.xlen where
  add := List.replicate c.capAdd none
  nand := List.replicate c.capNand none
  load := List.replicate c.capLoad none
  store := List.replicate c.capStore none
  beq := List.replicate c.capBeq none

/-- The contents of slot `k` of pool `p`; `none` when the slot is idle, and when there is no such slot. -/
def Engine.slot {c : Config} (e : Engine c) (p : PoolId) (k : Nat) : Option (Slot c.xlen) :=
  (e.pools.get p).getD k none

/-- Write slot `k` of pool `p`. -/
def Engine.setSlot {c : Config} (e : Engine c) (p : PoolId) (k : Nat) (o : Option (Slot c.xlen)) : Engine c :=
  { e with pools := e.pools.put p ((e.pools.get p).set k o) }

/-- `is_available(p)`: some slot of the pool is idle (40_engine_cycle R114). -/
def Engine.isAvailable {c : Config} (e : Engine c) (p : PoolId) : Bool := (e.pools.get p).any Option.isNone

/-- Some slot of the pool is busy. -/
def Station.anyBusy {w : Nat} (l : Station w) : Bool := l.any Option.isSome

/-- Some slot of some pool is busy (10_state R36, ANY_BUSY). -/
def Engine.anyBusy {c : Config} (e : Engine c) : Bool := poolOrder.any fun p => Station.anyBusy (e.pools.get p)

/-- The lowest index of an idle slot (40_engine_cycle R119). -/
def lowestIdle {w : Nat} (l : Station w) : Option Nat := l.findIdx? Option.isNone

/-! ### Raising a fault, and reset -/

/-- A list of exactly `n` entries: those of `l`, and `d` where it has none. -/
def fitTo {α : Type} (n : Nat) (d : α) (l : List α) : List α := (List.range n).map fun k => l.getD k d

/-- `raise F(info)`: the status becomes Faulted and the fault is recorded; `cycle` and the sampled program length stay;
everything else is unspecified, so it takes the free value of this fault (60_exceptions R242; log entries 6 and 7). There is no
handler and no trap return (R241): only reset leaves the state. -/
def Engine.raise {c : Config} (e : Engine c) (f : FaultCode) (info : Nat) : Engine c :=
  let r := Config.afterFault c.xlen e.faults
  { x := fitTo c.nreg 0 r.regs
    rst := fitTo c.nreg none r.rst
    mem := Memory.ofWords (fitTo c.memWords 0 r.words)
    pools :=
      { add := fitTo c.capAdd none r.pools.add
        nand := fitTo c.capNand none r.pools.nand
        load := fitTo c.capLoad none r.pools.load
        store := fitTo c.capStore none r.pools.store
        beq := fitTo c.capBeq none r.pools.beq }
    stream := r.stream
    seqNext := r.seqNext
    cycle := e.cycle
    completed := r.completed
    dropped := r.dropped
    status := .faulted
    fault := some (f, info)
    errflags := r.errflags
    lasterr := r.lasterr
    progLen := e.progLen
    faults := e.faults + 1 }

/-- The reset action on an engine, sampling `N` from `prog_len`: everything but `x` and `mem` is set
(70_reset_and_hazards R260, 10_state R45). It is the only way out of Halted and Faulted (60_exceptions R244). -/
def Engine.applyReset {c : Config} (e : Engine c) (n : Nat) : Engine c :=
  { e with
    rst := List.replicate c.nreg none
    pools := idlePools c
    stream := List.range n
    seqNext := 0
    cycle := 0
    completed := 0
    dropped := 0
    status := .running
    fault := none
    errflags := { malformed := false, range := false }
    lasterr := none
    progLen := n }

/-- A rising edge with the reset input at 1 (70_reset_and_hazards R260); `prog_len` is the length of the program the host wrote
(R263, log entry 9). -/
def State.applyReset (s : State) : State := { s with eng := s.eng.applyReset s.prog.length }

/-- The state of a launch: configuration, program, INIT_REGS and INIT_MEM (70_reset_and_hazards R262). -/
def State.launch (c : Config) (prog : List Record) (initRegs : List (Word c.xlen)) (initMem : Memory c.xlen) : State where
  cfg := c
  prog := prog
  resetPin := false
  eng :=
    { x := initRegs
      rst := List.replicate c.nreg none
      mem := initMem
      pools := idlePools c
      stream := List.range prog.length
      seqNext := 0
      cycle := 0
      completed := 0
      dropped := 0
      status := .running
      fault := none
      errflags := { malformed := false, range := false }
      lasterr := none
      progLen := prog.length
      faults := 0 }

/-! ### Dispatch of the head of the pending stream -/

/-- The registers, displacement and target an operation resolves at dispatch (40_engine_cycle R122). -/
structure Resolved (w : Nat) where
  oj : Operand w
  ok : Operand w
  dest : Option Nat
  a : Int
  target : Int
deriving DecidableEq, Repr

/-- `allocate`: place an instruction in the lowest idle slot of its pool, mark it fresh, give it the next sequence number,
start its countdown at its latency, and rename its destination. On a full pool it is a capacity error, which dispatch never
lets happen (40_engine_cycle R119, R120, R124; 60_exceptions R238). -/
def Engine.allocate {c : Config} (e : Engine c) (op : Opcode) (i : Nat) (r : Resolved c.xlen) : Engine c :=
  match lowestIdle (e.pools.get (poolOf op)) with
  | none => e.raise .allocationOverflow i
  | some k =>
    let placed := e.setSlot (poolOf op) k (some
      { op := op, pidx := i, oj := r.oj, ok := r.ok, dest := r.dest, a := r.a, target := r.target,
        cl := latOf c op, fresh := true, seq := e.seqNext })
    let counted := { placed with seqNext := placed.seqNext + 1 }
    match r.dest with
    | none => counted
    | some d => counted.markPending d { pool := poolOf op, slot := k }

/-- `reject code(i)` for the head `i` of the stream: it is popped, counted as dropped, and recorded; nothing is allocated
(40_engine_cycle R117). -/
def Engine.rejectHead {c : Config} (e : Engine c) (code : ErrCode) : Engine c :=
  match e.stream with
  | [] => e
  | i :: rest => Engine.recordRejection { e with stream := rest, dropped := e.dropped + 1 } code i

/-- Dispatch of the head as operation `op`: nothing on an empty stream; a used register number out of range is a rejection
(30_encoding R90); a full pool is a stall that changes nothing (40_engine_cycle R118); otherwise the head is popped and
allocated with the operands `resolve` finds for its program index in the state before this dispatch (R115, R123). -/
def Engine.dispatchHead {c : Config} (e : Engine c) (op : Opcode) (used : List RegField)
    (resolve : Nat → Resolved c.xlen) : Engine c :=
  match e.stream with
  | [] => e
  | i :: rest =>
    if used.all fun r => decide (r.toNat < c.nreg) then
      if e.isAvailable (poolOf op) then Engine.allocate { e with stream := rest } op i (resolve i)
      else e
    else e.rejectHead .registerOutOfRange

end Sys2Proof.Machine
end

