-- ==== Sys2Proof/Machine/Operands.lean ====
section
/-! DEFINITION. Operand resolution at dispatch (40_engine_cycle R121, R122), the operand values a ready slot holds (10_state
R27), the effective address (42_memory_ops R182) and the branch target (43_branch R201). -/

namespace Sys2Proof.Machine

/-- `read(r)`: the value of a Ready register, or the tag of the pending producer (40_engine_cycle R121). -/
def Engine.resolve {c : Config} (e : Engine c) (r : RegField) : Operand c.xlen :=
  match e.currentTag r.toNat with
  | none => .val (e.reg r.toNat)
  | some t => .wait t

/-- The immediate as an integer (30_encoding R89). -/
def immValue (imm : Imm) : Int := imm.toInt

/-- The target index of a branch at program index `i`: division by IW rounds toward minus infinity (43_branch R201). -/
def branchTarget (c : Config) (i : Nat) (imm : Imm) : Int := (i : Int) + 1 + Int.fdiv (immValue imm) (c.iw : Int)

/-- ADD, SUB and NAND (40_engine_cycle R122). -/
def rrrOperands {c : Config} (e : Engine c) (ra rb rc : RegField) : Resolved c.xlen :=
  { oj := e.resolve rb, ok := e.resolve rc, dest := some ra.toNat, a := 0, target := 0 }

/-- LOAD: the base in the first operand, the second unused (40_engine_cycle R122). -/
def loadOperands {c : Config} (e : Engine c) (ra rb : RegField) (imm : Imm) : Resolved c.xlen :=
  { oj := e.resolve rb, ok := .val 0, dest := some ra.toNat, a := immValue imm, target := 0 }

/-- STORE: the value in the first operand, the base in the second, no destination (40_engine_cycle R122). -/
def storeOperands {c : Config} (e : Engine c) (ra rb : RegField) (imm : Imm) : Resolved c.xlen :=
  { oj := e.resolve ra, ok := e.resolve rb, dest := none, a := immValue imm, target := 0 }

/-- BEQ at program index `i`: two sources, no destination, the target held in the slot (40_engine_cycle R122). -/
def beqOperands {c : Config} (e : Engine c) (ra rb : RegField) (imm : Imm) (i : Nat) : Resolved c.xlen :=
  { oj := e.resolve ra, ok := e.resolve rb, dest := none, a := 0, target := branchTarget c i imm }

/-- An operand holds a value. -/
def Operand.isVal {w : Nat} : Operand w → Bool
  | .val _ => true
  | .wait _ => false

/-- `Vj` or `Vk`. It is read only in a fully ready slot, never while the operand is a `wait` (10_state R27, log entry 14). -/
def Operand.value {w : Nat} : Operand w → Word w
  | .val v => v
  | .wait _ => 0

/-- A slot is fully ready when neither operand is a `wait` (10_state R27). -/
def Slot.ready {w : Nat} (s : Slot w) : Bool := s.oj.isVal && s.ok.isVal

/-- `ea = a + signed(Vbase)`, exact (42_memory_ops R182). -/
def effectiveAddress {w : Nat} (a : Int) (base : Word w) : Int := a + base.toInt

/-- `wake(t, v)` on one operand (40_engine_cycle R130). -/
def Operand.wake {w : Nat} (o : Operand w) (t : Tag) (v : Word w) : Operand w :=
  match o with
  | .val u => .val u
  | .wait t' => if t' = t then .val v else .wait t'

/-- `wake(t, v)` on one slot (40_engine_cycle R130). -/
def Slot.wake {w : Nat} (t : Tag) (v : Word w) (s : Slot w) : Slot w :=
  { s with oj := s.oj.wake t v, ok := s.ok.wake t v }

end Sys2Proof.Machine
end

