-- ==== Sys2Proof/Machine/Arith.lean ====
section
/-! DEFINITION. ADD, SUB and NAND (41_arithmetic R160 to R163). Each has a dispatch meaning, which `exec` calls, and a
completion meaning, which the step sub-step calls when the slot is selected (40_engine_cycle R127, log entry 5). -/

namespace Sys2Proof.Machine

/-- The exact sum of the unsigned values, narrowed (R160, R163). -/
def addWords {w : Nat} (vj vk : Word w) : Word w := wrap w ((vj.toNat : Int) + (vk.toNat : Int))

/-- The exact difference of the unsigned values, first minus second, narrowed (R161, R163). -/
def subWords {w : Nat} (vj vk : Word w) : Word w := wrap w ((vj.toNat : Int) - (vk.toNat : Int))

/-- Bitwise NOT of AND (R162). -/
def nandWords {w : Nat} (vj vk : Word w) : Word w := ~~~(vj &&& vk)

/-- The event of a completed operation with a register result (40_engine_cycle R128). -/
def resultEvent {w : Nat} (t : Tag) (s : Slot w) (v : Word w) : Event w :=
  { tag := t, pidx := s.pidx, op := s.op, dest := s.dest, value := some v, taken := none, target := 0 }

/-- Dispatch of ADD (R160). -/
def execAdd (ra rb rc : RegField) (s : State) : Host.Outcome State Fault Refusal :=
  .next { s with eng := s.eng.dispatchHead .add [ra, rb, rc] fun _ => rrrOperands s.eng ra rb rc }

/-- Dispatch of SUB (R161). -/
def execSub (ra rb rc : RegField) (s : State) : Host.Outcome State Fault Refusal :=
  .next { s with eng := s.eng.dispatchHead .sub [ra, rb, rc] fun _ => rrrOperands s.eng ra rb rc }

/-- Dispatch of NAND (R162). -/
def execNand (ra rb rc : RegField) (s : State) : Host.Outcome State Fault Refusal :=
  .next { s with eng := s.eng.dispatchHead .nand [ra, rb, rc] fun _ => rrrOperands s.eng ra rb rc }

/-- Completion of ADD (R160). -/
def completeAdd {w : Nat} (t : Tag) (s : Slot w) : Event w := resultEvent t s (addWords s.oj.value s.ok.value)

/-- Completion of SUB (R161). -/
def completeSub {w : Nat} (t : Tag) (s : Slot w) : Event w := resultEvent t s (subWords s.oj.value s.ok.value)

/-- Completion of NAND (R162). -/
def completeNand {w : Nat} (t : Tag) (s : Slot w) : Event w := resultEvent t s (nandWords s.oj.value s.ok.value)

end Sys2Proof.Machine
end

