-- ==== Sys2Proof/Machine/Branch.lean ====
section
/-! DEFINITION. BEQ and the branch flush controller (43_branch R200 to R208). -/

namespace Sys2Proof.Machine

/-- Dispatch of BEQ; the target is computed from the BEQ's own program index (R200, R201). -/
def execBeq (ra rb : RegField) (imm : Imm) (s : State) : Host.Outcome State Fault Refusal :=
  .next { s with eng := s.eng.dispatchHead .beq [ra, rb] fun i => beqOperands s.eng ra rb imm i }

/-- Completion of BEQ: bit-by-bit equality of the two words (R200). -/
def completeBeq {w : Nat} (t : Tag) (s : Slot w) : Event w :=
  { tag := t, pidx := s.pidx, op := .beq, dest := none, value := none, taken := some (s.oj.value == s.ok.value),
    target := s.target }

/-- `range(target, N)`: the program indices from the target to the end, none when the target is at or past it (R202, R208). -/
def streamFrom (target n : Nat) : List Nat := List.range' target (n - target)

/-- `redirect`: the whole pending stream is replaced; a negative target is the fault BranchTargetOutOfRange (R202, R208). -/
def Engine.redirect {c : Config} (e : Engine c) (ev : Event c.xlen) : Except (FaultCode × Nat) (Engine c) :=
  if ev.target < 0 then .error (.branchTargetOutOfRange, ev.pidx)
  else .ok { e with stream := streamFrom ev.target.toNat e.progLen }

/-- Sub-step (5): the redirect of every taken event; a branch not taken changes nothing (40_engine_cycle R133). -/
def Engine.redirectAll {c : Config} (e : Engine c) (evs : List (Event c.xlen)) : Except (FaultCode × Nat) (Engine c) :=
  match evs with
  | [] => .ok e
  | ev :: rest =>
    if ev.taken = some true then
      match e.redirect ev with
      | .error f => .error f
      | .ok e' => Engine.redirectAll e' rest
    else Engine.redirectAll e rest

/-- The states of the branch state machine before completion (R206); a completed BEQ has left its slot. -/
inductive BranchPhase where
  | fetched
  | dispatched
  | resolved
deriving DecidableEq, Repr

/-- The phase of a busy BEQ slot (R206). -/
def Slot.branchPhase {w : Nat} (s : Slot w) : BranchPhase := if s.ready then .resolved else .dispatched

/-- The phases of the BEQ with program index `i`: `fetched` while the index is pending, and one for each BEQ slot that holds it,
since a loop can dispatch it again (R206, R209). -/
def Engine.branchPhases {c : Config} (e : Engine c) (i : Nat) : List BranchPhase :=
  (if i ∈ e.stream then [.fetched] else []) ++
    e.pools.beq.filterMap fun o => match o with
      | some s => if s.pidx = i then some s.branchPhase else none
      | none => none

end Sys2Proof.Machine
end

