-- ==== Sys2Proof/Machine/Markers.lean ====
section
/-! DEFINITION. The two marker records, which are no instructions: each is rejected when it reaches the head of the stream,
whatever its other bits hold and whether or not a pool has room (30_encoding R91, 40_engine_cycle R117). -/

namespace Sys2Proof.Machine

/-- The range marker, OP = 110: RegisterOutOfRange (60_exceptions R232). The ignored bits have no effect. -/
def execRangeMarker (_rest : BitVec 29) (s : State) : Host.Outcome State Fault Refusal :=
  .next { s with eng := s.eng.rejectHead .registerOutOfRange }

/-- The malformed marker, OP = 111: MalformedOperand (60_exceptions R231). The ignored bits have no effect. -/
def execMalformedMarker (_rest : BitVec 29) (s : State) : Host.Outcome State Fault Refusal :=
  .next { s with eng := s.eng.rejectHead .malformedOperand }

end Sys2Proof.Machine
end

