-- ==== Sys2Proof/Machine/MemoryOps.lean ====
section
/-! DEFINITION. LOAD and STORE (42_memory_ops R180 to R183): dispatch, and completion, where the access happens in the step
sub-step of the completing cycle (20_memory R68). -/

namespace Sys2Proof.Machine

/-- Dispatch of LOAD (R180). -/
def execLoad (ra rb : RegField) (imm : Imm) (s : State) : Host.Outcome State Fault Refusal :=
  .next { s with eng := s.eng.dispatchHead .load [ra, rb] fun _ => loadOperands s.eng ra rb imm }

/-- Dispatch of STORE (R181). -/
def execStore (ra rb : RegField) (imm : Imm) (s : State) : Host.Outcome State Fault Refusal :=
  .next { s with eng := s.eng.dispatchHead .store [ra, rb] fun _ => storeOperands s.eng ra rb imm }

/-- The address a LOAD slot reads: its base is the first operand (R182). -/
def loadAddress {w : Nat} (s : Slot w) : Int := effectiveAddress s.a s.oj.value

/-- The address a STORE slot writes: its base is the second operand (R182). -/
def storeAddress {w : Nat} (s : Slot w) : Int := effectiveAddress s.a s.ok.value

/-- Completion of LOAD: the event with the word read, or the fault with the program index (R180, R183). -/
def completeLoad {c : Config} (e : Engine c) (t : Tag) (s : Slot c.xlen) : Except (FaultCode × Nat) (Event c.xlen) :=
  match memRead e.mem (loadAddress s) with
  | some v => .ok (resultEvent t s v)
  | none => .error (.memoryAddressOutOfRange, s.pidx)

/-- Completion of STORE: the memory written and an event without a result, or the fault with the program index (R181, R183). -/
def completeStore {c : Config} (e : Engine c) (t : Tag) (s : Slot c.xlen) :
    Except (FaultCode × Nat) (Engine c × Event c.xlen) :=
  match memWrite e.mem (storeAddress s) s.oj.value with
  | some m =>
    .ok ({ e with mem := m },
      { tag := t, pidx := s.pidx, op := .store, dest := none, value := none, taken := none, target := 0 })
  | none => .error (.memoryAddressOutOfRange, s.pidx)

end Sys2Proof.Machine
end

