-- ==== Sys2Proof/Machine/Dispatch.lean ====
section
/-! DEFINITION. The dispatch sub-step by instruction (40_engine_cycle R115): one arm per row of spec/opcode_table.json. What a
dispatched instruction does when it completes is in Machine/Execute.lean (R127). -/

namespace Sys2Proof.Machine

def exec (i : Instr) (s : State) : Host.Outcome State Fault Refusal :=
  match i with
  | .add ra rb rc => Sys2Proof.Machine.execAdd ra rb rc s
  | .sub ra rb rc => Sys2Proof.Machine.execSub ra rb rc s
  | .nand ra rb rc => Sys2Proof.Machine.execNand ra rb rc s
  | .load ra rb imm => Sys2Proof.Machine.execLoad ra rb imm s
  | .store ra rb imm => Sys2Proof.Machine.execStore ra rb imm s
  | .beq ra rb imm => Sys2Proof.Machine.execBeq ra rb imm s
  | .rangeMarker rest => Sys2Proof.Machine.execRangeMarker rest s
  | .malformedMarker rest => Sys2Proof.Machine.execMalformedMarker rest s

end Sys2Proof.Machine
end

