-- ==== Sys2Proof/Machine/Execute.lean ====
section
/-! DEFINITION. Countdown, completion selection, execution, broadcast and release (40_engine_cycle R125 to R134), and what is
left of a cycle after its dispatch (R135). -/

namespace Sys2Proof.Machine

/-! ### Step -/

/-- One decrement of one slot: fully ready, not fresh, and not yet at 0 (R125). -/
def Slot.countdown {w : Nat} (s : Slot w) : Slot w :=
  if s.ready && !s.fresh && decide (0 < s.cl) then { s with cl := s.cl - 1 } else s

/-- The decrements of one pool (R125). -/
def Engine.countdown {c : Config} (e : Engine c) (p : PoolId) : Engine c :=
  { e with pools := e.pools.put p ((e.pools.get p).map (Option.map Slot.countdown)) }

/-- A slot that can complete: fully ready and at 0 (R126). -/
def Slot.isCandidate {w : Nat} (s : Slot w) : Bool := s.ready && s.cl == 0

/-- Of a candidate at index `k` and the choice among later indices, the one with the smaller sequence number. Busy slots never
share one; the lower index stands where an unreachable state gives two the same (log entry 15). -/
def older {w : Nat} (k : Nat) (s : Slot w) (other : Option (Nat × Slot w)) : Nat × Slot w :=
  match other with
  | none => (k, s)
  | some (k', s') => if s.seq ≤ s'.seq then (k, s) else (k', s')

/-- The oldest candidate of a pool whose first slot has index `k` (R126). -/
def selectFrom {w : Nat} (k : Nat) (l : Station w) : Option (Nat × Slot w) :=
  match l with
  | [] => none
  | none :: rest => selectFrom (k + 1) rest
  | some s :: rest => if s.isCandidate then some (older k s (selectFrom (k + 1) rest)) else selectFrom (k + 1) rest

/-- The slot a pool selects to complete: the candidate with the least `seq` (R126). -/
def selectOldest {w : Nat} (l : Station w) : Option (Nat × Slot w) := selectFrom 0 l

/-- `execute`: the completion meaning of the slot's operation (R127). -/
def execute {c : Config} (e : Engine c) (t : Tag) (s : Slot c.xlen) :
    Except (FaultCode × Nat) (Engine c × Event c.xlen) :=
  match s.op with
  | .add => .ok (e, completeAdd t s)
  | .sub => .ok (e, completeSub t s)
  | .nand => .ok (e, completeNand t s)
  | .load =>
    match completeLoad e t s with
    | .error f => .error f
    | .ok ev => .ok (e, ev)
  | .store => completeStore e t s
  | .beq => .ok (e, completeBeq t s)

/-- The step of one pool: its decrements, then at most one completion (R125, R126). -/
def Engine.stepPool {c : Config} (e : Engine c) (p : PoolId) :
    Except (FaultCode × Nat) (Engine c × List (Event c.xlen)) :=
  let counted := e.countdown p
  match selectOldest (counted.pools.get p) with
  | none => .ok (counted, [])
  | some (k, s) =>
    match execute counted { pool := p, slot := k } s with
    | .error f => .error f
    | .ok (e', ev) => .ok (e', [ev])

/-- Sub-step (2): the step of each pool of a list, in its order, with the events in that order; a fault ends it (R135). -/
def Engine.stepPools {c : Config} (e : Engine c) (ps : List PoolId) :
    Except (FaultCode × Nat) (Engine c × List (Event c.xlen)) :=
  match ps with
  | [] => .ok (e, [])
  | p :: rest =>
    match e.stepPool p with
    | .error f => .error f
    | .ok (e', evs) =>
      match Engine.stepPools e' rest with
      | .error f => .error f
      | .ok (e'', more) => .ok (e'', evs ++ more)

/-! ### Broadcast and release -/

/-- Write-back: the register is written and becomes Ready only while it still names the event's tag (R129). -/
def Engine.writeBack {c : Config} (e : Engine c) (d : Nat) (t : Tag) (v : Word c.xlen) : Engine c :=
  if e.currentTag d = some t then (e.setReg d v).clearPending d else e

/-- Wake: every operand of every busy slot that waits on the tag takes the value, whether or not the register was written
(R130). -/
def Engine.wakeAll {c : Config} (e : Engine c) (t : Tag) (v : Word c.xlen) : Engine c :=
  { e with pools := e.pools.mapBusy (Slot.wake t v) }

/-- `broadcast` of one event; an event without a register result does nothing (R129, R130). -/
def Engine.broadcast {c : Config} (e : Engine c) (ev : Event c.xlen) : Engine c :=
  match ev.dest, ev.value with
  | some d, some v => (e.writeBack d ev.tag v).wakeAll ev.tag v
  | _, _ => e

/-- Sub-step (3): the events in their order (R131). -/
def Engine.broadcastAll {c : Config} (e : Engine c) (evs : List (Event c.xlen)) : Engine c :=
  evs.foldl Engine.broadcast e

/-- `release`: the slot becomes idle and the completion is counted (R132). -/
def Engine.release {c : Config} (e : Engine c) (ev : Event c.xlen) : Engine c :=
  let freed := e.setSlot ev.tag.pool ev.tag.slot none
  { freed with completed := freed.completed + 1 }

/-- Sub-step (4) (R132). -/
def Engine.releaseAll {c : Config} (e : Engine c) (evs : List (Event c.xlen)) : Engine c :=
  evs.foldl Engine.release e

/-- Sub-step (6): no slot is fresh any more (R134). -/
def Engine.clearFresh {c : Config} (e : Engine c) : Engine c :=
  { e with pools := e.pools.mapBusy fun s => { s with fresh := false } }

/-! ### The cycle around its dispatch -/

/-- Sub-steps (2) to (6). The first fault ends the cycle; a dispatch that itself raised one is followed by nothing
(R110, R135; 60_exceptions R240, R242). -/
def Engine.finishCycle {c : Config} (e : Engine c) : Engine c :=
  if e.status ≠ .running then e
  else
    match e.stepPools poolOrder with
    | .error (f, info) => e.raise f info
    | .ok (stepped, evs) =>
      let released := (stepped.broadcastAll evs).releaseAll evs
      match released.redirectAll evs with
      | .error (f, info) => released.raise f info
      | .ok redirected => redirected.clearFresh

/-- The termination condition: no pending instruction and no busy slot (R111). -/
def Engine.drained {c : Config} (e : Engine c) : Bool := e.stream.isEmpty && !e.anyBusy

/-- The maximum-cycle guard: `MAX_CYCLES = some M` and `cycle >= M` (R112). -/
def Engine.guardTrips {c : Config} (e : Engine c) : Bool :=
  match c.maxCycles with
  | none => false
  | some m => decide (m ≤ e.cycle)

/-- Sub-step (0) (R112). -/
def Engine.beginCycle {c : Config} (e : Engine c) : Engine c := { e with cycle := e.cycle + 1 }

end Sys2Proof.Machine
end

