-- ==== Sys2Proof/Machine/Cycle.lean ====
section
/-! DEFINITION. Fetch, one engine cycle (40_engine_cycle R135), one clock edge (10_state R41, 70_reset_and_hazards R260), and
placing a record where the next cycle fetches. -/

namespace Sys2Proof.Machine

/-- What the program port answers for the head of the pending stream (10_state R29, R41). -/
inductive Fetched where
  /-- The stream is empty: dispatch does nothing. -/
  | nothing
  /-- The record of the head. -/
  | record (w : Record)
  /-- The head names no record. -/
  | outside (index : Nat)
deriving DecidableEq, Repr

/-- Read `prog[head(stream)]` (40_engine_cycle R115). -/
def State.fetch (s : State) : Fetched :=
  match s.eng.stream with
  | [] => .nothing
  | i :: _ =>
    match s.prog[i]? with
    | some w => .record w
    | none => .outside i

/-- Sub-step (1) for the record at the head: the instruction it decodes to, or a rejection where it decodes to none
(40_engine_cycle R115, 30_encoding R88). -/
def dispatchRecord (w : Record) (s : State) : Host.Outcome State Fault Refusal :=
  match decodeRecord w with
  | some i => exec i s
  | none => .next { s with eng := s.eng.rejectHead .malformedOperand }

/-- Sub-steps (2) to (6) after a dispatch that answered. -/
def finishOutcome (o : Host.Outcome State Fault Refusal) : Host.Outcome State Fault Refusal :=
  match o with
  | .next s => .next { s with eng := s.eng.finishCycle }
  | .fault f => .fault f
  | .refused r => .refused r

/-- One engine cycle of a running engine (40_engine_cycle R110, R111, R112, R135). -/
def engineCycle (s : State) : Host.Outcome State Fault Refusal :=
  if s.eng.drained then .next { s with eng := { s.eng with status := .halted } }
  else if s.eng.guardTrips then .next { s with eng := s.eng.raise .cycleLimit 0 }
  else
    let begun : State := { s with eng := s.eng.beginCycle }
    match begun.fetch with
    | .nothing => finishOutcome (.next begun)
    | .record w => finishOutcome (dispatchRecord w begun)
    | .outside i => .fault (.programReadOutside i)

/-- One rising edge of `clk`: the reset action while the reset input is 1, whatever the status; no change in Halted or Faulted;
else one engine cycle (10_state R41, 40_engine_cycle R135, 70_reset_and_hazards R260, R261). -/
def clockEdge (s : State) : Host.Outcome State Fault Refusal :=
  if s.resetPin then .next s.applyReset
  else if s.eng.status ≠ .running then .next s
  else engineCycle s

/-- The engine able to dispatch at the next edge: Running, no fault, and the cycle-limit guard not tripped. -/
def Engine.runnable {c : Config} (e : Engine c) : Engine c :=
  let r := { e with status := Status.running, fault := none }
  if e.guardTrips then { r with cycle := 0 } else r

/-- Place a record where the next edge fetches: in place of the head's record where the stream has a head that names one, else
as a program of one record loaded with the stream at its start (log entry 10). -/
def State.placeRecord (s : State) (w : Record) : State :=
  let e := s.eng.runnable
  match e.stream with
  | i :: _ =>
    if i < s.prog.length then { s with prog := s.prog.set i w, resetPin := false, eng := e }
    else { s with prog := [w], resetPin := false, eng := { e with stream := [0], progLen := 1 } }
  | [] => { s with prog := [w], resetPin := false, eng := { e with stream := [0], progLen := 1 } }

end Sys2Proof.Machine
end

