-- ==== Sys2Proof/Machine/Step.lean ====
section
/-! DEFINITION. One step of the machine: one rising edge of its clock. -/

namespace Sys2Proof.Machine

/-- One clock edge (Machine/Cycle.lean). -/
def step (s : State) : Host.Outcome State Fault Refusal := clockEdge s

/-- `s` with the instruction of a word of spec/opcode_table.json stored where `step` fetches its next one. -/
def State.withFetchWord (s : State) (nbits w : Nat) : State := s.placeRecord (tableRecord nbits w)

end Sys2Proof.Machine
end

