-- ==== Sys2Proof/Machine/Status.lean ====
section
/-! DEFINITION. What the host reads: the status block (10_state R36), the per-cycle observation (10_state R42), the results of a
run (70_reset_and_hazards R265) and the completion percentage it computes (R266). -/

namespace Sys2Proof.Machine

/-- The 4-bit code of a rejection (60_exceptions R230). -/
def errCodeNumber : ErrCode → BitVec 4
  | .malformedOperand => 1
  | .registerOutOfRange => 2

/-- The 4-bit code of a fault (60_exceptions R230). -/
def faultCodeNumber : FaultCode → BitVec 4
  | .memoryAddressOutOfRange => 8
  | .branchTargetOutOfRange => 9
  | .cycleLimit => 10
  | .allocationOverflow => 11

/-- STATUS.STATE (10_state R36). -/
def statusNumber : Status → BitVec 2
  | .running => 0
  | .halted => 1
  | .faulted => 2

/-- STATUS.FAULT: the fault code while Faulted, else 0 (10_state R36). -/
def Engine.faultField {c : Config} (e : Engine c) : BitVec 4 :=
  match e.status, e.fault with
  | .faulted, some (f, _) => faultCodeNumber f
  | _, _ => 0

/-- STATUS: STATE in bits 1 to 0, FAULT in 7 to 4, STREAM_EMPTY in 8, ANY_BUSY in 9, 0 elsewhere (10_state R36). -/
def Engine.statusRegister {c : Config} (e : Engine c) : BitVec 32 :=
  (0 : BitVec 22) ++ (BitVec.ofBool e.anyBusy ++ (BitVec.ofBool e.stream.isEmpty ++
    (e.faultField ++ ((0 : BitVec 2) ++ statusNumber e.status))))

/-- A counter as its register shows it: modulo `2^CNT_W`, zero-extended (10_state R36). -/
def counterRegister (c : Config) (n : Nat) : BitVec 32 := BitVec.ofNat 32 (n % 2 ^ c.cntW)

/-- ERRFLAGS: MALFORMED in bit 0, RANGE in bit 1 (10_state R36). -/
def Engine.errflagsRegister {c : Config} (e : Engine c) : BitVec 32 :=
  (0 : BitVec 30) ++ (BitVec.ofBool e.errflags.range ++ BitVec.ofBool e.errflags.malformed)

/-- LASTERR: the code in bits 3 to 0, the program index's low 16 bits in 31 to 16 (10_state R36). -/
def Engine.lasterrRegister {c : Config} (e : Engine c) : BitVec 32 :=
  match e.lasterr with
  | none => 0
  | some (code, i) => BitVec.ofNat 16 i ++ ((0 : BitVec 12) ++ errCodeNumber code)

/-- FAULTINFO: the program index of the faulting instruction, 0 for CycleLimit and when there is no fault (10_state R36). -/
def Engine.faultInfoRegister {c : Config} (e : Engine c) : BitVec 32 :=
  match e.fault with
  | none => 0
  | some (_, i) => BitVec.ofNat 32 i

/-- The status port: the register a 4-bit index selects; 0x8 to 0xF are reserved and read 0 (10_state R36). -/
def Engine.statusBlock {c : Config} (e : Engine c) (idx : BitVec 4) : BitVec 32 :=
  match idx.toNat with
  | 0 => e.statusRegister
  | 1 => counterRegister c e.cycle
  | 2 => counterRegister c e.completed
  | 3 => counterRegister c e.dropped
  | 4 => e.errflagsRegister
  | 5 => e.lasterrRegister
  | 6 => e.faultInfoRegister
  | 7 => BitVec.ofNat 32 e.progLen
  | _ => 0

/-- The status port of the machine. The host only reads it; it has no write (10_state R36). -/
def State.statusBlock (s : State) (idx : BitVec 4) : BitVec 32 := s.eng.statusBlock idx

/-- The per-cycle observation: registers, memory window, cycle number, and `completed` once the run has ended normally
(10_state R42). -/
structure Observation (w : Nat) where
  x : List (Word w)
  window : List (Word w)
  cycle : Nat
  completed : Option Nat
deriving DecidableEq, Repr

/-- `obs` (10_state R42). -/
def Engine.observation {c : Config} (e : Engine c) : Observation c.xlen where
  x := e.x
  window := (List.range c.memwinLen).map fun k => e.mem.read (c.memwinBase + k)
  cycle := e.cycle
  completed := if e.status = .halted then some e.completed else none

/-- `obs` of the machine. -/
def State.observation (s : State) : Observation s.cfg.xlen := s.eng.observation

/-- The results of a run that has ended normally (70_reset_and_hazards R265). -/
structure RunResults (w : Nat) where
  x : List (Word w)
  mem : Memory w
  completed : Nat
  dropped : Nat
  errflags : ErrFlags
  lasterr : Option (ErrCode × Nat)
  cycle : Nat
deriving DecidableEq, Repr

/-- The results the host can read: those of a normal end, and none while Running or after a fault (70_reset_and_hazards R265,
60_exceptions R242). -/
def Engine.results {c : Config} (e : Engine c) : Option (RunResults c.xlen) :=
  match e.status with
  | .halted =>
    some
      { x := e.x, mem := e.mem, completed := e.completed, dropped := e.dropped, errflags := e.errflags, lasterr := e.lasterr,
        cycle := e.cycle }
  | .running => none
  | .faulted => none

/-- `results` of the machine. -/
def State.results (s : State) : Option (RunResults s.cfg.xlen) := s.eng.results

/-- The Instruction Completion Percent the host computes after a normal end; none for `N = 0`, where the spec reports no value,
and none before a normal end (70_reset_and_hazards R266). -/
def State.icp (s : State) : Option Rat :=
  if s.eng.status = .halted ∧ s.eng.progLen ≠ 0 then some ((s.eng.completed : Rat) / (s.eng.progLen : Rat) * 100) else none

end Sys2Proof.Machine
end

