-- ==== Sys2Proof/Machine/Run.lean ====
section
/-! DEFINITION. A run, from the release of reset up to the first state that is not Running, and its two ends
(70_reset_and_hazards R265). -/

namespace Sys2Proof.Machine

/-- How a run stands after some clock edges (R265). -/
inductive RunEnd where
  /-- It has ended normally, in a Halted state; the results are `State.results` of it. -/
  | normal (t : State)
  /-- It has entered the Faulted state and has no results. -/
  | faulted (t : State)
  /-- It has no end yet: a state of it is still Running after those edges. -/
  | unfinished (t : State)
  /-- The model's step stopped by name, which no run does (log entry 11). -/
  | stopped
deriving DecidableEq, Repr

/-- The run from a state, over at most `n` clock edges: it stops at the first state whose status is not Running (R265). -/
def State.runEnd (n : Nat) (s : State) : RunEnd :=
  match s.eng.status with
  | .halted => .normal s
  | .faulted => .faulted s
  | .running =>
    match n with
    | 0 => .unfinished s
    | k + 1 =>
      match step s with
      | .next t => State.runEnd k t
      | .fault _ => .stopped
      | .refused _ => .stopped

end Sys2Proof.Machine
end

