-- ==== Sys2Proof/Machine/Transcribe.lean ====
section
/-! DEFINITION. The text form of a program and its transcription to records (30_encoding R80 to R85, R91, R94). The engine never
sees text: the external instruction source does this before a launch (00_scope R5). -/

namespace Sys2Proof.Machine

/-- The words of a line, split at white space (R81). `acc` holds the current word, last character first. -/
def tokensFrom (acc : List Char) (line : List Char) : List (List Char) :=
  match line with
  | [] => if acc.isEmpty then [] else [acc.reverse]
  | ch :: rest =>
    if ch.isWhitespace then
      if acc.isEmpty then tokensFrom [] rest else acc.reverse :: tokensFrom [] rest
    else tokensFrom (ch :: acc) rest

/-- A token without its leading and trailing commas (R81). -/
def stripCommas (token : List Char) : List Char :=
  ((token.dropWhile (· == ',')).reverse.dropWhile (· == ',')).reverse

/-- A decimal digit's value. -/
def digitValue (ch : Char) : Option Nat := if ch.isDigit then some (ch.toNat - '0'.toNat) else none

/-- The value of the remaining digits after `acc`; `none` at the first character that is no digit. -/
def digitsFrom (acc : Nat) (cs : List Char) : Option Nat :=
  match cs with
  | [] => some acc
  | ch :: rest =>
    match digitValue ch with
    | none => none
    | some d => digitsFrom (acc * 10 + d) rest

/-- One or more decimal digits. -/
def parseNat (cs : List Char) : Option Nat := if cs.isEmpty then none else digitsFrom 0 cs

/-- `<signed-int>`: an optional sign and decimal digits (R83), in the range of the 16-bit field (R83, R84). -/
def parseSigned (cs : List Char) : Option Int :=
  let value : Option Int :=
    match cs with
    | '+' :: rest => (parseNat rest).map Int.ofNat
    | '-' :: rest => (parseNat rest).map fun n => - Int.ofNat n
    | _ => (parseNat cs).map Int.ofNat
  value.filter fun v => decide (-32768 ≤ v ∧ v ≤ 32767)

/-- A register token: `R` and decimal digits, leading zeros allowed (R82). -/
def parseReg (cs : List Char) : Option Nat :=
  match cs with
  | 'R' :: digits => parseNat digits
  | _ => none

/-- A memory operand `<signed-int>(R<digit>)`, the base a single digit (R83): the displacement and the base. -/
def parseMem (cs : List Char) : Option (Int × Nat) :=
  match cs.reverse with
  | ')' :: digit :: 'R' :: '(' :: disp =>
    match digitValue digit, parseSigned disp.reverse with
    | some b, some v => some (v, b)
    | _, _ => none
  | _ => none

/-- A line whose tokens all have the right shape; register numbers not yet checked (R85). -/
inductive TextLine where
  | rrr (op : Opcode) (d s t : Nat)
  | mem (op : Opcode) (r b : Nat) (imm : Int)
  | branch (s t : Nat) (imm : Int)
deriving DecidableEq, Repr

/-- Three register operands (R85). -/
def parseRRR (op : Opcode) (args : List (List Char)) : Option TextLine :=
  match args.map parseReg with
  | [some d, some s, some t] => some (.rrr op d s t)
  | _ => none

/-- A register and a memory operand (R85). -/
def parseRM (op : Opcode) (args : List (List Char)) : Option TextLine :=
  match args with
  | [r, m] =>
    match parseReg r, parseMem m with
    | some r', some (imm, b) => some (.mem op r' b imm)
    | _, _ => none
  | _ => none

/-- Two registers and an offset (R85). -/
def parseRRI (args : List (List Char)) : Option TextLine :=
  match args with
  | [s, t, m] =>
    match parseReg s, parseReg t, parseSigned m with
    | some s', some t', some imm => some (.branch s' t' imm)
    | _, _, _ => none
  | _ => none

/-- The operand form of an opcode token, which is upper case exactly; any other token makes the line malformed (R81, R85). -/
def parseTokens (op : List Char) (args : List (List Char)) : Option TextLine :=
  if op = ['A', 'D', 'D'] then parseRRR .add args
  else if op = ['S', 'U', 'B'] then parseRRR .sub args
  else if op = ['N', 'A', 'N', 'D'] then parseRRR .nand args
  else if op = ['L', 'O', 'A', 'D'] then parseRM .load args
  else if op = ['S', 'T', 'O', 'R', 'E'] then parseRM .store args
  else if op = ['B', 'E', 'Q'] then parseRRI args
  else none

/-- The register numbers a line names. -/
def TextLine.regs : TextLine → List Nat
  | .rrr _ d s t => [d, s, t]
  | .mem _ r b _ => [r, b]
  | .branch s t _ => [s, t]

/-- The record fields of a line (R85): register numbers as 4-bit fields, the integer as the 16-bit field. -/
def TextLine.instr : TextLine → Instr
  | .rrr .sub d s t => .sub (BitVec.ofNat 4 d) (BitVec.ofNat 4 s) (BitVec.ofNat 4 t)
  | .rrr .nand d s t => .nand (BitVec.ofNat 4 d) (BitVec.ofNat 4 s) (BitVec.ofNat 4 t)
  | .rrr _ d s t => .add (BitVec.ofNat 4 d) (BitVec.ofNat 4 s) (BitVec.ofNat 4 t)
  | .mem .store r b imm => .store (BitVec.ofNat 4 r) (BitVec.ofNat 4 b) (BitVec.ofInt 16 imm)
  | .mem _ r b imm => .load (BitVec.ofNat 4 r) (BitVec.ofNat 4 b) (BitVec.ofInt 16 imm)
  | .branch s t imm => .beq (BitVec.ofNat 4 s) (BitVec.ofNat 4 t) (BitVec.ofInt 16 imm)

/-- The record the transcriber writes for a malformed line (R91). -/
def malformedWord : Record := 0xE0000000

/-- The record the transcriber writes for an out-of-range line (R91). -/
def rangeWord : Record := 0xC0000000

/-- The one record of a line whose tokens are an opcode and comma-stripped operands; malformed is reported before out of range
(R80, R81, R85). -/
def transcribeTokens (nreg : Nat) (op : List Char) (args : List (List Char)) : Record :=
  match parseTokens op (args.map stripCommas) with
  | none => malformedWord
  | some line => if line.regs.all fun r => decide (r < nreg) then encode line.instr else rangeWord

/-- A line's record; none for a line of only white space, which takes no index (R81). -/
def transcribeLine (nreg : Nat) (line : List Char) : Option Record :=
  match tokensFrom [] line with
  | [] => none
  | op :: args => some (transcribeTokens nreg op args)

/-- The program of a file given as its lines, in index order (R81). -/
def transcribe (nreg : Nat) (lines : List (List Char)) : List Record := lines.filterMap (transcribeLine nreg)

end Sys2Proof.Machine
end

