-- ==== Sys2Proof/Machine/Widths.lean ====
section
/-! DEFINITION. The hardware widths and bit encodings that follow from the parameters (00_scope R8, 10_state R25 to R27,
30_encoding R87, R95). No step reads them. -/

namespace Sys2Proof.Machine

/-- `ceil(log2(n))`: the least `k` with `n <= 2^k`. -/
def ceilLog2 (n : Nat) : Nat := ((List.range (n + 1)).find? fun k => decide (n ≤ 2 ^ k)).getD 0

/-- The largest pool capacity. -/
def maxCap (c : Config) : Nat := max c.capAdd (max c.capNand (max c.capLoad (max c.capStore c.capBeq)))

/-- The largest latency. -/
def maxLat (c : Config) : Nat :=
  max c.latAdd (max c.latSub (max c.latNand (max c.latLoad (max c.latStore c.latBeq))))

/-- `SLOT_W` (00_scope R8). -/
def slotWidth (c : Config) : Nat := max 1 (ceilLog2 (maxCap c))

/-- `TAG_W = 3 + SLOT_W` (00_scope R8). -/
def tagWidth (c : Config) : Nat := 3 + slotWidth c

/-- The width of an operand field (10_state R26). -/
def operandWidth (c : Config) : Nat := 1 + max c.xlen (tagWidth c)

/-- The width of a destination field (10_state R26). -/
def destWidth : Nat := 1 + 4

/-- The width of a slot's target (10_state R26). -/
def targetWidth (c : Config) : Nat := max c.pidxW 16 + 2

/-- The width of a slot's countdown (10_state R26). -/
def countdownWidth (c : Config) : Nat := ceilLog2 (maxLat c + 1)

/-- The width of a memory address on the memory ports (10_state R41). -/
def memAddressWidth (c : Config) : Nat := ceilLog2 c.memWords

/-- The 3-bit pool id; 5, 6 and 7 are never used (10_state R25). -/
def poolBits : PoolId → BitVec 3
  | .add => 0
  | .nand => 1
  | .load => 2
  | .store => 3
  | .beq => 4

/-- The 3-bit encoding of a slot's operation (10_state R26, 30_encoding R87). -/
def opcodeBits : Opcode → BitVec 3
  | .add => 0
  | .sub => 1
  | .nand => 2
  | .load => 3
  | .store => 4
  | .beq => 5

/-- A tag in hardware: pool id above slot index (30_encoding R95). -/
def Tag.bits (c : Config) (t : Tag) : BitVec (tagWidth c) := poolBits t.pool ++ BitVec.ofNat (slotWidth c) t.slot

/-- The `wait` bit of an operand field (30_encoding R95). -/
def Operand.waitBit {w : Nat} (o : Operand w) : BitVec 1 :=
  match o with
  | .val _ => 0
  | .wait _ => 1

/-- What follows the `wait` bit: the value or the tag. The bits a narrower of the two leaves over have no value (30_encoding
R95, log entry 17). -/
def Operand.payload {c : Config} (o : Operand c.xlen) : Sum (Word c.xlen) (BitVec (tagWidth c)) :=
  match o with
  | .val v => .inl v
  | .wait t => .inr (t.bits c)

/-- The valid bit of a register status entry, and its tag where it is valid (30_encoding R95). -/
def statusEntryBits (c : Config) (entry : Option Tag) : BitVec 1 × Option (BitVec (tagWidth c)) :=
  match entry with
  | none => (0, none)
  | some t => (1, some (t.bits c))

end Sys2Proof.Machine
end

