-- ==== Sys2Proof/Safety.lean ====
section
/-! DEFINITION. What counts as a sound state, in the terms the statements use: the shape of the state, the canonical memory, the
pending stream as a run of the program (10_state R30), and the agreement of tags, slots and register status (10_state R24, R44;
40_engine_cycle R136, R137). -/

namespace Sys2Proof

/-- The operation of an instruction; the markers have none. -/
def Instr.opcode : Instr → Option Opcode
  | .add _ _ _ => some .add
  | .sub _ _ _ => some .sub
  | .nand _ _ _ => some .nand
  | .load _ _ _ => some .load
  | .store _ _ _ => some .store
  | .beq _ _ _ => some .beq
  | .rangeMarker _ => none
  | .malformedMarker _ => none

/-- The destination register of an instruction (40_engine_cycle R122). -/
def Instr.destReg : Instr → Option Nat
  | .add ra _ _ => some ra.toNat
  | .sub ra _ _ => some ra.toNat
  | .nand ra _ _ => some ra.toNat
  | .load ra _ _ => some ra.toNat
  | .store _ _ _ => none
  | .beq _ _ _ => none
  | .rangeMarker _ => none
  | .malformedMarker _ => none

/-- ADD, SUB, NAND and LOAD have a register result (10_state R22). -/
def Opcode.writesRegister : Opcode → Bool
  | .add => true
  | .sub => true
  | .nand => true
  | .load => true
  | .store => false
  | .beq => false

namespace Machine

/-- The register file, the register status table and the pools have the sizes of the configuration. -/
structure Engine.Sized {c : Config} (e : Engine c) : Prop where
  regs : e.x.length = c.nreg
  status : e.rst.length = c.nreg
  pools : ∀ p, (e.pools.get p).length = capOf c p

/-- Every cell of memory has an address below MEM_WORDS (20_memory R60). -/
def Memory.Within {w : Nat} (m : Memory w) (n : Nat) : Prop := ∀ cell ∈ m, cell.1 < n

/-- The memory is canonical and inside the address space. -/
structure Engine.MemoryOk {c : Config} (e : Engine c) : Prop where
  canonical : e.mem.wf = true
  within : Memory.Within e.mem c.memWords

/-- `N` is the program's length, and unless the engine has faulted the stream is `range(s, N)` for some `s` (10_state R30). -/
structure State.StreamOk (s : State) : Prop where
  sampled : s.eng.progLen = s.prog.length
  suffix : s.eng.status ≠ .faulted → ∃ k, s.eng.stream = streamFrom k s.eng.progLen

/-- Slot `k` of pool `p` is idle and every slot below it is busy (40_engine_cycle R119). -/
def Engine.LowestIdle {c : Config} (e : Engine c) (p : PoolId) (k : Nat) : Prop :=
  (e.pools.get p)[k]? = some none ∧ ∀ j < k, ∃ s, (e.pools.get p)[j]? = some (some s)

/-- Every slot of pool `p` is busy. -/
def Engine.Full {c : Config} (e : Engine c) (p : PoolId) : Prop := ∀ o ∈ e.pools.get p, o ≠ none

/-- Tags, slots and register status agree, as they do between cycles. -/
structure Engine.Coherent {c : Config} (e : Engine c) : Prop where
  /-- An operation is only in a pool that executes it (40_engine_cycle R116). -/
  slotPool : ∀ p k s, e.slot p k = some s → poolOf s.op = p
  /-- A slot has a destination exactly when its operation writes a register (R122). -/
  slotDest : ∀ p k s, e.slot p k = some s → s.dest.isSome = s.op.writesRegister
  /-- A destination is a register of the machine (30_encoding R90). -/
  destBound : ∀ p k s d, e.slot p k = some s → s.dest = some d → d < c.nreg
  /-- Sequence numbers come from the counter (10_state R31). -/
  seqBound : ∀ p k s, e.slot p k = some s → s.seq < e.seqNext
  /-- Two busy slots never share a sequence number (10_state R31). -/
  seqUnique : ∀ p k s p' k' s', e.slot p k = some s → e.slot p' k' = some s' → s.seq = s'.seq → p = p' ∧ k = k'
  /-- A waiting operand names an older busy slot with a destination (40_engine_cycle R136, R137). -/
  waitLive : ∀ p k s t, e.slot p k = some s → (s.oj = .wait t ∨ s.ok = .wait t) →
    ∃ s', e.slot t.pool t.slot = some s' ∧ s'.dest.isSome = true ∧ s'.seq < s.seq
  /-- A pending register names the most recently dispatched busy slot with that destination (10_state R24). -/
  pendingLive : ∀ r t, e.currentTag r = some t → ∃ s, e.slot t.pool t.slot = some s ∧ s.dest = some r ∧
    ∀ p k s', e.slot p k = some s' → s'.dest = some r → s'.seq ≤ s.seq
  /-- No slot is fresh between cycles, and a countdown never exceeds its latency (40_engine_cycle R120, R125, R134). -/
  settled : ∀ p k s, e.slot p k = some s → s.fresh = false ∧ s.cl ≤ latOf c s.op

/-- `fault` is recorded exactly in the Faulted state (10_state R33). -/
def Engine.FaultRecorded {c : Config} (e : Engine c) : Prop := e.fault.isSome = true ↔ e.status = .faulted

/-- In the Halted state nothing is pending and no slot is busy (40_engine_cycle R111). -/
def Engine.HaltedDrained {c : Config} (e : Engine c) : Prop := e.status = .halted → e.drained = true

/-- A sound state. The parts a fault leaves unspecified are asked of a state that has not faulted only (60_exceptions R242). -/
structure State.Inv (s : State) : Prop where
  sized : s.eng.Sized
  memory : s.eng.MemoryOk
  stream : s.StreamOk
  coherent : s.eng.status ≠ .faulted → s.eng.Coherent
  faults : s.eng.FaultRecorded
  halted : s.eng.HaltedDrained

/-- The busy slot `(p, k)` is the oldest of all busy slots (10_state R31). -/
def Engine.Oldest {c : Config} (e : Engine c) (p : PoolId) (k : Nat) (s : Slot c.xlen) : Prop :=
  e.slot p k = some s ∧ ∀ p' k' s', e.slot p' k' = some s' → s.seq ≤ s'.seq

/-- The `exactly when` of 10_state R24, read in both directions: a register is pending on a tag exactly when the tag names the
most recently dispatched busy slot with that destination. -/
def Engine.PendingExactly {c : Config} (e : Engine c) : Prop :=
  ∀ r t, e.currentTag r = some t ↔ ∃ s, e.slot t.pool t.slot = some s ∧ s.dest = some r ∧
    ∀ p k s', e.slot p k = some s' → s'.dest = some r → s'.seq ≤ s.seq

/-- A running machine that is not in reset and whose stream holds exactly the record at index `i`, with nothing in flight, every
register Ready, the sizes of a valid configuration, and `n` more cycles allowed by the guard. -/
structure State.Lone (s : State) (i n : Nat) : Prop where
  valid : s.cfg.Valid
  released : s.resetPin = false
  running : s.eng.status = .running
  sized : s.eng.Sized
  pending : s.eng.stream = [i]
  idle : s.eng.pools = idlePools s.cfg
  ready : ∀ r, s.eng.currentTag r = none
  allowed : ∀ m, s.cfg.maxCycles = some m → s.eng.cycle + n ≤ m

end Machine

end Sys2Proof
end

