-- ==== Sys2Proof/Certificates/Slice0/Obligations.lean ====
section
/-! DEFINITION. The statements for the provers. A statement about one cycle's engine is written as "there is an engine `e'` with
`step s = .next { s with eng := e' }`", because the widths of the words are data of the state. -/

open Sys2Proof Sys2Proof.Machine

/-! ### Encoding -/

/-- Decoding the word of an instruction gives the instruction back, every field at every value (30_encoding, sections 3 and 5). -/
def Obligations.DecodeOfEncode : Prop := ∀ i : Instr, decodeRecord (encode i) = some i

/-- A word that decodes is the word of the instruction it decodes to: no bit is dropped (30_encoding, sections 3 and 5). -/
def Obligations.EncodeOfDecode : Prop := ∀ (w : Record) (i : Instr), decodeRecord w = some i → encode i = w

/-- R96: the decoder answers for every word, in the order of the pseudocode: the markers, then the must-be-zero fields, then the
register ranges. -/
def Obligations.DecoderClassifiesEveryWord : Prop :=
  ∀ (nreg : Nat) (w : Record),
    let op : BitVec 3 := w.extractLsb' 29 3
    let ra : BitVec 4 := w.extractLsb' 25 4
    let rb : BitVec 4 := w.extractLsb' 21 4
    let rc : BitVec 4 := w.extractLsb' 17 4
    let z : BitVec 1 := w.extractLsb' 16 1
    let imm : BitVec 16 := w.extractLsb' 0 16
    decode nreg w =
      if op = 7 then .reject .malformedOperand
      else if op = 6 then .reject .registerOutOfRange
      else if op = 0 ∨ op = 1 ∨ op = 2 then
        if z ≠ 0 ∨ imm ≠ 0 then .reject .malformedOperand
        else if nreg ≤ ra.toNat ∨ nreg ≤ rb.toNat ∨ nreg ≤ rc.toNat then .reject .registerOutOfRange
        else if op = 0 then .inst (.add ra rb rc)
        else if op = 1 then .inst (.sub ra rb rc)
        else .inst (.nand ra rb rc)
      else if rc ≠ 0 ∨ z ≠ 0 then .reject .malformedOperand
      else if nreg ≤ ra.toNat ∨ nreg ≤ rb.toNat then .reject .registerOutOfRange
      else if op = 3 then .inst (.load ra rb imm)
      else if op = 4 then .inst (.store ra rb imm)
      else .inst (.beq ra rb imm)

/-- Words written out from the encoding, one for each instruction and marker, decode to the instruction they stand for (30_encoding,
section 5; 95_test_vectors, section 2.1). -/
def Obligations.WrittenOutWordsDecode : Prop :=
  decodeRecord 0x02460000 = some (.add 1 2 3) ∧ decodeRecord 0x28240000 = some (.sub 4 1 2) ∧
  decodeRecord 0x4A860000 = some (.nand 5 4 3) ∧ decodeRecord 0x6200FFFF = some (.load 1 0 0xFFFF) ∧
  decodeRecord 0x82400000 = some (.store 1 2 0) ∧ decodeRecord 0xA000FFF4 = some (.beq 0 0 0xFFF4) ∧
  decodeRecord 0xC0000000 = some (.rangeMarker 0) ∧ decodeRecord 0xE0000000 = some (.malformedMarker 0) ∧
  decodeRecord 0x60020000 = none ∧ decodeRecord 0x00010000 = none

/-- The transcriber writes, for every line that is not blank, a valid instruction's record or one of the two marker records
(30_encoding, section 2). -/
def Obligations.TranscriptionIsDispatchable : Prop :=
  ∀ (nreg : Nat) (line : List Char) (w : Record), nreg ≤ 16 → transcribeLine nreg line = some w →
    w = 0xE0000000 ∨ w = 0xC0000000 ∨ ∃ i, decode nreg w = .inst i

/-- Two tags of slots that exist have different bits (30_encoding, section 4). -/
def Obligations.TagBitsAreUnique : Prop :=
  ∀ (c : Config) (t t' : Tag), t.slot < capOf c t.pool → t'.slot < capOf c t'.pool → t.bits c = t'.bits c → t = t'

/-! ### Dispatch, instruction by instruction -/

/-- ADD at the head, with its registers in range and an idle slot, is popped and placed in the lowest idle slot of the ADD pool with
its two sources resolved, its destination renamed and the countdown at LAT_ADD; nothing else changes. -/
def Obligations.AddDispatchAllocates : Prop :=
  ∀ (s : State) (ra rb rc : RegField) (i : Nat) (rest : List Nat) (k : Nat),
    s.eng.stream = i :: rest → ra.toNat < s.cfg.nreg → rb.toNat < s.cfg.nreg → rc.toNat < s.cfg.nreg →
    s.eng.LowestIdle .add k →
    exec (.add ra rb rc) s = .next { s with eng := { s.eng with
      stream := rest
      seqNext := s.eng.seqNext + 1
      rst := s.eng.rst.set ra.toNat (some { pool := .add, slot := k })
      pools := { s.eng.pools with add := s.eng.pools.add.set k (some
        { op := .add, pidx := i, oj := s.eng.resolve rb, ok := s.eng.resolve rc, dest := some ra.toNat, a := 0, target := 0,
          cl := s.cfg.latAdd, fresh := true, seq := s.eng.seqNext }) } } }

/-- SUB as ADD, in the same pool, with LAT_SUB. -/
def Obligations.SubDispatchAllocates : Prop :=
  ∀ (s : State) (ra rb rc : RegField) (i : Nat) (rest : List Nat) (k : Nat),
    s.eng.stream = i :: rest → ra.toNat < s.cfg.nreg → rb.toNat < s.cfg.nreg → rc.toNat < s.cfg.nreg →
    s.eng.LowestIdle .add k →
    exec (.sub ra rb rc) s = .next { s with eng := { s.eng with
      stream := rest
      seqNext := s.eng.seqNext + 1
      rst := s.eng.rst.set ra.toNat (some { pool := .add, slot := k })
      pools := { s.eng.pools with add := s.eng.pools.add.set k (some
        { op := .sub, pidx := i, oj := s.eng.resolve rb, ok := s.eng.resolve rc, dest := some ra.toNat, a := 0, target := 0,
          cl := s.cfg.latSub, fresh := true, seq := s.eng.seqNext }) } } }

/-- NAND as ADD, in its own pool, with LAT_NAND. -/
def Obligations.NandDispatchAllocates : Prop :=
  ∀ (s : State) (ra rb rc : RegField) (i : Nat) (rest : List Nat) (k : Nat),
    s.eng.stream = i :: rest → ra.toNat < s.cfg.nreg → rb.toNat < s.cfg.nreg → rc.toNat < s.cfg.nreg →
    s.eng.LowestIdle .nand k →
    exec (.nand ra rb rc) s = .next { s with eng := { s.eng with
      stream := rest
      seqNext := s.eng.seqNext + 1
      rst := s.eng.rst.set ra.toNat (some { pool := .nand, slot := k })
      pools := { s.eng.pools with nand := s.eng.pools.nand.set k (some
        { op := .nand, pidx := i, oj := s.eng.resolve rb, ok := s.eng.resolve rc, dest := some ra.toNat, a := 0, target := 0,
          cl := s.cfg.latNand, fresh := true, seq := s.eng.seqNext }) } } }

/-- LOAD resolves its base in the first operand, leaves the second at 0, keeps the signed displacement, and renames its
destination. -/
def Obligations.LoadDispatchAllocates : Prop :=
  ∀ (s : State) (ra rb : RegField) (imm : Imm) (i : Nat) (rest : List Nat) (k : Nat),
    s.eng.stream = i :: rest → ra.toNat < s.cfg.nreg → rb.toNat < s.cfg.nreg → s.eng.LowestIdle .load k →
    exec (.load ra rb imm) s = .next { s with eng := { s.eng with
      stream := rest
      seqNext := s.eng.seqNext + 1
      rst := s.eng.rst.set ra.toNat (some { pool := .load, slot := k })
      pools := { s.eng.pools with load := s.eng.pools.load.set k (some
        { op := .load, pidx := i, oj := s.eng.resolve rb, ok := .val 0, dest := some ra.toNat, a := imm.toInt, target := 0,
          cl := s.cfg.latLoad, fresh := true, seq := s.eng.seqNext }) } } }

/-- STORE resolves its value in the first operand and its base in the second, and renames nothing. -/
def Obligations.StoreDispatchAllocates : Prop :=
  ∀ (s : State) (ra rb : RegField) (imm : Imm) (i : Nat) (rest : List Nat) (k : Nat),
    s.eng.stream = i :: rest → ra.toNat < s.cfg.nreg → rb.toNat < s.cfg.nreg → s.eng.LowestIdle .store k →
    exec (.store ra rb imm) s = .next { s with eng := { s.eng with
      stream := rest
      seqNext := s.eng.seqNext + 1
      pools := { s.eng.pools with store := s.eng.pools.store.set k (some
        { op := .store, pidx := i, oj := s.eng.resolve ra, ok := s.eng.resolve rb, dest := none, a := imm.toInt, target := 0,
          cl := s.cfg.latStore, fresh := true, seq := s.eng.seqNext }) } } }

/-- BEQ resolves its two sources, holds its target, and renames nothing. -/
def Obligations.BeqDispatchAllocates : Prop :=
  ∀ (s : State) (ra rb : RegField) (imm : Imm) (i : Nat) (rest : List Nat) (k : Nat),
    s.eng.stream = i :: rest → ra.toNat < s.cfg.nreg → rb.toNat < s.cfg.nreg → s.eng.LowestIdle .beq k →
    exec (.beq ra rb imm) s = .next { s with eng := { s.eng with
      stream := rest
      seqNext := s.eng.seqNext + 1
      pools := { s.eng.pools with beq := s.eng.pools.beq.set k (some
        { op := .beq, pidx := i, oj := s.eng.resolve ra, ok := s.eng.resolve rb, dest := none, a := 0,
          target := (i : Int) + 1 + Int.fdiv imm.toInt (s.cfg.iw : Int),
          cl := s.cfg.latBeq, fresh := true, seq := s.eng.seqNext }) } } }

/-- A marker at the head is dropped, counted and recorded, whatever its ignored bits hold and however full the pools are. -/
def Obligations.MarkersAreRejected : Prop :=
  ∀ (s : State) (bits : BitVec 29) (i : Nat) (rest : List Nat), s.eng.stream = i :: rest →
    exec (.rangeMarker bits) s = .next { s with eng := { s.eng with
      stream := rest
      dropped := s.eng.dropped + 1
      errflags := { s.eng.errflags with range := true }
      lasterr := some (.registerOutOfRange, i) } } ∧
    exec (.malformedMarker bits) s = .next { s with eng := { s.eng with
      stream := rest
      dropped := s.eng.dropped + 1
      errflags := { s.eng.errflags with malformed := true }
      lasterr := some (.malformedOperand, i) } }

/-- R117: a record the decoder rejects is dropped whatever the pools hold: the head is popped, `dropped` counts it, the sticky flag
of its code is set, `lasterr` names it, and nothing else changes. -/
def Obligations.RejectionDropsTheHead : Prop :=
  ∀ (s : State) (w : Record) (code : ErrCode) (i : Nat) (rest : List Nat),
    s.eng.stream = i :: rest → decode s.cfg.nreg w = .reject code →
    dispatchRecord w s = .next { s with eng := { s.eng with
      stream := rest
      dropped := s.eng.dropped + 1
      errflags :=
        { malformed := s.eng.errflags.malformed || decide (code = .malformedOperand)
          range := s.eng.errflags.range || decide (code = .registerOutOfRange) }
      lasterr := some (code, i) } }

/-- R118: when the head is valid and its pool has no idle slot, dispatch leaves all state unchanged. -/
def Obligations.StructuralStallChangesNothing : Prop :=
  ∀ (s : State) (i : Instr) (op : Opcode),
    i.opcode = some op → i.wellFormed s.cfg.nreg = true → s.eng.Full (poolOf op) → exec i s = .next s

/-- The frame of every instruction's dispatch. No register, memory word, counter of cycles or completions, status, fault or sampled
length changes; at most the destination's status entry does; at most an idle slot of the instruction's own pool does; the error
records change only where the instruction is a marker or names a register out of range. -/
def Obligations.DispatchFrame : Prop :=
  ∀ (i : Instr) (s t : State), exec i s = .next t →
    ∃ e' : Engine s.cfg, t = { s with eng := e' } ∧
      e'.x = s.eng.x ∧ (∀ a, e'.mem.read a = s.eng.mem.read a) ∧ e'.mem = s.eng.mem ∧
      e'.cycle = s.eng.cycle ∧ e'.completed = s.eng.completed ∧ e'.status = s.eng.status ∧ e'.fault = s.eng.fault ∧
      e'.progLen = s.eng.progLen ∧ e'.faults = s.eng.faults ∧
      (∀ r, e'.rst[r]? ≠ s.eng.rst[r]? → i.destReg = some r) ∧
      (∀ p k, e'.slot p k ≠ s.eng.slot p k → i.opcode.map poolOf = some p ∧ s.eng.slot p k = none) ∧
      (i.opcode.isSome = true → i.wellFormed s.cfg.nreg = true →
        e'.dropped = s.eng.dropped ∧ e'.errflags = s.eng.errflags ∧ e'.lasterr = s.eng.lasterr)

/-- R121: a Ready register resolves to its value and a pending one to its producer's tag. -/
def Obligations.SourceResolution : Prop :=
  ∀ (c : Config) (e : Engine c) (r : RegField),
    (e.currentTag r.toNat = none → e.resolve r = .val (e.reg r.toNat)) ∧
    ∀ t, e.currentTag r.toNat = some t → e.resolve r = .wait t

/-- One clock edge runs the head of the stream, in the order of the sub-steps: the count; `exec` of the instruction the head's record
decodes to, or a rejection where it decodes to none, or nothing where the stream is empty and a slot is busy; then the step of the
pools ADD, NAND, LOAD, STORE, BEQ with their events in that order, the broadcast of each event, the release of each event, the
redirect, and the clearing of every `fresh` bit. A fault of the step or of the redirect ends the edge there. -/
def Obligations.StepRunsDecodedInstruction : Prop :=
  ∀ (s : State), s.resetPin = false → s.eng.status = .running → s.eng.guardTrips = false →
    let begun : State := { s with eng := { s.eng with cycle := s.eng.cycle + 1 } }
    let stepped (e : Engine s.cfg) : Except (FaultCode × Nat) (Engine s.cfg × List (Event s.cfg.xlen)) :=
      [PoolId.add, .nand, .load, .store, .beq].foldlM
        (fun acc p => do let r ← acc.1.stepPool p; pure (r.1, acc.2 ++ r.2)) (e, [])
    let rest (e : Engine s.cfg) : Engine s.cfg :=
      match stepped e with
      | .error (f, info) => e.raise f info
      | .ok (e', evs) =>
        let released := evs.foldl Engine.release (evs.foldl Engine.broadcast e')
        match released.redirectAll evs with
        | .error (f, info) => released.raise f info
        | .ok r => { r with pools := r.pools.mapBusy fun b => { b with fresh := false } }
    (∀ h tail w i, s.eng.stream = h :: tail → s.prog[h]? = some w → decodeRecord w = some i →
      ∃ e : Engine s.cfg, exec i begun = .next { s with eng := e } ∧ step s = .next { s with eng := rest e }) ∧
    (∀ h tail w, s.eng.stream = h :: tail → s.prog[h]? = some w → decodeRecord w = none →
      step s = .next { s with eng := rest (begun.eng.rejectHead .malformedOperand) }) ∧
    (s.eng.stream = [] → s.eng.anyBusy = true → step s = .next { s with eng := rest begun.eng })

/-! ### Completion, instruction by instruction -/

/-- ADD completes with the sum of the unsigned values modulo 2^XLEN and changes no state itself. -/
def Obligations.AddCompletesWithSum : Prop :=
  ∀ (c : Config) (e : Engine c) (t : Tag) (s : Slot c.xlen) (vj vk : Word c.xlen),
    s.op = .add → s.oj = .val vj → s.ok = .val vk →
    ∃ v : Word c.xlen, v.toNat = (vj.toNat + vk.toNat) % 2 ^ c.xlen ∧ v.toInt = (vj.toInt + vk.toInt).bmod (2 ^ c.xlen) ∧
      execute e t s =
        .ok (e, { tag := t, pidx := s.pidx, op := .add, dest := s.dest, value := some v, taken := none, target := 0 })

/-- SUB completes with the difference, first operand minus second, modulo 2^XLEN, and changes no state itself. -/
def Obligations.SubCompletesWithDifference : Prop :=
  ∀ (c : Config) (e : Engine c) (t : Tag) (s : Slot c.xlen) (vj vk : Word c.xlen),
    s.op = .sub → s.oj = .val vj → s.ok = .val vk →
    ∃ v : Word c.xlen, (v.toNat : Int) = ((vj.toNat : Int) - (vk.toNat : Int)) % 2 ^ c.xlen ∧
      v.toInt = (vj.toInt - vk.toInt).bmod (2 ^ c.xlen) ∧
      execute e t s =
        .ok (e, { tag := t, pidx := s.pidx, op := .sub, dest := s.dest, value := some v, taken := none, target := 0 })

/-- NAND completes with a word each of whose bits is 0 exactly where both operands' bits are 1, and changes no state itself. -/
def Obligations.NandCompletesWithNand : Prop :=
  ∀ (c : Config) (e : Engine c) (t : Tag) (s : Slot c.xlen) (vj vk : Word c.xlen),
    s.op = .nand → s.oj = .val vj → s.ok = .val vk →
    ∃ v : Word c.xlen, (∀ i, i < c.xlen → v.getLsbD i = !(vj.getLsbD i && vk.getLsbD i)) ∧
      execute e t s =
        .ok (e, { tag := t, pidx := s.pidx, op := .nand, dest := s.dest, value := some v, taken := none, target := 0 })

/-- LOAD completes with the word at its displacement plus the signed base, an exact sum, where that is in memory; elsewhere it
raises MemoryAddressOutOfRange with its program index. -/
def Obligations.LoadReadsItsAddress : Prop :=
  ∀ (c : Config) (e : Engine c) (t : Tag) (s : Slot c.xlen) (vj : Word c.xlen), s.op = .load → s.oj = .val vj →
    execute e t s =
      if 0 ≤ s.a + vj.toInt ∧ s.a + vj.toInt < (c.memWords : Int) then
        .ok (e, { tag := t, pidx := s.pidx, op := .load, dest := s.dest, value := some (e.mem.read (s.a + vj.toInt).toNat),
                  taken := none, target := 0 })
      else .error (.memoryAddressOutOfRange, s.pidx)

/-- STORE completes by writing its value at its displacement plus the signed base where that is in memory, leaving every other word
and everything else; elsewhere it raises MemoryAddressOutOfRange with its program index. -/
def Obligations.StoreWritesItsAddress : Prop :=
  ∀ (c : Config) (e : Engine c) (t : Tag) (s : Slot c.xlen) (vj vk : Word c.xlen),
    s.op = .store → s.oj = .val vj → s.ok = .val vk → e.mem.wf = true →
    if 0 ≤ s.a + vk.toInt ∧ s.a + vk.toInt < (c.memWords : Int) then
      ∃ m : Memory c.xlen, m.wf = true ∧
        (∀ a, m.read a = if (a : Int) = s.a + vk.toInt then vj else e.mem.read a) ∧
        execute e t s =
          .ok ({ e with mem := m },
            { tag := t, pidx := s.pidx, op := .store, dest := none, value := none, taken := none, target := 0 })
    else execute e t s = .error (.memoryAddressOutOfRange, s.pidx)

/-- BEQ completes taken exactly when its two words agree in every bit, with the target its slot holds, and changes no state
itself. -/
def Obligations.BeqComparesBitByBit : Prop :=
  ∀ (c : Config) (e : Engine c) (t : Tag) (s : Slot c.xlen) (vj vk : Word c.xlen),
    s.op = .beq → s.oj = .val vj → s.ok = .val vk →
    ∃ b : Bool, (b = true ↔ ∀ i, i < c.xlen → vj.getLsbD i = vk.getLsbD i) ∧
      execute e t s =
        .ok (e, { tag := t, pidx := s.pidx, op := .beq, dest := none, value := none, taken := some b, target := s.target })

/-! ### Step, broadcast, release, redirect -/

/-- A pool's step decrements by exactly one each of its slots that is busy, fully ready, not fresh and above 0, and no other
slot of any pool. -/
def Obligations.PoolStepDecrementsOnce : Prop :=
  ∀ (c : Config) (e e' : Engine c) (p : PoolId) (evs : List (Event c.xlen)), e.stepPool p = .ok (e', evs) →
    (∀ q k, q ≠ p → e'.slot q k = e.slot q k) ∧
    (∀ k, e.slot p k = none → e'.slot p k = none) ∧
    (∀ k s, e.slot p k = some s →
      ((∃ vj vk, s.oj = .val vj ∧ s.ok = .val vk) ∧ s.fresh = false ∧ 0 < s.cl →
        e'.slot p k = some { s with cl := s.cl - 1 }) ∧
      (¬((∃ vj vk, s.oj = .val vj ∧ s.ok = .val vk) ∧ s.fresh = false ∧ 0 < s.cl) → e'.slot p k = some s))

/-- After its decrements a pool executes its fully ready slot at 0 with the least sequence number, and no slot where it has
none. -/
def Obligations.OldestCandidateCompletes : Prop :=
  ∀ (c : Config) (e : Engine c) (p : PoolId),
    let d := e.countdown p
    ((∀ k s, d.slot p k = some s → ¬(s.ready = true ∧ s.cl = 0)) ∧ e.stepPool p = .ok (d, [])) ∨
    ∃ k s, d.slot p k = some s ∧ s.ready = true ∧ s.cl = 0 ∧
      (∀ j s', d.slot p j = some s' → s'.ready = true → s'.cl = 0 → s.seq ≤ s'.seq) ∧
      e.stepPool p = match execute d { pool := p, slot := k } s with
        | .ok (e', ev) => .ok (e', [ev])
        | .error f => .error f

/-- R129: a result is written to its register, which becomes Ready, exactly while the register still names the event's tag; else
neither the register nor its status changes; no other register or status entry ever does. -/
def Obligations.WriteBackFollowsTheTag : Prop :=
  ∀ (c : Config) (e : Engine c) (ev : Event c.xlen) (d : Nat) (v : Word c.xlen),
    ev.dest = some d → ev.value = some v → d < e.x.length →
    (e.currentTag d = some ev.tag → (e.broadcast ev).reg d = v ∧ (e.broadcast ev).currentTag d = none) ∧
    (e.currentTag d ≠ some ev.tag → (e.broadcast ev).reg d = e.reg d ∧ (e.broadcast ev).currentTag d = e.currentTag d) ∧
    ∀ r, r ≠ d → (e.broadcast ev).reg r = e.reg r ∧ (e.broadcast ev).currentTag r = e.currentTag r

/-- R130: every operand of every busy slot that waits on the event's tag takes the value, whether or not the register was written;
no other operand changes and no idle slot becomes busy. -/
def Obligations.WakeReachesEveryWaiter : Prop :=
  ∀ (c : Config) (e : Engine c) (ev : Event c.xlen) (d : Nat) (v : Word c.xlen) (p : PoolId) (k : Nat),
    ev.dest = some d → ev.value = some v →
    (e.broadcast ev).slot p k = (e.slot p k).map fun s =>
      { s with
        oj := if s.oj = .wait ev.tag then .val v else s.oj
        ok := if s.ok = .wait ev.tag then .val v else s.ok }

/-- Two events with different tags give the same state in either order, though both may name one register. -/
def Obligations.BroadcastOrderIsIrrelevant : Prop :=
  ∀ (c : Config) (e : Engine c) (ev ev' : Event c.xlen), ev.tag ≠ ev'.tag →
    (e.broadcast ev).broadcast ev' = (e.broadcast ev').broadcast ev

/-- R132: the slots of the events become idle, every other slot stays, and `completed` grows by the number of events. -/
def Obligations.ReleaseIdlesAndCounts : Prop :=
  ∀ (c : Config) (e : Engine c) (evs : List (Event c.xlen)),
    (e.releaseAll evs).completed = e.completed + evs.length ∧
    (∀ ev ∈ evs, (e.releaseAll evs).slot ev.tag.pool ev.tag.slot = none) ∧
    (∀ p k, (∀ ev ∈ evs, ev.tag ≠ { pool := p, slot := k }) → (e.releaseAll evs).slot p k = e.slot p k) ∧
    (e.releaseAll evs).x = e.x ∧ (e.releaseAll evs).rst = e.rst ∧ (e.releaseAll evs).mem = e.mem ∧
    (e.releaseAll evs).stream = e.stream

/-- R202: of all the events of a cycle, whatever others stand before and after it, a taken branch replaces the whole stream by the
program's indices from its target on, none at or past the end; a negative target is a fault with the branch's program index; a branch
not taken leaves everything, whatever its target. -/
def Obligations.RedirectReplacesTheStream : Prop :=
  ∀ (c : Config) (e : Engine c) (pre post : List (Event c.xlen)) (ev : Event c.xlen),
    (∀ o ∈ pre ++ post, o.taken ≠ some true) →
    (ev.taken = some true → 0 ≤ ev.target →
      e.redirectAll (pre ++ ev :: post) = .ok { e with stream := (List.range e.progLen).drop ev.target.toNat }) ∧
    (ev.taken = some true → ev.target < 0 →
      e.redirectAll (pre ++ ev :: post) = .error (.branchTargetOutOfRange, ev.pidx)) ∧
    (ev.taken ≠ some true → e.redirectAll (pre ++ ev :: post) = .ok e)

/-- The target index is one past the branch plus the offset divided by IW, rounded toward minus infinity. -/
def Obligations.BranchTargetRoundsDown : Prop :=
  ∀ (c : Config) (i : Nat) (imm : Imm) (k : Int), 1 ≤ c.iw →
    (c.iw : Int) * k ≤ imm.toInt → imm.toInt < (c.iw : Int) * (k + 1) → branchTarget c i imm = (i : Int) + 1 + k

/-- A LOAD that completes in a cycle reads memory as it was before that cycle's STORE, whatever address the STORE writes (70_reset_and_hazards,
section 4). -/
def Obligations.LoadReadsBeforeStoreWrites : Prop :=
  ∀ (c : Config) (e e' : Engine c) (evs : List (Event c.xlen)) (ev : Event c.xlen),
    (∀ p k s, e.slot p k = some s → poolOf s.op = p) →
    e.stepPools poolOrder = .ok (e', evs) → ev ∈ evs → ev.op = .load →
    ∃ s, e.slot ev.tag.pool ev.tag.slot = some s ∧ s.op = .load ∧ ev.value = memRead e.mem (loadAddress s) ∧
      ev.value.isSome = true

/-! ### The whole cycle -/

/-- A running engine with nothing pending and no busy slot halts without performing a cycle, and a halted engine stays as it is at every
edge without reset (40_engine_cycle R111). A faulted engine stays as it is too (60_exceptions R242, 40_engine_cycle R135). That such an
edge is a step with the same state as its answer is the model's deduction (log entry 8). -/
def Obligations.HaltsWhenDrained : Prop :=
  (∀ s : State, s.resetPin = false → s.eng.status = .running → s.eng.stream = [] → (∀ p k, s.eng.slot p k = none) →
    step s = .next { s with eng := { s.eng with status := .halted } }) ∧
  (∀ s : State, s.resetPin = false → s.eng.status ≠ .running → step s = .next s)

/-- R237: the guard stops a run that would start a cycle at or past its limit, with info 0 and the cycle number kept; without a limit
no step raises it. -/
def Obligations.CycleLimitStopsTheRun : Prop :=
  (∀ (s : State) (m : Nat), s.resetPin = false → s.eng.status = .running → s.cfg.maxCycles = some m → m ≤ s.eng.cycle →
    (s.eng.stream ≠ [] ∨ ∃ p k b, s.eng.slot p k = some b) →
    ∃ e' : Engine s.cfg, step s = .next { s with eng := e' } ∧ e'.status = .faulted ∧ e'.fault = some (.cycleLimit, 0) ∧
      e'.cycle = s.eng.cycle) ∧
  (∀ (s t : State) (i : Nat), (∀ m, s.cfg.maxCycles = some m → s.eng.cycle < m) → step s = .next t →
    t.eng.fault = some (.cycleLimit, i) → s.eng.fault = some (.cycleLimit, i))

/-- A performed cycle adds one to `cycle`, whether it ends normally or in a fault (40_engine_cycle, section 1; 60_exceptions,
section 4). -/
def Obligations.PerformedCycleCounts : Prop :=
  ∀ s : State, s.StreamOk → s.resetPin = false → s.eng.status = .running → s.eng.drained = false →
    s.eng.guardTrips = false →
    ∃ e' : Engine s.cfg, step s = .next { s with eng := e' } ∧ e'.cycle = s.eng.cycle + 1

/-- An edge with reset at 1 performs no cycle and sets everything but the registers and memory, in any state. -/
def Obligations.ResetSetsEverythingElse : Prop :=
  ∀ s : State, s.resetPin = true →
    ∃ e' : Engine s.cfg, step s = .next { s with eng := e' } ∧
      e'.x = s.eng.x ∧ e'.mem = s.eng.mem ∧
      (∀ r, e'.currentTag r = none) ∧ (∀ p k, e'.slot p k = none) ∧ e'.progLen = s.prog.length ∧
      e'.stream = List.range s.prog.length ∧
      e'.seqNext = 0 ∧ e'.cycle = 0 ∧ e'.completed = 0 ∧ e'.dropped = 0 ∧ e'.status = .running ∧ e'.fault = none ∧
      e'.lasterr = none ∧ e'.errflags = { malformed := false, range := false }

/-- Every fault a running machine records names its cause: the guard with info 0; a LOAD or STORE that was in flight and whose address
is outside memory; or a BEQ that was in flight, whose words agree and whose target is negative (60_exceptions, sections 3 and 4). -/
def Obligations.FaultsNameTheirCause : Prop :=
  ∀ (s t : State) (f : FaultCode) (i : Nat), s.cfg.Valid → s.Inv → s.resetPin = false → s.eng.status = .running →
    step s = .next t → t.eng.fault = some (f, i) →
    t.eng.status = .faulted ∧
    ((f = .cycleLimit ∧ i = 0 ∧ t.eng.cycle = s.eng.cycle) ∨
     (f = .memoryAddressOutOfRange ∧ t.eng.cycle = s.eng.cycle + 1 ∧ ∃ p k b, s.eng.slot p k = some b ∧ b.pidx = i ∧
       b.ready = true ∧
       ((b.op = .load ∧ inMemory s.cfg (loadAddress b) = false) ∨ (b.op = .store ∧ inMemory s.cfg (storeAddress b) = false))) ∨
     (f = .branchTargetOutOfRange ∧ t.eng.cycle = s.eng.cycle + 1 ∧ ∃ k b v, s.eng.slot .beq k = some b ∧ b.pidx = i ∧
       b.oj = .val v ∧ b.ok = .val v ∧ b.target < 0))

/-- No step raises AllocationOverflow (60_exceptions, section 3). -/
def Obligations.AllocationNeverOverflows : Prop :=
  ∀ (s t : State) (i : Nat), step s = .next t → t.eng.fault = some (.allocationOverflow, i) →
    s.eng.fault = some (.allocationOverflow, i)

/-- One cycle dispatches or rejects at most one instruction and completes at most five (40_engine_cycle, section 8). -/
def Obligations.ThroughputIsBounded : Prop :=
  ∀ s t : State, s.resetPin = false → step s = .next t → t.eng.status ≠ .faulted →
    s.eng.dropped ≤ t.eng.dropped ∧ s.eng.seqNext ≤ t.eng.seqNext ∧
    (t.eng.dropped - s.eng.dropped) + (t.eng.seqNext - s.eng.seqNext) ≤ 1 ∧
    s.eng.completed ≤ t.eng.completed ∧ t.eng.completed ≤ s.eng.completed + 5 ∧
    s.eng.cycle ≤ t.eng.cycle ∧ t.eng.cycle ≤ s.eng.cycle + 1

/-- Only reset clears the error flags (10_state, section 7). -/
def Obligations.ErrorFlagsAreSticky : Prop :=
  ∀ s t : State, s.resetPin = false → step s = .next t → t.eng.status ≠ .faulted →
    (s.eng.errflags.malformed = true → t.eng.errflags.malformed = true) ∧
    (s.eng.errflags.range = true → t.eng.errflags.range = true)

/-- A step that does not fault changes at most one word of memory, the one at the address of the STORE slot its pool selects, which takes
that slot's value (20_memory, section 4; 42_memory_ops, section 1). -/
def Obligations.OnlyTheSelectedStoreWritesMemory : Prop :=
  ∀ (s t : State), s.cfg.Valid → s.Inv → s.resetPin = false → s.eng.status = .running → step s = .next t →
    t.eng.status ≠ .faulted →
    ∃ e' : Engine s.cfg, t = { s with eng := e' } ∧
      ∀ a : Nat, e'.mem.read a =
        match selectOldest ((s.eng.countdown .store).pools.get .store) with
        | none => s.eng.mem.read a
        | some (_, b) => if (a : Int) = storeAddress b then b.oj.value else s.eng.mem.read a

/-- A step that does not fault changes a register only where the slot the register was pending on completes: the slot becomes idle, the
register Ready, and the register takes the value of the event that `execute` answers for the slot. Every register that a step makes
Ready takes that value (10_state, section 2; 40_engine_cycle, sections 4 and 5). -/
def Obligations.OnlyTheNamedProducerWritesARegister : Prop :=
  ∀ (s t : State), s.cfg.Valid → s.Inv → s.resetPin = false → step s = .next t → t.eng.status ≠ .faulted →
    ∃ e' : Engine s.cfg, t = { s with eng := e' } ∧
      (∀ r, e'.reg r ≠ s.eng.reg r →
        ∃ tag b ev, s.eng.currentTag r = some tag ∧ s.eng.slot tag.pool tag.slot = some b ∧ b.dest = some r ∧
          b.ready = true ∧ e'.slot tag.pool tag.slot = none ∧ e'.currentTag r = none ∧
          execute s.eng tag b = .ok (s.eng, ev) ∧ ev.value = some (e'.reg r)) ∧
      (∀ r tag, s.eng.currentTag r = some tag → e'.currentTag r = none →
        ∃ b ev, s.eng.slot tag.pool tag.slot = some b ∧ b.dest = some r ∧ b.ready = true ∧
          e'.slot tag.pool tag.slot = none ∧ execute s.eng tag b = .ok (s.eng, ev) ∧ ev.value = some (e'.reg r))

/-- The oldest busy slot is never held back: in every cycle it counts down, or it completes and becomes idle (40_engine_cycle,
section 8). -/
def Obligations.OldestSlotProgresses : Prop :=
  ∀ (s t : State) (p : PoolId) (k : Nat) (b : Slot s.cfg.xlen),
    s.cfg.Valid → s.Inv → s.resetPin = false → s.eng.status = .running → s.eng.Oldest p k b →
    step s = .next t → t.eng.status ≠ .faulted →
    b.ready = true ∧
    ∃ e' : Engine s.cfg, t = { s with eng := e' } ∧
      (b.cl ≤ 1 → e'.slot p k = none ∧ s.eng.completed < e'.completed) ∧
      (1 < b.cl → e'.slot p k = some { b with cl := b.cl - 1 })

/-! ### Invariants -/

/-- The state after reset is sound, in a configuration that meets every constraint; its registers, memory and configuration are the
model's choice (log entries 1, 2, 3, 10). -/
def Obligations.ResetStateIsSound : Prop :=
  State.reset.Inv ∧ State.reset.cfg.Launchable State.reset.prog.length ∧ State.reset.eng.status = .running ∧
  State.reset.eng.cycle = 0 ∧ State.reset.eng.stream = []

/-- Every launch with a register file of the right size and a canonical memory inside the address space is sound (70_reset_and_hazards,
section 2). -/
def Obligations.LaunchIsSound : Prop :=
  ∀ (c : Config) (prog : List Record) (x : List (Word c.xlen)) (m : Memory c.xlen),
    x.length = c.nreg → m.wf = true → Memory.Within m c.memWords → (State.launch c prog x m).Inv

/-- Every step keeps the sizes of the register file, the status table and the pools, and the canonical form of memory. -/
def Obligations.StepKeepsShape : Prop :=
  ∀ s t : State, s.eng.Sized → s.eng.MemoryOk → step s = .next t → t.eng.Sized ∧ t.eng.MemoryOk

/-- Every step keeps the pending stream a run of the program to its end, unless it faults; a fault leaves the stream unspecified
(10_state, section 5; 60_exceptions, section 4). -/
def Obligations.StepKeepsStreamASuffix : Prop := ∀ s t : State, s.StreamOk → step s = .next t → t.StreamOk

/-- Every step from a state that has not faulted keeps tags, slots and register status in agreement, unless it faults
(40_engine_cycle, section 8). -/
def Obligations.StepKeepsCoherence : Prop :=
  ∀ s t : State, (s.eng.status ≠ .faulted → s.eng.Coherent) → step s = .next t → t.eng.status ≠ .faulted → t.eng.Coherent

/-- Every step keeps a sound state sound. -/
def Obligations.StepKeepsSoundness : Prop := ∀ s t : State, s.Inv → step s = .next t → t.Inv

/-- From a state whose stream is a run of its program every step answers a next state: no fault, no refusal. -/
def Obligations.StepAlwaysAnswers : Prop :=
  ∀ s : State, s.StreamOk → ∃ e' : Engine s.cfg, step s = .next { s with eng := e' }

/-- No step changes the parameters, the program or the reset input (10_state, section 1). -/
def Obligations.ParametersNeverChange : Prop :=
  ∀ s t : State, step s = .next t → t.cfg = s.cfg ∧ t.prog = s.prog ∧ t.resetPin = s.resetPin

/-- At a normal end every register is Ready and no slot is busy (70_reset_and_hazards, section 3). -/
def Obligations.HaltedRegistersAreCommitted : Prop :=
  ∀ s : State, s.Inv → s.eng.status = .halted →
    s.eng.stream = [] ∧ (∀ p k, s.eng.slot p k = none) ∧ ∀ r, s.eng.currentTag r = none

/-- The `exactly when` of 10_state R24 is not kept by a cycle: when the newest producer of a register completes before an older one, the
register is Ready though the older slot is still busy (95_test_vectors, program P5; log entry 13). The forward direction is kept. -/
def Obligations.PendingExactlyIsNotKept : Prop :=
  ∃ s t : State, s.Inv ∧ s.eng.PendingExactly ∧ step s = .next t ∧ t.Inv ∧ ¬ t.eng.PendingExactly

/-! ### One instruction from dispatch to its end -/

/-- ADD, SUB or NAND alone in the machine: dispatched in the first cycle, its register written LAT cycles later and not before. The
only other changes are the empty stream, the cycle count, the count of completions and the sequence counter. -/
def Obligations.LoneArithmeticCompletes : Prop :=
  ∀ (s : State) (i : Nat) (ra rb rc : RegField) (ins : Instr) (lat : Nat) (v : Word s.cfg.xlen),
    ((ins = .add ra rb rc ∧ lat = s.cfg.latAdd ∧
        v = BitVec.ofNat s.cfg.xlen ((s.eng.reg rb.toNat).toNat + (s.eng.reg rc.toNat).toNat)) ∨
     (ins = .sub ra rb rc ∧ lat = s.cfg.latSub ∧
        v = BitVec.ofInt s.cfg.xlen (((s.eng.reg rb.toNat).toNat : Int) - ((s.eng.reg rc.toNat).toNat : Int))) ∨
     (ins = .nand ra rb rc ∧ lat = s.cfg.latNand ∧ v = ~~~(s.eng.reg rb.toNat &&& s.eng.reg rc.toNat))) →
    s.prog[i]? = some (encode ins) → ins.wellFormed s.cfg.nreg = true → s.Lone i (lat + 1) →
    (∀ k, k ≤ lat → ∃ e' : Engine s.cfg, Host.Core.run Sys2Proof.core k s = .next { s with eng := e' } ∧
      e'.x = s.eng.x ∧ e'.completed = s.eng.completed) ∧
    ∃ e' : Engine s.cfg, Host.Core.run Sys2Proof.core (lat + 1) s = .next { s with eng := e' } ∧
      e'.x = s.eng.x.set ra.toNat v ∧ e'.mem = s.eng.mem ∧ (∀ r, e'.currentTag r = none) ∧
      e'.pools = idlePools s.cfg ∧ e'.stream = [] ∧ e'.status = .running ∧ e'.cycle = s.eng.cycle + lat + 1 ∧
      e'.completed = s.eng.completed + 1 ∧ e'.seqNext = s.eng.seqNext + 1 ∧ e'.dropped = s.eng.dropped ∧
      e'.errflags = s.eng.errflags ∧ e'.lasterr = s.eng.lasterr ∧ e'.fault = s.eng.fault ∧ e'.progLen = s.eng.progLen ∧
      e'.faults = s.eng.faults

/-- LOAD alone in the machine: its register takes the word at displacement plus signed base LAT_LOAD cycles after dispatch, or the
machine faults in that cycle with the LOAD's program index. -/
def Obligations.LoneLoadCompletes : Prop :=
  ∀ (s : State) (i : Nat) (ra rb : RegField) (imm : Imm),
    s.prog[i]? = some (encode (.load ra rb imm)) → (Instr.load ra rb imm).wellFormed s.cfg.nreg = true →
    s.Lone i (s.cfg.latLoad + 1) →
    let ea : Int := imm.toInt + (s.eng.reg rb.toNat).toInt
    ∃ e' : Engine s.cfg, Host.Core.run Sys2Proof.core (s.cfg.latLoad + 1) s = .next { s with eng := e' } ∧
      e'.cycle = s.eng.cycle + s.cfg.latLoad + 1 ∧
      if 0 ≤ ea ∧ ea < (s.cfg.memWords : Int) then
        e'.x = s.eng.x.set ra.toNat (s.eng.mem.read ea.toNat) ∧ e'.mem = s.eng.mem ∧ (∀ r, e'.currentTag r = none) ∧
        e'.pools = idlePools s.cfg ∧ e'.stream = [] ∧ e'.status = .running ∧ e'.completed = s.eng.completed + 1 ∧
        e'.dropped = s.eng.dropped
      else e'.status = .faulted ∧ e'.fault = some (.memoryAddressOutOfRange, i)

/-- STORE alone in the machine: the word at displacement plus signed base takes the register's value LAT_STORE cycles after dispatch and
no other word or register changes, or the machine faults in that cycle with the STORE's program index. -/
def Obligations.LoneStoreCompletes : Prop :=
  ∀ (s : State) (i : Nat) (ra rb : RegField) (imm : Imm),
    s.prog[i]? = some (encode (.store ra rb imm)) → (Instr.store ra rb imm).wellFormed s.cfg.nreg = true →
    s.Lone i (s.cfg.latStore + 1) → s.eng.mem.wf = true →
    let ea : Int := imm.toInt + (s.eng.reg rb.toNat).toInt
    ∃ e' : Engine s.cfg, Host.Core.run Sys2Proof.core (s.cfg.latStore + 1) s = .next { s with eng := e' } ∧
      e'.cycle = s.eng.cycle + s.cfg.latStore + 1 ∧
      if 0 ≤ ea ∧ ea < (s.cfg.memWords : Int) then
        (∀ a, e'.mem.read a = if (a : Int) = ea then s.eng.reg ra.toNat else s.eng.mem.read a) ∧ e'.x = s.eng.x ∧
        (∀ r, e'.currentTag r = none) ∧ e'.pools = idlePools s.cfg ∧ e'.stream = [] ∧ e'.status = .running ∧
        e'.completed = s.eng.completed + 1 ∧ e'.dropped = s.eng.dropped
      else e'.status = .faulted ∧ e'.fault = some (.memoryAddressOutOfRange, i)

/-- BEQ alone in the machine: LAT_BEQ cycles after dispatch the stream is refilled from its target where the registers are equal, stays
empty where they are not, and a taken negative target faults with the BEQ's program index. -/
def Obligations.LoneBranchCompletes : Prop :=
  ∀ (s : State) (i : Nat) (ra rb : RegField) (imm : Imm),
    s.prog[i]? = some (encode (.beq ra rb imm)) → (Instr.beq ra rb imm).wellFormed s.cfg.nreg = true →
    s.Lone i (s.cfg.latBeq + 1) →
    let target : Int := (i : Int) + 1 + Int.fdiv imm.toInt (s.cfg.iw : Int)
    let taken : Prop := s.eng.reg ra.toNat = s.eng.reg rb.toNat
    ∃ e' : Engine s.cfg, Host.Core.run Sys2Proof.core (s.cfg.latBeq + 1) s = .next { s with eng := e' } ∧
      e'.cycle = s.eng.cycle + s.cfg.latBeq + 1 ∧
      (taken ∧ target < 0 → e'.status = .faulted ∧ e'.fault = some (.branchTargetOutOfRange, i)) ∧
      (¬(taken ∧ target < 0) →
        e'.x = s.eng.x ∧ e'.mem = s.eng.mem ∧ (∀ r, e'.currentTag r = none) ∧ e'.pools = idlePools s.cfg ∧
        e'.status = .running ∧ e'.completed = s.eng.completed + 1 ∧ e'.dropped = s.eng.dropped ∧
        (taken → e'.stream = (List.range s.eng.progLen).drop target.toNat) ∧ (¬ taken → e'.stream = []))

/-! ### What the host reads -/

/-- The status block shows each field at its place, the codes 8 to 11 of the faults and 1 and 2 of the rejections (60_exceptions, section
1), each counter modulo 2^CNT_W, and 0 in every bit the table does not define. FAULTINFO and PROGLEN modulo 2^32, and FAULTINFO 0
without a fault, are the model's deduction (log entry 19). -/
def Obligations.StatusBlockShowsItsFields : Prop :=
  ∀ s : State, 1 ≤ s.cfg.cntW → s.cfg.cntW ≤ 32 →
    ((s.statusBlock 0).extractLsb' 0 2).toNat =
      (match s.eng.status with | .running => 0 | .halted => 1 | .faulted => 2) ∧
    (s.statusBlock 0).extractLsb' 2 2 = 0 ∧
    (∀ f i, s.eng.status = .faulted → s.eng.fault = some (f, i) →
      ((s.statusBlock 0).extractLsb' 4 4).toNat =
          (match f with
            | .memoryAddressOutOfRange => 8
            | .branchTargetOutOfRange => 9
            | .cycleLimit => 10
            | .allocationOverflow => 11) ∧
        (s.statusBlock 6).toNat = i % 2 ^ 32) ∧
    (s.eng.status ≠ .faulted → (s.statusBlock 0).extractLsb' 4 4 = 0) ∧
    (s.eng.fault = none → s.statusBlock 6 = 0) ∧
    ((s.statusBlock 0).getLsbD 8 = true ↔ s.eng.stream = []) ∧
    ((s.statusBlock 0).getLsbD 9 = true ↔ ∃ p k b, s.eng.slot p k = some b) ∧
    (s.statusBlock 0).extractLsb' 10 22 = 0 ∧
    (s.statusBlock 1).toNat = s.eng.cycle % 2 ^ s.cfg.cntW ∧
    (s.statusBlock 2).toNat = s.eng.completed % 2 ^ s.cfg.cntW ∧
    (s.statusBlock 3).toNat = s.eng.dropped % 2 ^ s.cfg.cntW ∧
    (s.statusBlock 4).toNat = s.eng.errflags.malformed.toNat + 2 * s.eng.errflags.range.toNat ∧
    (s.eng.lasterr = none → s.statusBlock 5 = 0) ∧
    (∀ code i, s.eng.lasterr = some (code, i) →
      (s.statusBlock 5).toNat =
        i % 2 ^ 16 * 2 ^ 16 + (match code with | .malformedOperand => 1 | .registerOutOfRange => 2)) ∧
    (s.statusBlock 7).toNat = s.eng.progLen % 2 ^ 32 ∧
    ∀ idx : BitVec 4, 8 ≤ idx.toNat → s.statusBlock idx = 0

/-- A run from a sound state never stops by name. It ends at the first state that is not Running, wherever within its edges that state
comes; it is unfinished only when all its edges have been performed and every state up to the last is Running. At a normal end nothing is pending, no
slot is busy, every register is Ready, and the results are the registers, memory, counters and error records of that state; a run that
faults has no results, nor has one that is still Running (70_reset_and_hazards, section 3). -/
def Obligations.RunEndsWithItsResults : Prop :=
  ∀ (s : State) (n : Nat), s.Inv →
    s.runEnd n ≠ .stopped ∧
    (∀ (k : Nat) (u : State), k ≤ n → Host.Core.run Sys2Proof.core k s = .next u → u.eng.status ≠ .running →
      (∀ j < k, ∃ v, Host.Core.run Sys2Proof.core j s = .next v ∧ v.eng.status = .running) →
      s.runEnd n = .normal u ∨ s.runEnd n = .faulted u) ∧
    (∀ t : State, s.runEnd n = .unfinished t →
      Host.Core.run Sys2Proof.core n s = .next t ∧
      ∀ j ≤ n, ∃ v, Host.Core.run Sys2Proof.core j s = .next v ∧ v.eng.status = .running) ∧
    ∀ t : State, s.runEnd n = .normal t ∨ s.runEnd n = .faulted t ∨ s.runEnd n = .unfinished t →
      (∃ k, k ≤ n ∧ Host.Core.run Sys2Proof.core k s = .next t ∧
        ∀ j < k, ∃ u, Host.Core.run Sys2Proof.core j s = .next u ∧ u.eng.status = .running) ∧
      (s.runEnd n = .normal t ↔ t.eng.status = .halted) ∧
      (s.runEnd n = .faulted t ↔ t.eng.status = .faulted) ∧
      (t.eng.status = .halted →
        t.eng.stream = [] ∧ (∀ p k, t.eng.slot p k = none) ∧ (∀ r, t.eng.currentTag r = none) ∧
        t.results = some
          { x := t.eng.x, mem := t.eng.mem, completed := t.eng.completed, dropped := t.eng.dropped,
            errflags := t.eng.errflags, lasterr := t.eng.lasterr, cycle := t.eng.cycle }) ∧
      (t.eng.status ≠ .halted → t.results = none)
end

