-- ==== Sys2Proof/Laws/State.lean ====
section
/-! SUPPORT. What each update of the engine's state leaves as it was, field by field, and what it changes: one lemma each, true by
unfolding, so that no later proof unfolds an update. -/

namespace Sys2Proof.Machine

variable {c : Config} (e : Engine c)

/-! ### setReg -/

@[simp] theorem Engine.setReg_x (r : Nat) (v : Word c.xlen) : (e.setReg r v).x = e.x.set r v := rfl
@[simp] theorem Engine.setReg_rst (r : Nat) (v : Word c.xlen) : (e.setReg r v).rst = e.rst := rfl
@[simp] theorem Engine.setReg_mem (r : Nat) (v : Word c.xlen) : (e.setReg r v).mem = e.mem := rfl
@[simp] theorem Engine.setReg_pools (r : Nat) (v : Word c.xlen) : (e.setReg r v).pools = e.pools := rfl
@[simp] theorem Engine.setReg_stream (r : Nat) (v : Word c.xlen) : (e.setReg r v).stream = e.stream := rfl
@[simp] theorem Engine.setReg_seqNext (r : Nat) (v : Word c.xlen) : (e.setReg r v).seqNext = e.seqNext := rfl
@[simp] theorem Engine.setReg_cycle (r : Nat) (v : Word c.xlen) : (e.setReg r v).cycle = e.cycle := rfl
@[simp] theorem Engine.setReg_completed (r : Nat) (v : Word c.xlen) : (e.setReg r v).completed = e.completed := rfl
@[simp] theorem Engine.setReg_dropped (r : Nat) (v : Word c.xlen) : (e.setReg r v).dropped = e.dropped := rfl
@[simp] theorem Engine.setReg_status (r : Nat) (v : Word c.xlen) : (e.setReg r v).status = e.status := rfl
@[simp] theorem Engine.setReg_fault (r : Nat) (v : Word c.xlen) : (e.setReg r v).fault = e.fault := rfl
@[simp] theorem Engine.setReg_errflags (r : Nat) (v : Word c.xlen) : (e.setReg r v).errflags = e.errflags := rfl
@[simp] theorem Engine.setReg_lasterr (r : Nat) (v : Word c.xlen) : (e.setReg r v).lasterr = e.lasterr := rfl
@[simp] theorem Engine.setReg_progLen (r : Nat) (v : Word c.xlen) : (e.setReg r v).progLen = e.progLen := rfl
@[simp] theorem Engine.setReg_faults (r : Nat) (v : Word c.xlen) : (e.setReg r v).faults = e.faults := rfl

/-! ### markPending -/

@[simp] theorem Engine.markPending_x (r : Nat) (t : Tag) : (e.markPending r t).x = e.x := rfl
@[simp] theorem Engine.markPending_rst (r : Nat) (t : Tag) : (e.markPending r t).rst = e.rst.set r (some t) := rfl
@[simp] theorem Engine.markPending_mem (r : Nat) (t : Tag) : (e.markPending r t).mem = e.mem := rfl
@[simp] theorem Engine.markPending_pools (r : Nat) (t : Tag) : (e.markPending r t).pools = e.pools := rfl
@[simp] theorem Engine.markPending_stream (r : Nat) (t : Tag) : (e.markPending r t).stream = e.stream := rfl
@[simp] theorem Engine.markPending_seqNext (r : Nat) (t : Tag) : (e.markPending r t).seqNext = e.seqNext := rfl
@[simp] theorem Engine.markPending_cycle (r : Nat) (t : Tag) : (e.markPending r t).cycle = e.cycle := rfl
@[simp] theorem Engine.markPending_completed (r : Nat) (t : Tag) : (e.markPending r t).completed = e.completed := rfl
@[simp] theorem Engine.markPending_dropped (r : Nat) (t : Tag) : (e.markPending r t).dropped = e.dropped := rfl
@[simp] theorem Engine.markPending_status (r : Nat) (t : Tag) : (e.markPending r t).status = e.status := rfl
@[simp] theorem Engine.markPending_fault (r : Nat) (t : Tag) : (e.markPending r t).fault = e.fault := rfl
@[simp] theorem Engine.markPending_errflags (r : Nat) (t : Tag) : (e.markPending r t).errflags = e.errflags := rfl
@[simp] theorem Engine.markPending_lasterr (r : Nat) (t : Tag) : (e.markPending r t).lasterr = e.lasterr := rfl
@[simp] theorem Engine.markPending_progLen (r : Nat) (t : Tag) : (e.markPending r t).progLen = e.progLen := rfl
@[simp] theorem Engine.markPending_faults (r : Nat) (t : Tag) : (e.markPending r t).faults = e.faults := rfl

/-! ### clearPending -/

@[simp] theorem Engine.clearPending_x (r : Nat) : (e.clearPending r).x = e.x := rfl
@[simp] theorem Engine.clearPending_rst (r : Nat) : (e.clearPending r).rst = e.rst.set r none := rfl
@[simp] theorem Engine.clearPending_mem (r : Nat) : (e.clearPending r).mem = e.mem := rfl
@[simp] theorem Engine.clearPending_pools (r : Nat) : (e.clearPending r).pools = e.pools := rfl
@[simp] theorem Engine.clearPending_stream (r : Nat) : (e.clearPending r).stream = e.stream := rfl
@[simp] theorem Engine.clearPending_seqNext (r : Nat) : (e.clearPending r).seqNext = e.seqNext := rfl
@[simp] theorem Engine.clearPending_cycle (r : Nat) : (e.clearPending r).cycle = e.cycle := rfl
@[simp] theorem Engine.clearPending_completed (r : Nat) : (e.clearPending r).completed = e.completed := rfl
@[simp] theorem Engine.clearPending_dropped (r : Nat) : (e.clearPending r).dropped = e.dropped := rfl
@[simp] theorem Engine.clearPending_status (r : Nat) : (e.clearPending r).status = e.status := rfl
@[simp] theorem Engine.clearPending_fault (r : Nat) : (e.clearPending r).fault = e.fault := rfl
@[simp] theorem Engine.clearPending_errflags (r : Nat) : (e.clearPending r).errflags = e.errflags := rfl
@[simp] theorem Engine.clearPending_lasterr (r : Nat) : (e.clearPending r).lasterr = e.lasterr := rfl
@[simp] theorem Engine.clearPending_progLen (r : Nat) : (e.clearPending r).progLen = e.progLen := rfl
@[simp] theorem Engine.clearPending_faults (r : Nat) : (e.clearPending r).faults = e.faults := rfl

/-! ### setSlot -/

@[simp] theorem Engine.setSlot_x (p : PoolId) (k : Nat) (o : Option (Slot c.xlen)) : (e.setSlot p k o).x = e.x := rfl
@[simp] theorem Engine.setSlot_rst (p : PoolId) (k : Nat) (o : Option (Slot c.xlen)) : (e.setSlot p k o).rst = e.rst := rfl
@[simp] theorem Engine.setSlot_mem (p : PoolId) (k : Nat) (o : Option (Slot c.xlen)) : (e.setSlot p k o).mem = e.mem := rfl
@[simp] theorem Engine.setSlot_pools (p : PoolId) (k : Nat) (o : Option (Slot c.xlen)) : (e.setSlot p k o).pools = e.pools.put p ((e.pools.get p).set k o) := rfl
@[simp] theorem Engine.setSlot_stream (p : PoolId) (k : Nat) (o : Option (Slot c.xlen)) : (e.setSlot p k o).stream = e.stream := rfl
@[simp] theorem Engine.setSlot_seqNext (p : PoolId) (k : Nat) (o : Option (Slot c.xlen)) : (e.setSlot p k o).seqNext = e.seqNext := rfl
@[simp] theorem Engine.setSlot_cycle (p : PoolId) (k : Nat) (o : Option (Slot c.xlen)) : (e.setSlot p k o).cycle = e.cycle := rfl
@[simp] theorem Engine.setSlot_completed (p : PoolId) (k : Nat) (o : Option (Slot c.xlen)) : (e.setSlot p k o).completed = e.completed := rfl
@[simp] theorem Engine.setSlot_dropped (p : PoolId) (k : Nat) (o : Option (Slot c.xlen)) : (e.setSlot p k o).dropped = e.dropped := rfl
@[simp] theorem Engine.setSlot_status (p : PoolId) (k : Nat) (o : Option (Slot c.xlen)) : (e.setSlot p k o).status = e.status := rfl
@[simp] theorem Engine.setSlot_fault (p : PoolId) (k : Nat) (o : Option (Slot c.xlen)) : (e.setSlot p k o).fault = e.fault := rfl
@[simp] theorem Engine.setSlot_errflags (p : PoolId) (k : Nat) (o : Option (Slot c.xlen)) : (e.setSlot p k o).errflags = e.errflags := rfl
@[simp] theorem Engine.setSlot_lasterr (p : PoolId) (k : Nat) (o : Option (Slot c.xlen)) : (e.setSlot p k o).lasterr = e.lasterr := rfl
@[simp] theorem Engine.setSlot_progLen (p : PoolId) (k : Nat) (o : Option (Slot c.xlen)) : (e.setSlot p k o).progLen = e.progLen := rfl
@[simp] theorem Engine.setSlot_faults (p : PoolId) (k : Nat) (o : Option (Slot c.xlen)) : (e.setSlot p k o).faults = e.faults := rfl

/-! ### recordRejection -/

@[simp] theorem Engine.recordRejection_x (code : ErrCode) (i : Nat) : (e.recordRejection code i).x = e.x := rfl
@[simp] theorem Engine.recordRejection_rst (code : ErrCode) (i : Nat) : (e.recordRejection code i).rst = e.rst := rfl
@[simp] theorem Engine.recordRejection_mem (code : ErrCode) (i : Nat) : (e.recordRejection code i).mem = e.mem := rfl
@[simp] theorem Engine.recordRejection_pools (code : ErrCode) (i : Nat) : (e.recordRejection code i).pools = e.pools := rfl
@[simp] theorem Engine.recordRejection_stream (code : ErrCode) (i : Nat) : (e.recordRejection code i).stream = e.stream := rfl
@[simp] theorem Engine.recordRejection_seqNext (code : ErrCode) (i : Nat) : (e.recordRejection code i).seqNext = e.seqNext := rfl
@[simp] theorem Engine.recordRejection_cycle (code : ErrCode) (i : Nat) : (e.recordRejection code i).cycle = e.cycle := rfl
@[simp] theorem Engine.recordRejection_completed (code : ErrCode) (i : Nat) : (e.recordRejection code i).completed = e.completed := rfl
@[simp] theorem Engine.recordRejection_dropped (code : ErrCode) (i : Nat) : (e.recordRejection code i).dropped = e.dropped := rfl
@[simp] theorem Engine.recordRejection_status (code : ErrCode) (i : Nat) : (e.recordRejection code i).status = e.status := rfl
@[simp] theorem Engine.recordRejection_fault (code : ErrCode) (i : Nat) : (e.recordRejection code i).fault = e.fault := rfl
@[simp] theorem Engine.recordRejection_errflags (code : ErrCode) (i : Nat) : (e.recordRejection code i).errflags = e.errflags.set code := rfl
@[simp] theorem Engine.recordRejection_lasterr (code : ErrCode) (i : Nat) : (e.recordRejection code i).lasterr = some (code, i) := rfl
@[simp] theorem Engine.recordRejection_progLen (code : ErrCode) (i : Nat) : (e.recordRejection code i).progLen = e.progLen := rfl
@[simp] theorem Engine.recordRejection_faults (code : ErrCode) (i : Nat) : (e.recordRejection code i).faults = e.faults := rfl

/-! ### countdown -/

@[simp] theorem Engine.countdown_x (p : PoolId) : (e.countdown p).x = e.x := rfl
@[simp] theorem Engine.countdown_rst (p : PoolId) : (e.countdown p).rst = e.rst := rfl
@[simp] theorem Engine.countdown_mem (p : PoolId) : (e.countdown p).mem = e.mem := rfl
@[simp] theorem Engine.countdown_pools (p : PoolId) : (e.countdown p).pools = e.pools.put p ((e.pools.get p).map (Option.map Slot.countdown)) := rfl
@[simp] theorem Engine.countdown_stream (p : PoolId) : (e.countdown p).stream = e.stream := rfl
@[simp] theorem Engine.countdown_seqNext (p : PoolId) : (e.countdown p).seqNext = e.seqNext := rfl
@[simp] theorem Engine.countdown_cycle (p : PoolId) : (e.countdown p).cycle = e.cycle := rfl
@[simp] theorem Engine.countdown_completed (p : PoolId) : (e.countdown p).completed = e.completed := rfl
@[simp] theorem Engine.countdown_dropped (p : PoolId) : (e.countdown p).dropped = e.dropped := rfl
@[simp] theorem Engine.countdown_status (p : PoolId) : (e.countdown p).status = e.status := rfl
@[simp] theorem Engine.countdown_fault (p : PoolId) : (e.countdown p).fault = e.fault := rfl
@[simp] theorem Engine.countdown_errflags (p : PoolId) : (e.countdown p).errflags = e.errflags := rfl
@[simp] theorem Engine.countdown_lasterr (p : PoolId) : (e.countdown p).lasterr = e.lasterr := rfl
@[simp] theorem Engine.countdown_progLen (p : PoolId) : (e.countdown p).progLen = e.progLen := rfl
@[simp] theorem Engine.countdown_faults (p : PoolId) : (e.countdown p).faults = e.faults := rfl

/-! ### wakeAll -/

@[simp] theorem Engine.wakeAll_x (t : Tag) (v : Word c.xlen) : (e.wakeAll t v).x = e.x := rfl
@[simp] theorem Engine.wakeAll_rst (t : Tag) (v : Word c.xlen) : (e.wakeAll t v).rst = e.rst := rfl
@[simp] theorem Engine.wakeAll_mem (t : Tag) (v : Word c.xlen) : (e.wakeAll t v).mem = e.mem := rfl
@[simp] theorem Engine.wakeAll_pools (t : Tag) (v : Word c.xlen) : (e.wakeAll t v).pools = e.pools.mapBusy (Slot.wake t v) := rfl
@[simp] theorem Engine.wakeAll_stream (t : Tag) (v : Word c.xlen) : (e.wakeAll t v).stream = e.stream := rfl
@[simp] theorem Engine.wakeAll_seqNext (t : Tag) (v : Word c.xlen) : (e.wakeAll t v).seqNext = e.seqNext := rfl
@[simp] theorem Engine.wakeAll_cycle (t : Tag) (v : Word c.xlen) : (e.wakeAll t v).cycle = e.cycle := rfl
@[simp] theorem Engine.wakeAll_completed (t : Tag) (v : Word c.xlen) : (e.wakeAll t v).completed = e.completed := rfl
@[simp] theorem Engine.wakeAll_dropped (t : Tag) (v : Word c.xlen) : (e.wakeAll t v).dropped = e.dropped := rfl
@[simp] theorem Engine.wakeAll_status (t : Tag) (v : Word c.xlen) : (e.wakeAll t v).status = e.status := rfl
@[simp] theorem Engine.wakeAll_fault (t : Tag) (v : Word c.xlen) : (e.wakeAll t v).fault = e.fault := rfl
@[simp] theorem Engine.wakeAll_errflags (t : Tag) (v : Word c.xlen) : (e.wakeAll t v).errflags = e.errflags := rfl
@[simp] theorem Engine.wakeAll_lasterr (t : Tag) (v : Word c.xlen) : (e.wakeAll t v).lasterr = e.lasterr := rfl
@[simp] theorem Engine.wakeAll_progLen (t : Tag) (v : Word c.xlen) : (e.wakeAll t v).progLen = e.progLen := rfl
@[simp] theorem Engine.wakeAll_faults (t : Tag) (v : Word c.xlen) : (e.wakeAll t v).faults = e.faults := rfl

/-! ### clearFresh -/

@[simp] theorem Engine.clearFresh_x : (e.clearFresh).x = e.x := rfl
@[simp] theorem Engine.clearFresh_rst : (e.clearFresh).rst = e.rst := rfl
@[simp] theorem Engine.clearFresh_mem : (e.clearFresh).mem = e.mem := rfl
@[simp] theorem Engine.clearFresh_pools : (e.clearFresh).pools = e.pools.mapBusy fun s => { s with fresh := false } := rfl
@[simp] theorem Engine.clearFresh_stream : (e.clearFresh).stream = e.stream := rfl
@[simp] theorem Engine.clearFresh_seqNext : (e.clearFresh).seqNext = e.seqNext := rfl
@[simp] theorem Engine.clearFresh_cycle : (e.clearFresh).cycle = e.cycle := rfl
@[simp] theorem Engine.clearFresh_completed : (e.clearFresh).completed = e.completed := rfl
@[simp] theorem Engine.clearFresh_dropped : (e.clearFresh).dropped = e.dropped := rfl
@[simp] theorem Engine.clearFresh_status : (e.clearFresh).status = e.status := rfl
@[simp] theorem Engine.clearFresh_fault : (e.clearFresh).fault = e.fault := rfl
@[simp] theorem Engine.clearFresh_errflags : (e.clearFresh).errflags = e.errflags := rfl
@[simp] theorem Engine.clearFresh_lasterr : (e.clearFresh).lasterr = e.lasterr := rfl
@[simp] theorem Engine.clearFresh_progLen : (e.clearFresh).progLen = e.progLen := rfl
@[simp] theorem Engine.clearFresh_faults : (e.clearFresh).faults = e.faults := rfl

/-! ### beginCycle -/

@[simp] theorem Engine.beginCycle_x : (e.beginCycle).x = e.x := rfl
@[simp] theorem Engine.beginCycle_rst : (e.beginCycle).rst = e.rst := rfl
@[simp] theorem Engine.beginCycle_mem : (e.beginCycle).mem = e.mem := rfl
@[simp] theorem Engine.beginCycle_pools : (e.beginCycle).pools = e.pools := rfl
@[simp] theorem Engine.beginCycle_stream : (e.beginCycle).stream = e.stream := rfl
@[simp] theorem Engine.beginCycle_seqNext : (e.beginCycle).seqNext = e.seqNext := rfl
@[simp] theorem Engine.beginCycle_cycle : (e.beginCycle).cycle = e.cycle + 1 := rfl
@[simp] theorem Engine.beginCycle_completed : (e.beginCycle).completed = e.completed := rfl
@[simp] theorem Engine.beginCycle_dropped : (e.beginCycle).dropped = e.dropped := rfl
@[simp] theorem Engine.beginCycle_status : (e.beginCycle).status = e.status := rfl
@[simp] theorem Engine.beginCycle_fault : (e.beginCycle).fault = e.fault := rfl
@[simp] theorem Engine.beginCycle_errflags : (e.beginCycle).errflags = e.errflags := rfl
@[simp] theorem Engine.beginCycle_lasterr : (e.beginCycle).lasterr = e.lasterr := rfl
@[simp] theorem Engine.beginCycle_progLen : (e.beginCycle).progLen = e.progLen := rfl
@[simp] theorem Engine.beginCycle_faults : (e.beginCycle).faults = e.faults := rfl

/-! ### release -/

@[simp] theorem Engine.release_x (ev : Event c.xlen) : (e.release ev).x = e.x := rfl
@[simp] theorem Engine.release_rst (ev : Event c.xlen) : (e.release ev).rst = e.rst := rfl
@[simp] theorem Engine.release_mem (ev : Event c.xlen) : (e.release ev).mem = e.mem := rfl
@[simp] theorem Engine.release_pools (ev : Event c.xlen) : (e.release ev).pools = e.pools.put ev.tag.pool ((e.pools.get ev.tag.pool).set ev.tag.slot none) := rfl
@[simp] theorem Engine.release_stream (ev : Event c.xlen) : (e.release ev).stream = e.stream := rfl
@[simp] theorem Engine.release_seqNext (ev : Event c.xlen) : (e.release ev).seqNext = e.seqNext := rfl
@[simp] theorem Engine.release_cycle (ev : Event c.xlen) : (e.release ev).cycle = e.cycle := rfl
@[simp] theorem Engine.release_completed (ev : Event c.xlen) : (e.release ev).completed = e.completed + 1 := rfl
@[simp] theorem Engine.release_dropped (ev : Event c.xlen) : (e.release ev).dropped = e.dropped := rfl
@[simp] theorem Engine.release_status (ev : Event c.xlen) : (e.release ev).status = e.status := rfl
@[simp] theorem Engine.release_fault (ev : Event c.xlen) : (e.release ev).fault = e.fault := rfl
@[simp] theorem Engine.release_errflags (ev : Event c.xlen) : (e.release ev).errflags = e.errflags := rfl
@[simp] theorem Engine.release_lasterr (ev : Event c.xlen) : (e.release ev).lasterr = e.lasterr := rfl
@[simp] theorem Engine.release_progLen (ev : Event c.xlen) : (e.release ev).progLen = e.progLen := rfl
@[simp] theorem Engine.release_faults (ev : Event c.xlen) : (e.release ev).faults = e.faults := rfl

/-! ### raise -/

@[simp] theorem Engine.raise_cycle (f : FaultCode) (i : Nat) : (e.raise f i).cycle = e.cycle := rfl
@[simp] theorem Engine.raise_status (f : FaultCode) (i : Nat) : (e.raise f i).status = .faulted := rfl
@[simp] theorem Engine.raise_fault (f : FaultCode) (i : Nat) : (e.raise f i).fault = some (f, i) := rfl
@[simp] theorem Engine.raise_progLen (f : FaultCode) (i : Nat) : (e.raise f i).progLen = e.progLen := rfl
@[simp] theorem Engine.raise_faults (f : FaultCode) (i : Nat) : (e.raise f i).faults = e.faults + 1 := rfl

/-! ### applyReset -/

@[simp] theorem Engine.applyReset_x (n : Nat) : (e.applyReset n).x = e.x := rfl
@[simp] theorem Engine.applyReset_rst (n : Nat) : (e.applyReset n).rst = List.replicate c.nreg none := rfl
@[simp] theorem Engine.applyReset_mem (n : Nat) : (e.applyReset n).mem = e.mem := rfl
@[simp] theorem Engine.applyReset_pools (n : Nat) : (e.applyReset n).pools = idlePools c := rfl
@[simp] theorem Engine.applyReset_stream (n : Nat) : (e.applyReset n).stream = List.range n := rfl
@[simp] theorem Engine.applyReset_seqNext (n : Nat) : (e.applyReset n).seqNext = 0 := rfl
@[simp] theorem Engine.applyReset_cycle (n : Nat) : (e.applyReset n).cycle = 0 := rfl
@[simp] theorem Engine.applyReset_completed (n : Nat) : (e.applyReset n).completed = 0 := rfl
@[simp] theorem Engine.applyReset_dropped (n : Nat) : (e.applyReset n).dropped = 0 := rfl
@[simp] theorem Engine.applyReset_status (n : Nat) : (e.applyReset n).status = .running := rfl
@[simp] theorem Engine.applyReset_fault (n : Nat) : (e.applyReset n).fault = none := rfl
@[simp] theorem Engine.applyReset_errflags (n : Nat) : (e.applyReset n).errflags = { malformed := false, range := false } := rfl
@[simp] theorem Engine.applyReset_lasterr (n : Nat) : (e.applyReset n).lasterr = none := rfl
@[simp] theorem Engine.applyReset_progLen (n : Nat) : (e.applyReset n).progLen = n := rfl
@[simp] theorem Engine.applyReset_faults (n : Nat) : (e.applyReset n).faults = e.faults := rfl

/-! ### Pools -/

@[simp] theorem Pools.get_put_same {w : Nat} (p : Pools w) (q : PoolId) (l : Station w) : (p.put q l).get q = l := by
  cases q <;> rfl

theorem Pools.get_put_ne {w : Nat} (p : Pools w) {q r : PoolId} (l : Station w) (h : r ≠ q) :
    (p.put q l).get r = p.get r := by
  cases q <;> cases r <;> first | rfl | exact absurd rfl h

theorem Pools.get_put {w : Nat} (p : Pools w) (q r : PoolId) (l : Station w) :
    (p.put q l).get r = if r = q then l else p.get r := by
  cases q <;> cases r <;> rfl

@[simp] theorem Pools.get_mapBusy {w : Nat} (p : Pools w) (f : Slot w → Slot w) (q : PoolId) :
    (p.mapBusy f).get q = (p.get q).map (Option.map f) := by
  cases q <;> rfl

/-- Two sets of pools that agree in every pool are equal. -/
theorem Pools.ext_get {w : Nat} {p q : Pools w} (h : ∀ r, p.get r = q.get r) : p = q := by
  cases p; cases q
  have h1 := h .add; have h2 := h .nand; have h3 := h .load; have h4 := h .store; have h5 := h .beq
  simp only [Pools.get] at h1 h2 h3 h4 h5
  simp [*]

@[simp] theorem idlePools_get (c : Config) (p : PoolId) : (idlePools c).get p = List.replicate (capOf c p) none := by
  cases p <;> rfl

/-! ### One slot -/

theorem Engine.slot_eq (p : PoolId) (k : Nat) : e.slot p k = (e.pools.get p).getD k none := rfl

/-- A slot is busy exactly when its pool lists it so. -/
theorem Engine.slot_eq_some_iff (p : PoolId) (k : Nat) (s : Slot c.xlen) :
    e.slot p k = some s ↔ (e.pools.get p)[k]? = some (some s) := by
  unfold Engine.slot
  rw [List.getD_eq_getElem?_getD]
  cases (e.pools.get p)[k]? <;> simp

/-- Writing slot `(p, k)` of an existing index changes that slot alone. -/
theorem Engine.slot_setSlot (p q : PoolId) (k j : Nat) (o : Option (Slot c.xlen)) (hk : k < (e.pools.get p).length) :
    (e.setSlot p k o).slot q j = if q = p ∧ j = k then o else e.slot q j := by
  unfold Engine.slot
  rw [Engine.setSlot_pools, Pools.get_put]
  by_cases hq : q = p
  · subst hq
    by_cases hj : j = k
    · subst hj; simp [List.getD_eq_getElem?_getD, hk]
    · simp [List.getD_eq_getElem?_getD, hj, List.getElem?_set_ne (Ne.symm hj)]
  · simp [hq]

/-- The same change to every busy slot. -/
theorem Engine.slot_mapBusy (f : Slot c.xlen → Slot c.xlen) (p : PoolId) (k : Nat) :
    Engine.slot { e with pools := e.pools.mapBusy f } p k = (e.slot p k).map f := by
  unfold Engine.slot
  simp only [Pools.get_mapBusy, List.getD_eq_getElem?_getD, List.getElem?_map]
  cases (e.pools.get p)[k]? <;> simp

@[simp] theorem Engine.slot_wakeAll (t : Tag) (v : Word c.xlen) (p : PoolId) (k : Nat) :
    (e.wakeAll t v).slot p k = (e.slot p k).map (Slot.wake t v) := e.slot_mapBusy _ p k

@[simp] theorem Engine.slot_clearFresh (p : PoolId) (k : Nat) :
    e.clearFresh.slot p k = (e.slot p k).map fun s => { s with fresh := false } := e.slot_mapBusy _ p k

/-- A pool's decrements change that pool alone. -/
theorem Engine.slot_countdown (p q : PoolId) (k : Nat) :
    (e.countdown p).slot q k = if q = p then (e.slot q k).map Slot.countdown else e.slot q k := by
  unfold Engine.slot
  rw [Engine.countdown_pools, Pools.get_put]
  by_cases hq : q = p
  · subst hq
    simp only [if_true, List.getD_eq_getElem?_getD, List.getElem?_map]
    cases (e.pools.get q)[k]? <;> simp
  · simp [hq]

/-! ### Registers and register status -/

theorem Engine.reg_setReg (r q : Nat) (v : Word c.xlen) (h : r < e.x.length) :
    (e.setReg r v).reg q = if q = r then v else e.reg q := by
  unfold Engine.reg
  by_cases hq : q = r
  · subst hq; simp [List.getD_eq_getElem?_getD, h]
  · simp [List.getD_eq_getElem?_getD, hq, List.getElem?_set_ne (Ne.symm hq)]

theorem Engine.currentTag_markPending (r q : Nat) (t : Tag) (h : r < e.rst.length) :
    (e.markPending r t).currentTag q = if q = r then some t else e.currentTag q := by
  unfold Engine.currentTag
  by_cases hq : q = r
  · subst hq; simp [List.getD_eq_getElem?_getD, h]
  · simp [List.getD_eq_getElem?_getD, hq, List.getElem?_set_ne (Ne.symm hq)]

theorem Engine.currentTag_clearPending (r q : Nat) :
    (e.clearPending r).currentTag q = if q = r then none else e.currentTag q := by
  unfold Engine.currentTag
  by_cases hq : q = r
  · subst hq
    simp only [Engine.clearPending_rst, List.getD_eq_getElem?_getD, List.getElem?_set, if_true]
    split <;> rfl
  · simp [List.getD_eq_getElem?_getD, hq, List.getElem?_set_ne (Ne.symm hq)]

end Sys2Proof.Machine
end

