-- ==== Sys2Proof/Laws/Memory.lean ====
section
/-! SUPPORT. Memory: the canonical form as a proposition, that every memory operation keeps it, and what a read after a write
answers (20_memory R61, R62). -/

namespace Sys2Proof.Machine

variable {w : Nat}

/-- The canonical form as one proposition. -/
theorem Memory.wf_iff (m : Memory w) :
    m.wf = true ↔ (m.map Prod.fst).Pairwise (· < ·) ∧ ∀ cell ∈ m, cell.2 ≠ Memory.unlisted w := by
  unfold Memory.wf
  simp

@[simp] theorem Memory.wf_nil : Memory.wf ([] : Memory w) = true := rfl

theorem Memory.wf_cons (a : Nat) (v : Word w) (m : Memory w) :
    Memory.wf ((a, v) :: m) = true ↔ v ≠ Memory.unlisted w ∧ (∀ cell ∈ m, a < cell.1) ∧ m.wf = true := by
  simp only [Memory.wf_iff, List.map_cons, List.pairwise_cons, List.mem_map, List.mem_cons]
  constructor
  · rintro ⟨⟨h1, h2⟩, h3⟩
    exact ⟨h3 (a, v) (Or.inl rfl), fun cell hc => h1 cell.1 ⟨cell, hc, rfl⟩, h2, fun cell hc => h3 cell (Or.inr hc)⟩
  · rintro ⟨h1, h2, h3, h4⟩
    refine ⟨⟨?_, h3⟩, ?_⟩
    · rintro _ ⟨cell, hc, rfl⟩; exact h2 cell hc
    · rintro cell (rfl | hc)
      · exact h1
      · exact h4 cell hc

theorem Memory.mem_cell {a : Nat} {v : Word w} {cell : Nat × Word w} (h : cell ∈ Memory.cell a v) :
    cell = (a, v) ∧ v ≠ Memory.unlisted w := by
  unfold Memory.cell at h
  split at h
  · cases h
  · simp at h; exact ⟨h, by assumption⟩

/-- A cell after a write is the written one or one from before. -/
theorem Memory.mem_write (m : Memory w) (a : Nat) (v : Word w) (cell : Nat × Word w) (h : cell ∈ m.write a v) :
    cell = (a, v) ∨ cell ∈ m := by
  induction m with
  | nil => exact Or.inl (Memory.mem_cell h).1
  | cons hd rest ih =>
    obtain ⟨b, u⟩ := hd
    simp only [Memory.write] at h
    split at h
    · rcases List.mem_append.1 h with h | h
      · exact Or.inl (Memory.mem_cell h).1
      · exact Or.inr h
    · split at h
      · rcases List.mem_append.1 h with h | h
        · exact Or.inl (Memory.mem_cell h).1
        · exact Or.inr (List.mem_cons_of_mem _ h)
      · rcases List.mem_cons.1 h with h | h
        · exact Or.inr (h ▸ List.mem_cons_self)
        · rcases ih h with h | h
          · exact Or.inl h
          · exact Or.inr (List.mem_cons_of_mem _ h)

theorem Memory.wf_cell_append (a : Nat) (v : Word w) (m : Memory w) (hm : m.wf = true) (h : ∀ cell ∈ m, a < cell.1) :
    Memory.wf (Memory.cell a v ++ m) = true := by
  unfold Memory.cell
  split
  · exact hm
  · exact (Memory.wf_cons a v m).2 ⟨by assumption, h, hm⟩

/-- A write keeps the canonical form. -/
theorem Memory.wf_write (m : Memory w) (a : Nat) (v : Word w) (h : m.wf = true) : (m.write a v).wf = true := by
  induction m with
  | nil => simpa [Memory.write] using Memory.wf_cell_append a v [] rfl (by simp)
  | cons hd rest ih =>
    obtain ⟨b, u⟩ := hd
    obtain ⟨hu, hb, hrest⟩ := (Memory.wf_cons b u rest).1 h
    simp only [Memory.write]
    split
    · apply Memory.wf_cell_append _ _ _ h
      rintro cell hc
      rcases List.mem_cons.1 hc with rfl | hc
      · assumption
      · have := hb cell hc; omega
    · split
      · apply Memory.wf_cell_append _ _ _ hrest
        intro cell hc; have := hb cell hc; omega
      · refine (Memory.wf_cons b u _).2 ⟨hu, ?_, ih hrest⟩
        intro cell hc
        rcases Memory.mem_write rest a v cell hc with rfl | hc
        · simp only; omega
        · exact hb cell hc

/-- A write inside the address space keeps the memory inside it. -/
theorem Memory.within_write (m : Memory w) (a n : Nat) (v : Word w) (h : Memory.Within m n) (ha : a < n) :
    Memory.Within (m.write a v) n := by
  intro cell hc
  rcases Memory.mem_write m a v cell hc with rfl | hc
  · exact ha
  · exact h cell hc

/-- Below the first cell of a canonical memory nothing is listed. -/
theorem Memory.read_of_lt (m : Memory w) (a : Nat) (h : ∀ cell ∈ m, a < cell.1) : m.read a = Memory.unlisted w := by
  induction m with
  | nil => rfl
  | cons hd rest ih =>
    obtain ⟨b, u⟩ := hd
    have hb : a < b := h (b, u) List.mem_cons_self
    have : a ≠ b := by omega
    simp only [Memory.read, this, if_false]
    exact ih fun cell hc => h cell (List.mem_cons_of_mem _ hc)

theorem Memory.read_cell_append (a b : Nat) (v : Word w) (m : Memory w) (h : ∀ cell ∈ m, a < cell.1) :
    Memory.read (Memory.cell a v ++ m) b = if b = a then v else m.read b := by
  unfold Memory.cell
  by_cases hv : v = Memory.unlisted w
  · by_cases hb : b = a
    · subst hb; simp [hv, Memory.read_of_lt m b h]
    · simp [hv, hb]
  · simp [hv, Memory.read]

/-- A read after a write answers the word written at that address and what was there before at every other (R62). -/
theorem Memory.read_write (m : Memory w) (a b : Nat) (v : Word w) (h : m.wf = true) :
    (m.write a v).read b = if b = a then v else m.read b := by
  induction m with
  | nil => simpa [Memory.write] using Memory.read_cell_append a b v [] (by simp)
  | cons hd rest ih =>
    obtain ⟨d, u⟩ := hd
    obtain ⟨-, hd, hrest⟩ := (Memory.wf_cons d u rest).1 h
    simp only [Memory.write]
    split
    · apply Memory.read_cell_append
      rintro cell hc
      rcases List.mem_cons.1 hc with rfl | hc
      · assumption
      · have := hd cell hc; omega
    · split
      · rename_i hlt heq
        subst heq
        rw [Memory.read_cell_append _ _ _ _ hd]
        by_cases hb : b = a <;> simp [Memory.read, hb]
      · by_cases hb : b = d
        · have : b ≠ a := by omega
          simp [Memory.read, hb]
          intro h'; omega
        · simp [Memory.read, hb, ih hrest]

/-- What an access does: nothing outside memory, one word inside it (R61). -/
theorem memWrite_spec {c : Config} (m : Memory c.xlen) (ea : Int) (v : Word c.xlen) (m' : Memory c.xlen)
    (h : memWrite m ea v = some m') : (0 ≤ ea ∧ ea < (c.memWords : Int)) ∧ m' = m.write ea.toNat v := by
  unfold memWrite inMemory at h
  split at h
  · simp_all
  · cases h

theorem memWrite_wf {c : Config} (m : Memory c.xlen) (ea : Int) (v : Word c.xlen) (m' : Memory c.xlen)
    (h : memWrite m ea v = some m') (hm : m.wf = true) (hw : Memory.Within m c.memWords) :
    m'.wf = true ∧ Memory.Within m' c.memWords := by
  obtain ⟨hr, rfl⟩ := memWrite_spec m ea v m' h
  exact ⟨Memory.wf_write _ _ _ hm, Memory.within_write _ _ _ _ hw (by omega)⟩

theorem Memory.foldl_write_ok (n : Nat) (l : List (Nat × Word w)) (m : Memory w) (hm : m.wf = true) (hw : Memory.Within m n)
    (hl : ∀ p ∈ l, p.1 < n) :
    (l.foldl (fun m p => m.write p.1 p.2) m).wf = true ∧ Memory.Within (l.foldl (fun m p => m.write p.1 p.2) m) n := by
  induction l generalizing m with
  | nil => exact ⟨hm, hw⟩
  | cons p rest ih =>
    exact ih _ (Memory.wf_write _ _ _ hm) (Memory.within_write _ _ _ _ hw (hl p List.mem_cons_self))
      fun q hq => hl q (List.mem_cons_of_mem _ hq)

/-- The memory of a list of words is canonical and holds addresses below its length only. -/
theorem Memory.ofWords_ok (vs : List (Word w)) :
    (Memory.ofWords vs).wf = true ∧ Memory.Within (Memory.ofWords vs) vs.length := by
  unfold Memory.ofWords
  apply Memory.foldl_write_ok
  · rfl
  · intro cell hc; cases hc
  · intro p hp
    have := (List.of_mem_zip hp).1
    simpa using this

@[simp] theorem fitTo_length {α : Type} (n : Nat) (d : α) (l : List α) : (fitTo n d l).length = n := by
  simp [fitTo]

/-- The free memory a fault leaves is canonical and inside the address space (60_exceptions R242). -/
theorem Engine.raise_memoryOk {c : Config} (e : Engine c) (f : FaultCode) (i : Nat) : (e.raise f i).MemoryOk := by
  have h := Memory.ofWords_ok (fitTo c.memWords 0 (Config.afterFault c.xlen e.faults).words)
  rw [fitTo_length] at h
  exact ⟨h.1, h.2⟩

/-- The reset state's memory is canonical. -/
theorem State.reset_memory_wf : State.reset.eng.mem.wf = true := rfl

end Sys2Proof.Machine
end

