-- ==== Sys2Proof/Laws/Ops.lean ====
section
/-! SUPPORT. One lemma for each shared operation of the cycle that says everything it can do. -/

namespace Sys2Proof.Machine

variable {c : Config}

/-! ### Choosing a slot -/

theorem lowestIdle_eq_some {w : Nat} (l : Station w) (k : Nat) :
    lowestIdle l = some k ↔ l[k]? = some none ∧ ∀ j < k, ∃ s, l[j]? = some (some s) := by
  unfold lowestIdle
  rw [List.findIdx?_eq_some_iff_getElem]
  constructor
  · rintro ⟨hk, h, hlt⟩
    refine ⟨?_, fun j hj => ?_⟩
    · rw [List.getElem?_eq_getElem hk]; simpa using h
    · have hj' : j < l.length := by omega
      have := hlt j hj
      rw [List.getElem?_eq_getElem hj']
      cases hl : l[j] with
      | none => simp [hl] at this
      | some s => exact ⟨s, rfl⟩
  · rintro ⟨h, hlt⟩
    obtain ⟨hk, h⟩ := List.getElem?_eq_some_iff.1 h
    refine ⟨hk, by simp [h], fun j hj => ?_⟩
    obtain ⟨s, hs⟩ := hlt j hj
    obtain ⟨hj', hs⟩ := List.getElem?_eq_some_iff.1 hs
    simp [hs]

theorem Engine.lowestIdle_iff (e : Engine c) (p : PoolId) (k : Nat) :
    lowestIdle (e.pools.get p) = some k ↔ e.LowestIdle p k := lowestIdle_eq_some _ k

/-- A pool with an idle slot has a lowest one (40_engine_cycle R114, R119). -/
theorem Engine.isAvailable_iff (e : Engine c) (p : PoolId) :
    e.isAvailable p = true ↔ ∃ k, lowestIdle (e.pools.get p) = some k := by
  unfold Engine.isAvailable lowestIdle
  rw [← Option.isSome_iff_exists, List.findIdx?_isSome]

theorem Engine.isAvailable_of_lowestIdle {e : Engine c} {p : PoolId} {k : Nat} (h : e.LowestIdle p k) :
    e.isAvailable p = true := (e.isAvailable_iff p).2 ⟨k, (e.lowestIdle_iff p k).2 h⟩

theorem Engine.full_iff (e : Engine c) (p : PoolId) : e.Full p ↔ e.isAvailable p = false := by
  unfold Engine.Full Engine.isAvailable
  simp

theorem Engine.LowestIdle.lt {e : Engine c} {p : PoolId} {k : Nat} (h : e.LowestIdle p k) :
    k < (e.pools.get p).length := (List.getElem?_eq_some_iff.1 h.1).1

theorem Engine.LowestIdle.idle {e : Engine c} {p : PoolId} {k : Nat} (h : e.LowestIdle p k) : e.slot p k = none := by
  rw [Engine.slot_eq, List.getD_eq_getElem?_getD, h.1]; rfl

/-- The oldest candidate: where `selectFrom` answers, it answers a candidate with the least sequence number (R126). -/
theorem selectFrom_spec {w : Nat} (l : Station w) (b : Nat) :
    (selectFrom b l = none ∧ ∀ (j : Nat) (s : Slot w), l[j]? = some (some s) → s.isCandidate = false) ∨
    (∃ (k : Nat) (s : Slot w), selectFrom b l = some (b + k, s) ∧ l[k]? = some (some s) ∧ s.isCandidate = true ∧
      ∀ (j : Nat) (s' : Slot w), l[j]? = some (some s') → s'.isCandidate = true → s.seq ≤ s'.seq) := by
  induction l generalizing b with
  | nil => exact Or.inl ⟨rfl, by simp⟩
  | cons o rest ih =>
    cases o with
    | none =>
      rcases ih (b + 1) with ⟨h, hn⟩ | ⟨k, s, h, hk, hc, hmin⟩
      · refine Or.inl ⟨by simpa [selectFrom] using h, fun j s hj => ?_⟩
        cases j with
        | zero => simp at hj
        | succ j => exact hn j s (by simpa using hj)
      · refine Or.inr ⟨k + 1, s, by simpa [selectFrom, Nat.add_comm, Nat.add_left_comm] using h, by simpa using hk, hc, fun j s' hj => ?_⟩
        cases j with
        | zero => simp at hj
        | succ j => exact hmin j s' (by simpa using hj)
    | some a =>
      by_cases ha : a.isCandidate = true
      · right
        rcases ih (b + 1) with ⟨h, hn⟩ | ⟨k, s, h, hk, hc, hmin⟩
        · refine ⟨0, a, by simp [selectFrom, ha, h, older], by simp, ha, fun j s' hj hc' => ?_⟩
          cases j with
          | zero => simp at hj; rw [hj]
          | succ j => rw [hn j s' (by simpa using hj)] at hc'; cases hc'
        · by_cases hle : a.seq ≤ s.seq
          · refine ⟨0, a, by simp [selectFrom, ha, h, older, hle], by simp, ha, fun j s' hj hc' => ?_⟩
            cases j with
            | zero => simp at hj; rw [hj]
            | succ j => exact Nat.le_trans hle (hmin j s' (by simpa using hj) hc')
          · refine ⟨k + 1, s, by simp [selectFrom, ha, h, older, hle]; omega, by simpa using hk, hc, fun j s' hj hc' => ?_⟩
            cases j with
            | zero => simp at hj; rw [← hj]; omega
            | succ j => exact hmin j s' (by simpa using hj) hc'
      · rcases ih (b + 1) with ⟨h, hn⟩ | ⟨k, s, h, hk, hc, hmin⟩
        · refine Or.inl ⟨by simpa [selectFrom, ha] using h, fun j s hj => ?_⟩
          cases j with
          | zero => simp at hj; rw [← hj]; simpa using ha
          | succ j => exact hn j s (by simpa using hj)
        · refine Or.inr ⟨k + 1, s, ?_, by simpa using hk, hc, fun j s' hj hc' => ?_⟩
          · simp only [selectFrom, ha, h]; simp; omega
          · cases j with
            | zero => simp at hj; rw [← hj] at hc'; exact absurd hc' ha
            | succ j => exact hmin j s' (by simpa using hj) hc'

/-- A pool with no candidate selects nothing, and a selected slot is a candidate with the least sequence number (R126). -/
theorem selectOldest_spec {w : Nat} (l : Station w) :
    (selectOldest l = none ∧ ∀ (j : Nat) (s : Slot w), l[j]? = some (some s) → s.isCandidate = false) ∨
    (∃ (k : Nat) (s : Slot w), selectOldest l = some (k, s) ∧ l[k]? = some (some s) ∧ s.isCandidate = true ∧
      ∀ (j : Nat) (s' : Slot w), l[j]? = some (some s') → s'.isCandidate = true → s.seq ≤ s'.seq) := by
  simpa [selectOldest] using selectFrom_spec l 0

/-! ### Dispatch -/

/-- Allocation in a pool whose lowest idle slot is `k` (R119, R120, R124). -/
theorem Engine.allocate_of_lowestIdle {e : Engine c} {op : Opcode} {k : Nat} (i : Nat) (r : Resolved c.xlen)
    (h : e.LowestIdle (poolOf op) k) :
    e.allocate op i r =
      { e with
        rst := match r.dest with
          | none => e.rst
          | some d => e.rst.set d (some { pool := poolOf op, slot := k })
        pools := e.pools.put (poolOf op) ((e.pools.get (poolOf op)).set k (some
          { op := op, pidx := i, oj := r.oj, ok := r.ok, dest := r.dest, a := r.a, target := r.target,
            cl := latOf c op, fresh := true, seq := e.seqNext }))
        seqNext := e.seqNext + 1 } := by
  unfold Engine.allocate
  rw [(e.lowestIdle_iff _ k).2 h]
  simp only
  split <;> rename_i hd <;> simp [hd, Engine.setSlot, Engine.markPending]

/-- Everything the dispatch of a head can do: nothing, a rejection, a stall, or a pop with an allocation (R115). -/
theorem Engine.dispatchHead_cases (e : Engine c) (op : Opcode) (used : List RegField) (resolve : Nat → Resolved c.xlen) :
    (e.stream = [] ∧ e.dispatchHead op used resolve = e) ∨
    ((∃ r ∈ used, ¬ r.toNat < c.nreg) ∧ e.dispatchHead op used resolve = e.rejectHead .registerOutOfRange) ∨
    ((∀ r ∈ used, r.toNat < c.nreg) ∧ e.Full (poolOf op) ∧ e.dispatchHead op used resolve = e) ∨
    (∃ i rest k, e.stream = i :: rest ∧ (∀ r ∈ used, r.toNat < c.nreg) ∧ e.LowestIdle (poolOf op) k ∧
      e.dispatchHead op used resolve = Engine.allocate { e with stream := rest } op i (resolve i)) := by
  unfold Engine.dispatchHead
  cases hs : e.stream with
  | nil => exact Or.inl ⟨rfl, rfl⟩
  | cons i rest =>
    right
    by_cases hu : ∀ r ∈ used, r.toNat < c.nreg
    · right
      have hu' : (used.all fun r => decide (r.toNat < c.nreg)) = true := by simpa using hu
      by_cases ha : e.isAvailable (poolOf op) = true
      · obtain ⟨k, hk⟩ := (e.isAvailable_iff _).1 ha
        exact Or.inr ⟨i, rest, k, rfl, hu, (e.lowestIdle_iff _ k).1 hk, by simp only [hu', ha, if_true]⟩
      · refine Or.inl ⟨hu, (e.full_iff _).2 (by simpa using ha), ?_⟩
        simp only [hu', if_true]
        simp [ha]
    · have hu' : ¬ (used.all fun r => decide (r.toNat < c.nreg)) = true := by simpa using hu
      refine Or.inl ⟨by simpa using hu, ?_⟩
      simp only [hu']
      simp

theorem Engine.rejectHead_cons {e : Engine c} {i : Nat} {rest : List Nat} (code : ErrCode) (h : e.stream = i :: rest) :
    e.rejectHead code =
      { e with stream := rest, dropped := e.dropped + 1, errflags := e.errflags.set code, lasterr := some (code, i) } := by
  unfold Engine.rejectHead
  rw [h]; rfl

theorem Engine.rejectHead_nil {e : Engine c} (code : ErrCode) (h : e.stream = []) : e.rejectHead code = e := by
  unfold Engine.rejectHead
  rw [h]

/-! ### Step of the pools -/

/-- Execution answers an event of the slot, and changes memory alone, or raises MemoryAddressOutOfRange for a LOAD or STORE
(R127, 60_exceptions R240). -/
theorem execute_cases (e : Engine c) (t : Tag) (s : Slot c.xlen) :
    (∃ e' ev, execute e t s = .ok (e', ev) ∧ ev.tag = t ∧ ev.pidx = s.pidx ∧ ev.op = s.op ∧
      e' = { e with mem := e'.mem } ∧ (s.op ≠ .store → e'.mem = e.mem) ∧
      (s.op = .store → memWrite e.mem (storeAddress s) s.oj.value = some e'.mem) ∧
      (ev.taken.isSome = true ↔ s.op = .beq)) ∨
    ((s.op = .load ∨ s.op = .store) ∧ execute e t s = .error (.memoryAddressOutOfRange, s.pidx)) := by
  unfold execute
  cases hop : s.op <;> simp only
  case load =>
    unfold completeLoad
    cases memRead e.mem (loadAddress s) with
    | some v => left; exact ⟨e, _, rfl, rfl, rfl, by simp [resultEvent, hop], rfl, by simp, by simp, by simp [resultEvent]⟩
    | none => right; exact ⟨by simp, rfl⟩
  case store =>
    unfold completeStore
    cases hm : memWrite e.mem (storeAddress s) s.oj.value with
    | some m => left; exact ⟨_, _, rfl, rfl, rfl, rfl, rfl, by simp, by simp, by simp⟩
    | none => right; exact ⟨by simp, rfl⟩
  all_goals
    left
    exact ⟨e, _, rfl, rfl, rfl, by simp [completeAdd, completeSub, completeNand, completeBeq, resultEvent, hop], rfl, by simp, by simp,
      by simp [completeAdd, completeSub, completeNand, completeBeq, resultEvent]⟩

/-- A pool's step: its decrements alone when it has no candidate, else the execution of its oldest candidate (R125, R126). -/
theorem Engine.stepPool_cases (e : Engine c) (p : PoolId) :
    (selectOldest ((e.countdown p).pools.get p) = none ∧ e.stepPool p = .ok (e.countdown p, [])) ∨
    (∃ k s, selectOldest ((e.countdown p).pools.get p) = some (k, s) ∧
      ((∃ e' ev, execute (e.countdown p) { pool := p, slot := k } s = .ok (e', ev) ∧ e.stepPool p = .ok (e', [ev])) ∨
        (∃ f, execute (e.countdown p) { pool := p, slot := k } s = .error f ∧ e.stepPool p = .error f))) := by
  simp only [Engine.stepPool]
  cases hsel : selectOldest ((e.countdown p).pools.get p) with
  | none => exact Or.inl ⟨rfl, rfl⟩
  | some ks =>
    obtain ⟨k, s⟩ := ks
    refine Or.inr ⟨k, s, rfl, ?_⟩
    dsimp only
    cases hx : execute (e.countdown p) { pool := p, slot := k } s with
    | error f => exact Or.inr ⟨f, rfl, rfl⟩
    | ok r => exact Or.inl ⟨r.1, r.2, rfl, rfl⟩

/-- A step over pools answers only if each of its pools does, one after another (R135). -/
theorem Engine.stepPools_cons (e : Engine c) (p : PoolId) (ps : List PoolId) (e'' : Engine c) (evs : List (Event c.xlen)) :
    e.stepPools (p :: ps) = .ok (e'', evs) ↔
      ∃ e' ev more, e.stepPool p = .ok (e', ev) ∧ e'.stepPools ps = .ok (e'', more) ∧ evs = ev ++ more := by
  simp only [Engine.stepPools]
  cases h : e.stepPool p with
  | error f => simp
  | ok r =>
    obtain ⟨e', ev⟩ := r
    simp only
    cases h2 : e'.stepPools ps with
    | error f =>
      constructor
      · intro h; cases h
      · rintro ⟨a, b, d, h3, h4, -⟩
        cases h3; rw [h2] at h4; cases h4
    | ok r2 =>
      obtain ⟨e2, more⟩ := r2
      constructor
      · intro h; cases h; exact ⟨e', ev, more, rfl, h2, rfl⟩
      · rintro ⟨a, b, d, h3, h4, rfl⟩
        cases h3; rw [h2] at h4; cases h4; rfl

/-! ### Broadcast, release and redirect -/

/-- Write-back writes the register and clears its status, or does nothing (R129). -/
theorem Engine.writeBack_cases (e : Engine c) (d : Nat) (t : Tag) (v : Word c.xlen) :
    (e.currentTag d = some t ∧ e.writeBack d t v = (e.setReg d v).clearPending d) ∨
    (e.currentTag d ≠ some t ∧ e.writeBack d t v = e) := by
  unfold Engine.writeBack
  by_cases h : e.currentTag d = some t
  · left; simp [h]
  · right; simp [h]

/-- Waking answers the value exactly where the operand waited on the tag (R130). -/
theorem Operand.wake_eq {w : Nat} (o : Operand w) (t : Tag) (v : Word w) :
    o.wake t v = if o = .wait t then .val v else o := by
  cases o with
  | val u => simp [Operand.wake]
  | wait t' => simp [Operand.wake]

/-- A redirect answers a stream that runs from its target to the end of the program, or faults on a negative target (R202). -/
theorem Engine.redirect_cases (e : Engine c) (ev : Event c.xlen) :
    (0 ≤ ev.target ∧ e.redirect ev = .ok { e with stream := streamFrom ev.target.toNat e.progLen }) ∨
    (ev.target < 0 ∧ e.redirect ev = .error (.branchTargetOutOfRange, ev.pidx)) := by
  unfold Engine.redirect
  by_cases h : ev.target < 0
  · right; simp [h]
  · left; simp [h]; omega

/-- Every redirect of a cycle together changes the stream alone, to a run of the program's indices (10_state R30). -/
theorem Engine.redirectAll_ok (e : Engine c) (evs : List (Event c.xlen)) (e' : Engine c) (h : e.redirectAll evs = .ok e') :
    e' = { e with stream := e'.stream } ∧ (e'.stream = e.stream ∨ ∃ k, e'.stream = streamFrom k e.progLen) := by
  induction evs generalizing e with
  | nil => simp only [Engine.redirectAll] at h; cases h; exact ⟨rfl, Or.inl rfl⟩
  | cons ev rest ih =>
    simp only [Engine.redirectAll] at h
    split at h
    · rcases e.redirect_cases ev with ⟨-, hr⟩ | ⟨-, hr⟩
      · rw [hr] at h
        obtain ⟨h1, h2⟩ := ih _ h
        refine ⟨by rw [h1], ?_⟩
        rcases h2 with h2 | h2
        · exact Or.inr ⟨_, h2⟩
        · exact Or.inr h2
      · rw [hr] at h; cases h
    · exact ih _ h

/-- Events without a taken branch, before the rest of a cycle's events, redirect nothing (R202). -/
theorem Engine.redirectAll_append (e : Engine c) (evs more : List (Event c.xlen)) (h : ∀ ev ∈ evs, ev.taken ≠ some true) :
    e.redirectAll (evs ++ more) = e.redirectAll more := by
  induction evs with
  | nil => rfl
  | cons ev rest ih =>
    simp only [List.cons_append, Engine.redirectAll]
    rw [if_neg (h ev List.mem_cons_self), ih fun o ho => h o (List.mem_cons_of_mem _ ho)]

/-! ### The clock edge -/

@[simp] theorem Engine.rejectHead_status (e : Engine c) (code : ErrCode) : (e.rejectHead code).status = e.status := by
  unfold Engine.rejectHead; split <;> rfl

@[simp] theorem Engine.dispatchHead_status (e : Engine c) (op : Opcode) (used : List RegField) (resolve : Nat → Resolved c.xlen) :
    (e.dispatchHead op used resolve).status = e.status := by
  rcases e.dispatchHead_cases op used resolve with ⟨-, h⟩ | ⟨-, h⟩ | ⟨-, -, h⟩ | ⟨i, rest, k, -, -, hk, h⟩
  · rw [h]
  · rw [h, Engine.rejectHead_status]
  · rw [h]
  · have hk' : Engine.LowestIdle { e with stream := rest } (poolOf op) k := hk
    rw [h, Engine.allocate_of_lowestIdle _ _ hk']

/-- Every dispatch answers a next state, which differs in the engine alone, and raises no fault (40_engine_cycle R115, 60_exceptions
R240). -/
theorem exec_next (i : Instr) (s : State) : ∃ e : Engine s.cfg, exec i s = .next { s with eng := e } ∧ e.status = s.eng.status := by
  cases i <;> exact ⟨_, rfl, by first | exact Engine.dispatchHead_status _ _ _ _ | exact Engine.rejectHead_status _ _⟩


/-- Everything one clock edge can do (40_engine_cycle R135, 70_reset_and_hazards R260). -/
theorem step_cases (s : State) :
    (s.resetPin = true ∧ step s = .next s.applyReset) ∨
    (s.resetPin = false ∧ s.eng.status ≠ .running ∧ step s = .next s) ∨
    (s.resetPin = false ∧ s.eng.status = .running ∧ step s = engineCycle s) := by
  unfold step clockEdge
  by_cases h : s.resetPin = true
  · left; simp [h]
  · have h' : s.resetPin = false := by simpa using h
    by_cases hs : s.eng.status = .running
    · right; right; simp [h', hs]
    · right; left; simp [h', hs]

end Sys2Proof.Machine
end

