-- ==== Sys2Proof/Laws/PerInstr.lean ====
section
/-! SUPPORT. Statements made once per constructor of Instr. -/

namespace Sys2Proof.Laws

/-- The mask of an instruction's row of spec/opcode_table.json. -/
def tableMask : Instr → Record
  | .add _ _ _ => 0xE001FFFF
  | .sub _ _ _ => 0xE001FFFF
  | .nand _ _ _ => 0xE001FFFF
  | .load _ _ _ => 0xE01F0000
  | .store _ _ _ => 0xE01F0000
  | .beq _ _ _ => 0xE01F0000
  | .rangeMarker _ => 0xE0000000
  | .malformedMarker _ => 0xE0000000

/-- The match word of an instruction's row of spec/opcode_table.json. -/
def tableMatch : Instr → Record
  | .add _ _ _ => 0x00000000
  | .sub _ _ _ => 0x20000000
  | .nand _ _ _ => 0x40000000
  | .load _ _ _ => 0x60000000
  | .store _ _ _ => 0x80000000
  | .beq _ _ _ => 0xA0000000
  | .rangeMarker _ => 0xC0000000
  | .malformedMarker _ => 0xE0000000

/-- An instruction's word has the fixed bits of its own row of the opcode table (30_encoding R88, R91). -/
def OwnRow.Statement (i : Instr) : Prop := encode i &&& tableMask i = tableMatch i

theorem ownRow_rrr (op : BitVec 3) (ra rb rc : RegField) : packRRR op ra rb rc &&& 0xE001FFFF = place op 29 := by
  apply BitVec.eq_of_getLsbD_eq
  intro i hi
  interval_cases i <;> simp [packRRR, place]

theorem ownRow_rri (op : BitVec 3) (ra rb : RegField) (imm : Imm) :
    packRRI op ra rb imm &&& 0xE01F0000 = place op 29 := by
  apply BitVec.eq_of_getLsbD_eq
  intro i hi
  interval_cases i <;> simp [packRRI, place]

theorem ownRow_marker (op : BitVec 3) (rest : BitVec 29) : packMarker op rest &&& 0xE0000000 = place op 29 := by
  apply BitVec.eq_of_getLsbD_eq
  intro i hi
  interval_cases i <;> simp [packMarker, place]

theorem OwnRow.add (ra rb rc : RegField) : OwnRow.Statement (.add ra rb rc) := ownRow_rrr 0 ra rb rc

theorem OwnRow.sub (ra rb rc : RegField) : OwnRow.Statement (.sub ra rb rc) := ownRow_rrr 1 ra rb rc

theorem OwnRow.nand (ra rb rc : RegField) : OwnRow.Statement (.nand ra rb rc) := ownRow_rrr 2 ra rb rc

theorem OwnRow.load (ra rb : RegField) (imm : Imm) : OwnRow.Statement (.load ra rb imm) := ownRow_rri 3 ra rb imm

theorem OwnRow.store (ra rb : RegField) (imm : Imm) : OwnRow.Statement (.store ra rb imm) := ownRow_rri 4 ra rb imm

theorem OwnRow.beq (ra rb : RegField) (imm : Imm) : OwnRow.Statement (.beq ra rb imm) := ownRow_rri 5 ra rb imm

theorem OwnRow.rangeMarker (rest : BitVec 29) : OwnRow.Statement (.rangeMarker rest) := ownRow_marker 6 rest

theorem OwnRow.malformedMarker (rest : BitVec 29) : OwnRow.Statement (.malformedMarker rest) := ownRow_marker 7 rest

end Sys2Proof.Laws
end

