-- ==== Sys2Proof/Laws/Run.lean ====
section
/-! SUPPORT. The equations of a run and of its results (70_reset_and_hazards R265). -/

namespace Sys2Proof.Machine

@[simp] theorem State.results_eq (s : State) : s.results = s.eng.results := rfl

/-- Only a normal end has results. -/
theorem Engine.results_of_not_halted {c : Config} {e : Engine c} (h : e.status ≠ .halted) : e.results = none := by
  unfold Engine.results
  split <;> first | rfl | exact absurd ‹_› h

theorem Engine.results_of_halted {c : Config} {e : Engine c} (h : e.status = .halted) :
    e.results = some
      { x := e.x, mem := e.mem, completed := e.completed, dropped := e.dropped, errflags := e.errflags, lasterr := e.lasterr,
        cycle := e.cycle } := by
  unfold Engine.results
  rw [h]

theorem State.runEnd_of_halted {s : State} (n : Nat) (h : s.eng.status = .halted) : s.runEnd n = .normal s := by
  unfold State.runEnd
  rw [h]

theorem State.runEnd_of_faulted {s : State} (n : Nat) (h : s.eng.status = .faulted) : s.runEnd n = .faulted s := by
  unfold State.runEnd
  rw [h]

theorem State.runEnd_zero {s : State} (h : s.eng.status = .running) : s.runEnd 0 = .unfinished s := by
  unfold State.runEnd
  rw [h]

/-- While Running, a run goes on with the state its next edge answers. -/
theorem State.runEnd_succ {s t : State} (n : Nat) (h : s.eng.status = .running) (ht : step s = .next t) :
    s.runEnd (n + 1) = t.runEnd n := by
  rw [State.runEnd, h, ht]

/-- The host's run of `k + 1` steps is its run of `k` steps from the state the first one answers. -/
theorem run_succ {s t : State} (k : Nat) (ht : step s = .next t) :
    Host.Core.run Sys2Proof.core (k + 1) s = Host.Core.run Sys2Proof.core k t := by
  have h : Sys2Proof.core.step s = .next t := ht
  simp only [Host.Core.run, h]

end Sys2Proof.Machine
end

