-- ==== Sys2Proof/Tests/Slice0.lean ====
section
/-! SUPPORT. Small tests, expected results taken from the spec's tables and worked examples (95_test_vectors), and for every statement
with hypotheses a concrete state that meets them. -/

namespace Sys2Proof.Tests

open Sys2Proof.Machine

/-! ### Helpers -/

/-- The state an outcome answers; the reset state where it answers none. -/
def nextOf (o : Host.Outcome State Fault Refusal) : State :=
  match o with
  | .next t => t
  | .fault _ => State.reset
  | .refused _ => State.reset

/-- An outcome answers a state that has not faulted. -/
def answersSound (o : Host.Outcome State Fault Refusal) : Bool :=
  match o with
  | .next t => decide (t.eng.status ≠ .faulted)
  | .fault _ => false
  | .refused _ => false

/-- An outcome answers a state with this fault recorded. -/
def answersFault (o : Host.Outcome State Fault Refusal) (f : FaultCode) (i : Nat) : Bool :=
  match o with
  | .next t => decide (t.eng.fault = some (f, i))
  | .fault _ => false
  | .refused _ => false

theorem exists_of_answersSound {o : Host.Outcome State Fault Refusal} (h : answersSound o = true) :
    ∃ t, o = .next t ∧ t.eng.status ≠ .faulted := by
  cases o with
  | next t => exact ⟨t, rfl, by simpa [answersSound] using h⟩
  | fault f => cases h
  | refused r => cases h

theorem exists_of_answersFault {o : Host.Outcome State Fault Refusal} {f : FaultCode} {i : Nat} (h : answersFault o f i = true) :
    ∃ t, o = .next t ∧ t.eng.fault = some (f, i) := by
  cases o with
  | next t => exact ⟨t, rfl, by simpa [answersFault] using h⟩
  | fault f => cases h
  | refused r => cases h

/-- RC with a cycle limit, registers R0 to R7 holding 0, 7, 2, 3, 0, 0, 0, FFFF, and `mem[6] = 9`. -/
def launchedIn (limit : Option Nat) (prog : List Record) : State :=
  State.launch { Config.reference with maxCycles := limit } prog [0, 7, 2, 3, 0, 0, 0, 0xFFFF] [(6, 9)]

/-- `launchedIn` without a cycle limit, which is RC. -/
abbrev launched (prog : List Record) : State := launchedIn none prog

/-- `launched` with nothing pending and one busy slot, the first of its pool. -/
def withSlot (p : PoolId) (b : Slot 16) : State :=
  { launched [] with eng := { (launched []).eng.setSlot p 0 (some b) with seqNext := b.seq + 1 } }

/-- A slot that completes at the next cycle. -/
def dueSlot (op : Opcode) (vj vk : Word 16) (dest : Option Nat) (a : Int) (target : Int) : Slot 16 :=
  { op := op, pidx := 0, oj := .val vj, ok := .val vk, dest := dest, a := a, target := target, cl := 1, fresh := false, seq := 0 }

theorem launchedIn_slot (limit : Option Nat) (prog : List Record) (p : PoolId) (k : Nat) : (launchedIn limit prog).eng.slot p k = none := by
  change ((idlePools { Config.reference with maxCycles := limit }).get p).getD k none = none
  rw [idlePools_get, List.getD_eq_getElem?_getD, List.getElem?_replicate]
  split <;> rfl

theorem launchedIn_sized (limit : Option Nat) (prog : List Record) : (launchedIn limit prog).eng.Sized :=
  ⟨rfl, rfl, fun p => by cases p <;> rfl⟩

theorem launchedIn_memoryOk (limit : Option Nat) (prog : List Record) : (launchedIn limit prog).eng.MemoryOk :=
  ⟨(by decide : Memory.wf ([(6, 9)] : Memory 16) = true), fun cell hc => by
    have hc' : cell ∈ ([(6, 9)] : Memory 16) := hc
    cases List.mem_singleton.1 hc'
    exact (by decide : 6 < 64)⟩

theorem launchedIn_streamOk (limit : Option Nat) (prog : List Record) : (launchedIn limit prog).StreamOk :=
  ⟨rfl, fun _ => ⟨0, by
    change List.range prog.length = List.range' 0 (prog.length - 0)
    rw [List.range_eq_range']; rfl⟩⟩

theorem launchedIn_currentTag (limit : Option Nat) (prog : List Record) (r : Nat) : (launchedIn limit prog).eng.currentTag r = none := by
  change (List.replicate 8 none).getD r none = none
  rw [List.getD_eq_getElem?_getD, List.getElem?_replicate]
  split <;> rfl

/-- Every launched state of these tests is sound. -/
theorem launchedIn_inv (limit : Option Nat) (prog : List Record) : (launchedIn limit prog).Inv where
  sized := launchedIn_sized limit prog
  memory := launchedIn_memoryOk limit prog
  stream := launchedIn_streamOk limit prog
  coherent := fun _ =>
    { slotPool := fun p k s h => by rw [launchedIn_slot] at h; cases h
      slotDest := fun p k s h => by rw [launchedIn_slot] at h; cases h
      destBound := fun p k s d h => by rw [launchedIn_slot] at h; cases h
      seqBound := fun p k s h => by rw [launchedIn_slot] at h; cases h
      seqUnique := fun p k s p' k' s' h => by rw [launchedIn_slot] at h; cases h
      waitLive := fun p k s t h => by rw [launchedIn_slot] at h; cases h
      pendingLive := fun r t h => by rw [launchedIn_currentTag] at h; cases h
      settled := fun p k s h => by rw [launchedIn_slot] at h; cases h }
  faults := by constructor <;> intro h <;> cases h
  halted := by intro h; cases h

theorem withSlot_slot (p : PoolId) (b : Slot 16) (q : PoolId) (k : Nat) :
    (withSlot p b).eng.slot q k = if q = p ∧ k = 0 then some b else none := by
  have h := Engine.slot_setSlot (launched []).eng p q 0 k (some b) (by cases p <;> decide)
  rw [launchedIn_slot] at h
  exact h

theorem withSlot_eq {p : PoolId} {b : Slot 16} {q : PoolId} {k : Nat} {s : Slot 16}
    (h : (withSlot p b).eng.slot q k = some s) : q = p ∧ k = 0 ∧ s = b := by
  rw [withSlot_slot] at h
  split at h
  · rename_i hq; cases h; exact ⟨hq.1, hq.2, rfl⟩
  · cases h

/-- A state with one due slot in its own pool is sound. -/
theorem withSlot_inv (op : Opcode) (vj vk : Word 16) (dest : Option Nat) (a target : Int)
    (hd : dest.isSome = op.writesRegister) (hr : ∀ d, dest = some d → d < 8) (hl : 1 ≤ latOf Config.reference op) :
    (withSlot (poolOf op) (dueSlot op vj vk dest a target)).Inv where
  sized := ⟨rfl, rfl, fun p => by cases op <;> cases p <;> rfl⟩
  memory := ⟨(launchedIn_memoryOk none []).canonical, (launchedIn_memoryOk none []).within⟩
  stream := ⟨rfl, (launchedIn_streamOk none []).suffix⟩
  coherent := fun _ =>
    { slotPool := fun p k s h => by obtain ⟨rfl, -, rfl⟩ := withSlot_eq h; rfl
      slotDest := fun p k s h => by obtain ⟨-, -, rfl⟩ := withSlot_eq h; exact hd
      destBound := fun p k s d h h2 => by obtain ⟨-, -, rfl⟩ := withSlot_eq h; exact hr d h2
      seqBound := fun p k s h => by obtain ⟨-, -, rfl⟩ := withSlot_eq h; exact Nat.one_pos
      seqUnique := fun p k s p' k' s' h h' _ => by
        obtain ⟨rfl, rfl, -⟩ := withSlot_eq h
        obtain ⟨rfl, rfl, -⟩ := withSlot_eq h'
        exact ⟨rfl, rfl⟩
      waitLive := fun p k s t h hw => by
        obtain ⟨-, -, rfl⟩ := withSlot_eq h
        rcases hw with hw | hw <;> cases hw
      pendingLive := fun r t h => by
        have h' : (launched []).eng.currentTag r = some t := h
        rw [launchedIn_currentTag] at h'; cases h'
      settled := fun p k s h => by obtain ⟨-, -, rfl⟩ := withSlot_eq h; exact ⟨rfl, hl⟩ }
  faults := by constructor <;> intro h <;> cases h
  halted := by intro h; cases h

/-! ### Well-formedness: one ill-formed term for each check -/

theorem test_wellFormed_add_ra : (Instr.add 8 0 0).wellFormed 8 = false := by decide
theorem test_wellFormed_sub_rb : (Instr.sub 0 8 0).wellFormed 8 = false := by decide
theorem test_wellFormed_nand_rc : (Instr.nand 0 0 8).wellFormed 8 = false := by decide
theorem test_wellFormed_load_rb : (Instr.load 0 8 0).wellFormed 8 = false := by decide
theorem test_wellFormed_store_ra : (Instr.store 8 0 0).wellFormed 8 = false := by decide
theorem test_wellFormed_beq_rb : (Instr.beq 0 15 0).wellFormed 8 = false := by decide
theorem test_wellFormed_top_register : (Instr.add 7 7 7).wellFormed 8 = true := by decide

/-! ### Decoding: the table of 95_test_vectors 2.1, NREG = 8 -/

theorem test_decode_add : decode 8 0x02460000 = .inst (.add 1 2 3) := by decide
theorem test_decode_sub : decode 8 0x28240000 = .inst (.sub 4 1 2) := by decide
theorem test_decode_nand : decode 8 0x4A860000 = .inst (.nand 5 4 3) := by decide
theorem test_decode_load : decode 8 0x6200FFFF = .inst (.load 1 0 0xFFFF) := by decide
theorem test_decode_store : decode 8 0x82400000 = .inst (.store 1 2 0) := by decide
theorem test_decode_beq : decode 8 0xA0008000 = .inst (.beq 0 0 0x8000) := by decide
theorem test_decode_malformed_marker : decode 8 0xFFFFFFFF = .reject .malformedOperand := by decide
theorem test_decode_range_marker : decode 8 0xDFFFFFFF = .reject .registerOutOfRange := by decide
theorem test_decode_malformed_first : decode 8 0x1E000001 = .reject .malformedOperand := by decide
theorem test_decode_out_of_range : decode 8 0x61000000 = .reject .registerOutOfRange := by decide
theorem test_decode_load_rc : decode 8 0x60020000 = .reject .malformedOperand := by decide
theorem test_decode_beq_z : decode 8 0xA0010000 = .reject .malformedOperand := by decide
theorem test_decodeTableWord_beq : decodeTableWord 32 0xA000FFF4 = some (.beq 0 0 0xFFF4) := by decide
theorem test_encode_load : encode (.load 5 2 4) = 0x6A400004 := by decide
theorem test_encode_store : encode (.store 3 0 64) = 0x86000040 := by decide

/-! ### Text: 95_test_vectors 2.1, and R81 for a token with a comma inside it (log entry 16) -/

theorem test_text_add : transcribeLine 8 "ADD R1, R2, R3".toList = some 0x02460000 := by decide
theorem test_text_load : transcribeLine 8 "LOAD R1, -1(R0)".toList = some 0x6200FFFF := by decide
theorem test_text_base_two_digits : transcribeLine 8 "LOAD R1, 0(R10)".toList = some 0xE0000000 := by decide
theorem test_text_displacement_range : transcribeLine 8 "LOAD R1, 40000(R2)".toList = some 0xE0000000 := by decide
theorem test_text_case : transcribeLine 8 "add R1, R2, R3".toList = some 0xE0000000 := by decide
theorem test_text_count : transcribeLine 8 "ADD R1, R2".toList = some 0xE0000000 := by decide
theorem test_text_range : transcribeLine 8 "ADD R9, R1, R2".toList = some 0xC0000000 := by decide
theorem test_text_hex : transcribeLine 8 "BEQ R1, R2, 0x10".toList = some 0xE0000000 := by decide
theorem test_text_blank : transcribeLine 8 " ".toList = none := by decide
theorem test_text_inner_comma : transcribeLine 8 "ADD R1,R2,R3".toList = some 0xE0000000 := by decide

/-! ### Arithmetic, addresses, targets: 95_test_vectors 2.2 to 2.4 -/

theorem test_add_wraps : addWords (0xFFFF : Word 16) 1 = 0 := by decide
theorem test_add_signed_overflow : addWords (0x7FFF : Word 16) 1 = 0x8000 := by decide
theorem test_sub_borrows : subWords (0 : Word 16) 1 = 0xFFFF := by decide
theorem test_sub_order : subWords (8 : Word 16) 5 = 3 := by decide
theorem test_nand_mixed : nandWords (0xF0F0 : Word 16) 0x0FF0 = 0xFF0F := by decide
theorem test_nand_zero : nandWords (0 : Word 16) 0 = 0xFFFF := by decide
theorem test_address_signed_base : effectiveAddress 1 (0xFFFF : Word 16) = 0 := by decide
theorem test_address_last_word : inMemory Config.reference 63 = true ∧ inMemory Config.reference 64 = false := by decide
theorem test_target_negative_floor : branchTarget Config.reference 0 0xFFFB = -1 := by decide
theorem test_target_floor : branchTarget Config.reference 0 3 = 1 ∧ branchTarget Config.reference 0 0xFFFF = 0 := by decide

/-! ### One step: 95_test_vectors 2.5 and the first cycles of part 3 -/

/-- P1, cycle 1: `ADD R1, R2, R3` into ADD slot 0, `rst[1]` names it, countdown 2. -/
theorem test_step_add_dispatch :
    let t := nextOf (step (launched [0x02460000]))
    t.eng.currentTag 1 = some { pool := .add, slot := 0 } ∧
      (t.eng.slot .add 0).map (fun b => (b.op, b.cl, b.fresh)) = some (.add, 2, false) := by decide

/-- P1: `ADD` reads its second and third fields. -/
theorem test_step_add_operands :
    ((nextOf (step (launched [0x02460000]))).eng.slot .add 0).map (fun b => (b.oj.value.toNat, b.ok.value.toNat)) = some (2, 3) := by
  decide

/-- ADD due: `5 + 3` is in flight, and its event counts as completed. -/
theorem test_step_add_completes :
    (nextOf (step (withSlot .add (dueSlot .add 5 3 (some 1) 0 0)))).eng.completed = 1 := by decide

/-- SUB dispatch takes the latency of SUB in the ADD pool. -/
theorem test_step_sub_dispatch :
    ((nextOf (step (launched [0x28240000]))).eng.slot .add 0).map (fun b => (b.op, b.dest)) = some (.sub, some 4) := by decide

/-- NAND is dispatched to its own pool. -/
theorem test_step_nand_dispatch :
    ((nextOf (step (launched [0x4A860000]))).eng.slot .nand 0).map (fun b => (b.op, b.dest)) = some (.nand, some 5) := by decide

/-- `LOAD R5, 4(R2)`, base 2: displacement 4, base value 2. -/
theorem test_step_load_dispatch :
    ((nextOf (step (launched [0x6A400004]))).eng.slot .load 0).map (fun b => (loadAddress b, b.dest)) = some (6, some 5) := by decide

/-- LOAD at -1 faults with code 8 when it completes (F1). -/
theorem test_step_load_faults :
    answersFault (step (withSlot .load (dueSlot .load 0 0 (some 1) (-1) 0))) .memoryAddressOutOfRange 0 = true := by decide

/-- `STORE R1, 0(R2)`: address 2, value 7, no destination. -/
theorem test_step_store_dispatch :
    ((nextOf (step (launched [0x82400000]))).eng.slot .store 0).map (fun b => (storeAddress b, b.oj.value.toNat, b.dest)) =
      some (2, 7, none) := by decide

/-- P2, cycle 2: the STORE writes `mem[2]`. -/
theorem test_step_store_completes :
    ((nextOf (step (withSlot .store (dueSlot .store 7 2 none 0 0)))).eng.mem.read 2).toNat = 7 := by decide

/-- `BEQ R1, R2, 8` at index 0: target 3 (V5). -/
theorem test_step_beq_dispatch :
    ((nextOf (step (launched [0xA2400008]))).eng.slot .beq 0).map (fun b => (b.target, b.dest)) = some (3, none) := by decide

/-- F2: a taken branch to -1 faults with code 9. -/
theorem test_step_beq_faults :
    answersFault (step (withSlot .beq (dueSlot .beq 1 1 none 0 (-1)))) .branchTargetOutOfRange 0 = true := by decide

/-- F3, cycle 1: the malformed marker is dropped and recorded. -/
theorem test_step_malformed_marker :
    let t := nextOf (step (launched [0xE0000000]))
    t.eng.dropped = 1 ∧ t.eng.lasterr = some (.malformedOperand, 0) ∧ t.statusBlock 5 = 1 := by decide

/-- F3, cycle 2: the range marker sets the range flag. -/
theorem test_step_range_marker :
    (nextOf (step (launched [0xC0000000]))).statusBlock 4 = 2 := by decide

/-- F5: an empty program halts at the first edge with `cycle = 0`; STATUS then reads 0x101. -/
theorem test_step_empty_program :
    let t := nextOf (step (launched []))
    t.eng.status = .halted ∧ t.eng.cycle = 0 ∧ t.statusBlock 0 = 0x101 := by decide

/-- 95_test_vectors 2.6: after reset with N = 4 STATUS reads 0 and PROGLEN 4. -/
theorem test_status_after_reset :
    (launched [0, 0, 0, 0]).statusBlock 0 = 0 ∧ (launched [0, 0, 0, 0]).statusBlock 7 = 4 := by decide

/-- F3: LASTERR names code 2 and index 1 after the range marker. -/
theorem test_lasterr_range : (nextOf (step (nextOf (step (launched [0xE0000000, 0xC0000000]))))).statusBlock 5 = 0x00010002 := by decide

/-- F5: the empty program's results are `cycle = 0`, nothing completed or dropped, and the launched words; a running state has none. -/
theorem test_results_empty_program :
    (nextOf (step (launched []))).eng.results.map (fun r => (r.cycle, r.completed, r.dropped, r.lasterr)) = some (0, 0, 0, none) ∧
      (launched []).eng.results.isNone = true := by decide

/-- A placed word is fetched and dispatched by the first step after reset. -/
theorem test_withFetchWord_runs :
    ((nextOf (step (State.reset.withFetchWord 32 0x02460000))).eng.slot .add 0).map (fun b => b.op) = some .add := by decide

/-- 00_scope R8 in RC: slot index 2 bits, tag 5 bits. -/
theorem test_widths : slotWidth Config.reference = 2 ∧ tagWidth Config.reference = 5 ∧ countdownWidth Config.reference = 2 := by
  decide

/-- 30_encoding R95: the tag of LOAD slot 1. -/
theorem test_tag_bits : (Tag.bits Config.reference { pool := .load, slot := 1 }).toNat = 9 := by decide

/-- V7: five completions of a program of five give 100 percent; an empty program gives no value (70 R266). -/
theorem test_icp :
    ({ launched [0, 0, 0, 0, 0] with
      eng := { (launched [0, 0, 0, 0, 0]).eng with status := .halted, completed := 5 } } : State).icp = some 100 ∧
      (nextOf (step (launched []))).icp = none := by decide +kernel

/-- 10_state R42: the window of RC shows words 0 to 7. -/
theorem test_observation : (launched []).observation.window.map BitVec.toNat = [0, 0, 0, 0, 0, 0, 9, 0] := by decide

/-! ### Witnesses: for each statement with hypotheses, a state and operands that meet them, at a boundary for each clause -/

/-- `launched` with the first `n` slots of a pool busy. -/
def crowded (p : PoolId) (n : Nat) (prog : List Record) : State :=
  { launched prog with eng := { (launched prog).eng with
      pools := (launched prog).eng.pools.put p
        (List.replicate n (some (dueSlot .add 0 0 (some 0) 0 0)) ++ List.replicate (capOf Config.reference p - n) none) } }

/-- The engine of a state after the decrements and execution of one pool, where it answers one. -/
def poolAnswers {c : Config} (e : Engine c) (p : PoolId) : Bool :=
  match e.stepPool p with
  | .ok _ => true
  | .error _ => false

theorem exists_of_poolAnswers {c : Config} {e : Engine c} {p : PoolId} (h : poolAnswers e p = true) :
    ∃ e' evs, e.stepPool p = .ok (e', evs) := by
  unfold poolAnswers at h
  cases hx : e.stepPool p with
  | ok r => exact ⟨r.1, r.2, rfl⟩
  | error f => rw [hx] at h; cases h

theorem test_witness_EncodeOfDecode : decodeRecord 0xA0007FFF = some (.beq 0 0 0x7FFF) := by decide

theorem test_witness_TranscriptionIsDispatchable :
    8 ≤ 16 ∧ transcribeLine 8 "STORE R1, 0(R2)".toList = some 0x82400000 := by decide

theorem test_witness_TagBitsAreUnique :
    ∃ t t' : Tag, t.slot < capOf Config.reference t.pool ∧ t'.slot < capOf Config.reference t'.pool ∧
      t.bits Config.reference = t'.bits Config.reference :=
  ⟨{ pool := .add, slot := 2 }, { pool := .add, slot := 2 }, by decide, by decide, rfl⟩

theorem test_witness_AddDispatchAllocates :
    let s := crowded .add 2 [0]
    s.eng.stream = 0 :: [] ∧ (7 : RegField).toNat < s.cfg.nreg ∧ s.eng.LowestIdle .add 2 :=
  ⟨by decide, by decide, (Engine.lowestIdle_iff _ _ _).1 (by decide)⟩

theorem test_witness_SubDispatchAllocates :
    let s := launched [0x28240000]
    s.eng.stream = 0 :: [] ∧ (4 : RegField).toNat < s.cfg.nreg ∧ (1 : RegField).toNat < s.cfg.nreg ∧ s.eng.LowestIdle .add 0 :=
  ⟨by decide, by decide, by decide, (Engine.lowestIdle_iff _ _ _).1 (by decide)⟩

theorem test_witness_NandDispatchAllocates :
    let s := crowded .nand 1 [0]
    s.eng.stream = 0 :: [] ∧ (7 : RegField).toNat < s.cfg.nreg ∧ s.eng.LowestIdle .nand 1 :=
  ⟨by decide, by decide, (Engine.lowestIdle_iff _ _ _).1 (by decide)⟩

theorem test_witness_LoadDispatchAllocates :
    let s := crowded .load 1 [0]
    s.eng.stream = 0 :: [] ∧ (7 : RegField).toNat < s.cfg.nreg ∧ s.eng.LowestIdle .load 1 :=
  ⟨by decide, by decide, (Engine.lowestIdle_iff _ _ _).1 (by decide)⟩

theorem test_witness_StoreDispatchAllocates :
    let s := crowded .store 1 [0]
    s.eng.stream = 0 :: [] ∧ (7 : RegField).toNat < s.cfg.nreg ∧ s.eng.LowestIdle .store 1 :=
  ⟨by decide, by decide, (Engine.lowestIdle_iff _ _ _).1 (by decide)⟩

theorem test_witness_BeqDispatchAllocates :
    let s := launched [0xA2400008]
    s.eng.stream = 0 :: [] ∧ (7 : RegField).toNat < s.cfg.nreg ∧ s.eng.LowestIdle .beq 0 :=
  ⟨by decide, by decide, (Engine.lowestIdle_iff _ _ _).1 (by decide)⟩

theorem test_witness_MarkersAreRejected : (launched [0xC0000000]).eng.stream = 0 :: [] := by decide

theorem test_witness_RejectionDropsTheHead :
    let s := crowded .add 3 [0x1E000001, 0x10000000]
    s.eng.stream = 0 :: [1] ∧ decode s.cfg.nreg 0x1E000001 = .reject .malformedOperand ∧
      decode s.cfg.nreg 0x10000000 = .reject .registerOutOfRange := by decide

theorem test_witness_StructuralStallChangesNothing :
    let s := crowded .beq 1 [0xA2400008]
    (Instr.beq 1 2 8).opcode = some .beq ∧ (Instr.beq 1 2 8).wellFormed s.cfg.nreg = true ∧ s.eng.Full (poolOf .beq) :=
  ⟨by decide, by decide, (Engine.full_iff _ _).2 (by decide)⟩

theorem test_witness_DispatchFrame :
    ∃ t, exec (.add 1 2 3) (launched [0x02460000]) = .next t ∧ t.eng.status ≠ .faulted :=
  exists_of_answersSound (by decide)

theorem test_witness_SourceResolution :
    (launched []).eng.currentTag (2 : RegField).toNat = none ∧
      (nextOf (step (launched [0x02460000]))).eng.currentTag (1 : RegField).toNat = some { pool := .add, slot := 0 } := by decide

theorem test_witness_StepRunsDecodedInstruction :
    let s := launched [0x02460000]
    s.resetPin = false ∧ s.eng.status = .running ∧ s.eng.guardTrips = false ∧ s.eng.stream = 0 :: [] ∧
      s.prog[0]? = some 0x02460000 ∧ decodeRecord 0x02460000 = some (.add 1 2 3) := by decide

theorem test_witness_StepRunsDecodedInstruction_undecodable :
    let s := launched [0x00010000]
    s.resetPin = false ∧ s.eng.status = .running ∧ s.eng.guardTrips = false ∧ s.eng.stream = 0 :: [] ∧
      s.prog[0]? = some 0x00010000 ∧ decodeRecord 0x00010000 = none := by decide

theorem test_witness_StepRunsDecodedInstruction_empty :
    let s := withSlot .add (dueSlot .add 5 3 (some 1) 0 0)
    s.resetPin = false ∧ s.eng.status = .running ∧ s.eng.guardTrips = false ∧ s.eng.stream = [] ∧ s.eng.anyBusy = true := by
  decide

theorem test_witness_AddCompletesWithSum :
    let b := dueSlot .add 0xFFFF 1 (some 1) 0 0
    b.op = .add ∧ b.oj = .val 0xFFFF ∧ b.ok = .val 1 := by decide

theorem test_witness_SubCompletesWithDifference :
    let b := dueSlot .sub 0 1 (some 1) 0 0
    b.op = .sub ∧ b.oj = .val 0 ∧ b.ok = .val 1 := by decide

theorem test_witness_NandCompletesWithNand :
    let b := dueSlot .nand 0xF0F0 0x0FF0 (some 1) 0 0
    b.op = .nand ∧ b.oj = .val 0xF0F0 ∧ b.ok = .val 0x0FF0 := by decide

theorem test_witness_LoadReadsItsAddress :
    let b := dueSlot .load 63 0 (some 1) 0 0
    b.op = .load ∧ b.oj = .val 63 ∧ (0 ≤ loadAddress b ∧ loadAddress b < 64) ∧ ¬ loadAddress { b with a := 1 } < 64 := by decide

theorem test_witness_StoreWritesItsAddress :
    let b := dueSlot .store 7 63 none 0 0
    b.op = .store ∧ b.oj = .val 7 ∧ b.ok = .val 63 ∧ (launched []).eng.mem.wf = true ∧
      (0 ≤ storeAddress b ∧ storeAddress b < 64) ∧ ¬ storeAddress { b with a := 1 } < 64 := by decide

theorem test_witness_BeqComparesBitByBit :
    let b := dueSlot .beq 1 0 none 0 3
    b.op = .beq ∧ b.oj = .val 1 ∧ b.ok = .val 0 := by decide

theorem test_witness_PoolStepDecrementsOnce :
    let s := withSlot .add (dueSlot .add 5 3 (some 1) 0 0)
    (∃ e' evs, s.eng.stepPool .add = .ok (e', evs)) ∧ s.eng.slot .add 1 = none ∧
      s.eng.slot .add 0 = some (dueSlot .add 5 3 (some 1) 0 0) ∧ 0 < (dueSlot .add 5 3 (some 1) 0 0).cl :=
  ⟨exists_of_poolAnswers (by decide), by decide, rfl, by decide⟩

/-- An event of ADD slot 0 for register 1. -/
def sampleEvent : Event 16 :=
  { tag := { pool := .add, slot := 0 }, pidx := 0, op := .add, dest := some 1, value := some 8, taken := none, target := 0 }

theorem test_witness_WriteBackFollowsTheTag :
    let e := (nextOf (step (launched [0x02460000]))).eng
    sampleEvent.dest = some 1 ∧ sampleEvent.value = some 8 ∧ 1 < e.x.length ∧ e.currentTag 1 = some sampleEvent.tag ∧
      (launched []).eng.currentTag 1 ≠ some sampleEvent.tag := by decide

theorem test_witness_WakeReachesEveryWaiter :
    sampleEvent.dest = some 1 ∧ sampleEvent.value = some 8 ∧
      ((nextOf (step (nextOf (step (launched [0x02460000, 0x28240000]))))).eng.slot .add 1).map (fun b => b.oj.isVal) =
        some false := by decide

theorem test_witness_BroadcastOrderIsIrrelevant :
    sampleEvent.tag ≠ ({ sampleEvent with tag := { pool := .load, slot := 0 } } : Event 16).tag := by decide

theorem test_witness_RedirectReplacesTheStream :
    let ev : Event 16 := { sampleEvent with op := .beq, dest := none, value := none, taken := some true, target := 0 }
    (∀ o ∈ [sampleEvent] ++ [{ sampleEvent with op := .load }], o.taken ≠ some true) ∧
      ev.taken = some true ∧ 0 ≤ ev.target ∧ ({ ev with target := -1 } : Event 16).target < 0 ∧
      ({ ev with taken := some false } : Event 16).taken ≠ some true := by decide

theorem test_witness_BranchTargetRoundsDown :
    1 ≤ Config.reference.iw ∧ (4 : Int) * (-2) ≤ (0xFFFB : Imm).toInt ∧ (0xFFFB : Imm).toInt < (4 : Int) * (-2 + 1) := by decide

/-- The state of one due LOAD slot. -/
abbrev dueLoad (a : Int) : State := withSlot .load (dueSlot .load 6 0 (some 5) a 0)

theorem dueLoad_inv (a : Int) : (dueLoad a).Inv :=
  withSlot_inv .load 6 0 (some 5) a 0 rfl (by intro d h; cases h; decide) (by decide)

/-- The state of one due STORE slot. -/
abbrev dueStore (a : Int) : State := withSlot .store (dueSlot .store 7 2 none a 0)

theorem dueStore_inv (a : Int) : (dueStore a).Inv :=
  withSlot_inv .store 7 2 none a 0 rfl (by intro d h; cases h) (by decide)

/-- The state of one due BEQ slot whose operands agree. -/
abbrev dueBeq (target : Int) : State := withSlot .beq (dueSlot .beq 1 1 none 0 target)

theorem dueBeq_inv (target : Int) : (dueBeq target).Inv :=
  withSlot_inv .beq 1 1 none 0 target rfl (by intro d h; cases h) (by decide)

/-- The load pool is the only one whose step answers an event of a due LOAD. -/
def stepsToLoadEvent {c : Config} (e : Engine c) : Bool :=
  match e.stepPools poolOrder with
  | .ok (_, [ev]) => decide (ev.op = .load)
  | _ => false

theorem test_witness_LoadReadsBeforeStoreWrites :
    (∀ p k s, (dueLoad 0).eng.slot p k = some s → poolOf s.op = p) ∧
      ∃ e' evs ev, (dueLoad 0).eng.stepPools poolOrder = .ok (e', evs) ∧ ev ∈ evs ∧ ev.op = .load := by
  refine ⟨((dueLoad_inv 0).coherent (by decide)).slotPool, ?_⟩
  have h : stepsToLoadEvent (dueLoad 0).eng = true := by decide
  unfold stepsToLoadEvent at h
  split at h
  · rename_i e' ev hx; exact ⟨e', [ev], ev, hx, by simp, by simpa using h⟩
  · cases h

theorem test_witness_HaltsWhenDrained :
    let s := launched []
    s.resetPin = false ∧ s.eng.status = .running ∧ s.eng.stream = [] ∧ (∀ p k, s.eng.slot p k = none) ∧
      (nextOf (step s)).resetPin = false ∧ (nextOf (step s)).eng.status ≠ .running :=
  ⟨by decide, by decide, by decide, launchedIn_slot none [], by decide, by decide⟩

/-- A machine at its cycle limit with an instruction pending. -/
def atLimit : State :=
  { launchedIn (some 1) [0] with eng := { (launchedIn (some 1) [0]).eng with cycle := 1 } }

theorem atLimit_inv : atLimit.Inv :=
  have h := launchedIn_inv (some 1) [0]
  { sized := ⟨h.sized.regs, h.sized.status, h.sized.pools⟩
    memory := ⟨h.memory.canonical, h.memory.within⟩
    stream := ⟨h.stream.sampled, h.stream.suffix⟩
    coherent := fun hs =>
      have k := h.coherent hs
      ⟨k.slotPool, k.slotDest, k.destBound, k.seqBound, k.seqUnique, k.waitLive, k.pendingLive, k.settled⟩
    faults := h.faults
    halted := by intro h; cases h }

theorem test_witness_CycleLimitStopsTheRun :
    atLimit.resetPin = false ∧ atLimit.eng.status = .running ∧ atLimit.cfg.maxCycles = some 1 ∧ 1 ≤ atLimit.eng.cycle ∧
      atLimit.eng.stream ≠ [] := by decide

/-- A machine that has stopped with a fault. -/
def pastFault (f : FaultCode) : State :=
  { launched [] with eng := { (launched []).eng with status := .faulted, fault := some (f, 0) } }

theorem test_witness_CycleLimitStopsTheRun_kept :
    (∀ m, (pastFault .cycleLimit).cfg.maxCycles = some m → (pastFault .cycleLimit).eng.cycle < m) ∧
      ∃ t, step (pastFault .cycleLimit) = .next t ∧ t.eng.fault = some (.cycleLimit, 0) :=
  ⟨(by intro m h; cases h), exists_of_answersFault (by decide)⟩

theorem test_witness_PerformedCycleCounts :
    let s := launched [0x02460000]
    s.StreamOk ∧ s.resetPin = false ∧ s.eng.status = .running ∧ s.eng.drained = false ∧ s.eng.guardTrips = false :=
  ⟨launchedIn_streamOk none _, by decide, by decide, by decide, by decide⟩

theorem test_witness_ResetSetsEverythingElse : ({ dueLoad 0 with resetPin := true } : State).resetPin = true := rfl

theorem valid_reference : Config.reference.Valid := by decide

theorem test_witness_FaultsNameTheirCause_load :
    (dueLoad (-7)).cfg.Valid ∧ (dueLoad (-7)).Inv ∧ (dueLoad (-7)).resetPin = false ∧ (dueLoad (-7)).eng.status = .running ∧
      ∃ t, step (dueLoad (-7)) = .next t ∧ t.eng.fault = some (.memoryAddressOutOfRange, 0) :=
  ⟨valid_reference, dueLoad_inv _, by decide, by decide, exists_of_answersFault (by decide)⟩

theorem test_witness_FaultsNameTheirCause_store :
    (dueStore 62).cfg.Valid ∧ (dueStore 62).Inv ∧ (dueStore 62).resetPin = false ∧ (dueStore 62).eng.status = .running ∧
      ∃ t, step (dueStore 62) = .next t ∧ t.eng.fault = some (.memoryAddressOutOfRange, 0) :=
  ⟨valid_reference, dueStore_inv _, by decide, by decide, exists_of_answersFault (by decide)⟩

theorem test_witness_FaultsNameTheirCause_branch :
    (dueBeq (-1)).cfg.Valid ∧ (dueBeq (-1)).Inv ∧ (dueBeq (-1)).resetPin = false ∧ (dueBeq (-1)).eng.status = .running ∧
      ∃ t, step (dueBeq (-1)) = .next t ∧ t.eng.fault = some (.branchTargetOutOfRange, 0) :=
  ⟨valid_reference, dueBeq_inv _, by decide, by decide, exists_of_answersFault (by decide)⟩

theorem test_witness_FaultsNameTheirCause_limit :
    atLimit.cfg.Valid ∧ atLimit.Inv ∧ atLimit.resetPin = false ∧ atLimit.eng.status = .running ∧
      ∃ t, step atLimit = .next t ∧ t.eng.fault = some (.cycleLimit, 0) :=
  ⟨by decide, atLimit_inv, by decide, by decide, exists_of_answersFault (by decide)⟩

theorem test_witness_AllocationNeverOverflows :
    ∃ t, step (pastFault .allocationOverflow) = .next t ∧ t.eng.fault = some (.allocationOverflow, 0) :=
  exists_of_answersFault (by decide)

theorem test_witness_ThroughputIsBounded :
    (launched [0x02460000]).resetPin = false ∧ ∃ t, step (launched [0x02460000]) = .next t ∧ t.eng.status ≠ .faulted :=
  ⟨by decide, exists_of_answersSound (by decide)⟩

theorem test_witness_ErrorFlagsAreSticky :
    let s := nextOf (step (nextOf (step (launched [0xE0000000, 0xC0000000, 0x02460000]))))
    s.resetPin = false ∧ s.eng.errflags.malformed = true ∧ s.eng.errflags.range = true ∧
      ∃ t, step s = .next t ∧ t.eng.status ≠ .faulted :=
  ⟨by decide, by decide, by decide, exists_of_answersSound (by decide)⟩

theorem test_witness_OnlyTheSelectedStoreWritesMemory :
    (dueStore 61).cfg.Valid ∧ (dueStore 61).Inv ∧ (dueStore 61).resetPin = false ∧ (dueStore 61).eng.status = .running ∧
      ∃ t, step (dueStore 61) = .next t ∧ t.eng.status ≠ .faulted :=
  ⟨valid_reference, dueStore_inv _, by decide, by decide, exists_of_answersSound (by decide)⟩

/-- One due LOAD slot that R5 is pending on; it reads `mem[6] = 9`. -/
abbrev pendingLoad : State := { dueLoad 0 with eng := (dueLoad 0).eng.markPending 5 { pool := .load, slot := 0 } }

theorem pendingLoad_currentTag {r : Nat} {t : Tag} (h : pendingLoad.eng.currentTag r = some t) :
    r = 5 ∧ t = { pool := .load, slot := 0 } := by
  have h' : [none, none, none, none, none, some { pool := .load, slot := 0 }, none, none].getD r none = some t := h
  rcases r with _ | _ | _ | _ | _ | _ | _ | _ | r
  all_goals first | (cases h'; exact ⟨rfl, rfl⟩) | cases h'

theorem pendingLoad_inv : pendingLoad.Inv :=
  have h := dueLoad_inv 0
  { sized := ⟨rfl, rfl, h.sized.pools⟩
    memory := ⟨h.memory.canonical, h.memory.within⟩
    stream := ⟨h.stream.sampled, h.stream.suffix⟩
    coherent := fun hs =>
      have k := h.coherent hs
      { slotPool := k.slotPool
        slotDest := k.slotDest
        destBound := k.destBound
        seqBound := k.seqBound
        seqUnique := k.seqUnique
        waitLive := k.waitLive
        pendingLive := fun r t ht => by
          obtain ⟨rfl, rfl⟩ := pendingLoad_currentTag ht
          exact ⟨dueSlot .load 6 0 (some 5) 0 0, rfl, rfl, fun p k s' hs _ => by
            obtain ⟨-, -, rfl⟩ := withSlot_eq (p := .load) hs; exact Nat.le_refl _⟩
        settled := k.settled }
    faults := h.faults
    halted := by intro h; cases h }

/-- R5 changes from 0 to 9 and becomes Ready in the step. -/
theorem test_witness_OnlyTheNamedProducerWritesARegister :
    pendingLoad.cfg.Valid ∧ pendingLoad.Inv ∧ pendingLoad.resetPin = false ∧
      (∃ t, step pendingLoad = .next t ∧ t.eng.status ≠ .faulted) ∧
      pendingLoad.eng.currentTag 5 = some { pool := .load, slot := 0 } ∧ (pendingLoad.eng.reg 5).toNat = 0 ∧
      (nextOf (step pendingLoad)).eng.currentTag 5 = none ∧ ((nextOf (step pendingLoad)).eng.reg 5).toNat = 9 :=
  ⟨valid_reference, pendingLoad_inv, by decide, exists_of_answersSound (by decide), by decide, by decide, by decide, by decide⟩

theorem test_witness_OldestSlotProgresses :
    (dueLoad 0).cfg.Valid ∧ (dueLoad 0).Inv ∧ (dueLoad 0).resetPin = false ∧ (dueLoad 0).eng.status = .running ∧
      (dueLoad 0).eng.Oldest .load 0 (dueSlot .load 6 0 (some 5) 0 0) ∧
      ∃ t, step (dueLoad 0) = .next t ∧ t.eng.status ≠ .faulted :=
  ⟨valid_reference, dueLoad_inv _, by decide, by decide,
    ⟨rfl, fun _ _ _ h => by obtain ⟨-, -, rfl⟩ := withSlot_eq h; exact Nat.le_refl _⟩, exists_of_answersSound (by decide)⟩

theorem test_witness_LaunchIsSound :
    ([0, 7, 2, 3, 0, 0, 0, 0xFFFF] : List (Word 16)).length = Config.reference.nreg ∧
      Memory.wf ([(6, 9)] : Memory 16) = true ∧ Memory.Within ([(63, 9)] : Memory 16) 64 :=
  ⟨rfl, by decide, fun cell hc => by cases List.mem_singleton.1 hc; decide⟩

theorem test_witness_StepKeepsShape :
    (launched [0x02460000]).eng.Sized ∧ (launched [0x02460000]).eng.MemoryOk ∧
      ∃ t, step (launched [0x02460000]) = .next t ∧ t.eng.status ≠ .faulted :=
  ⟨launchedIn_sized none _, launchedIn_memoryOk none _, exists_of_answersSound (by decide)⟩

theorem test_witness_StepKeepsStreamASuffix :
    (dueBeq 0).StreamOk ∧ ∃ t, step (dueBeq 0) = .next t ∧ t.eng.status ≠ .faulted :=
  ⟨(dueBeq_inv 0).stream, exists_of_answersSound (by decide)⟩

theorem test_witness_StepKeepsCoherence :
    ((dueLoad 0).eng.status ≠ .faulted → (dueLoad 0).eng.Coherent) ∧
      ∃ t, step (dueLoad 0) = .next t ∧ t.eng.status ≠ .faulted :=
  ⟨(dueLoad_inv 0).coherent, exists_of_answersSound (by decide)⟩

theorem test_witness_StepKeepsSoundness : (dueStore 0).Inv ∧ ∃ t, step (dueStore 0) = .next t ∧ t.eng.status ≠ .faulted :=
  ⟨dueStore_inv 0, exists_of_answersSound (by decide)⟩

theorem test_witness_StepAlwaysAnswers : (dueBeq (-1)).StreamOk := (dueBeq_inv (-1)).stream

theorem test_witness_ParametersNeverChange :
    ∃ t, step (dueStore 0) = .next t ∧ t.eng.status ≠ .faulted := exists_of_answersSound (by decide)

/-- `launched []` after it has halted. -/
def haltedState : State := { launched [] with eng := { (launched []).eng with status := .halted } }

/-- STATUS of a faulted machine with an empty stream, by the code of the fault (60_exceptions R230). -/
theorem test_status_fault_codes :
    (pastFault .memoryAddressOutOfRange).statusBlock 0 = 0x182 ∧ (pastFault .branchTargetOutOfRange).statusBlock 0 = 0x192 ∧
      (pastFault .cycleLimit).statusBlock 0 = 0x1A2 ∧ (pastFault .allocationOverflow).statusBlock 0 = 0x1B2 := by decide

theorem test_results_none_after_fault : (pastFault .cycleLimit).eng.results.isNone = true := by decide

theorem test_witness_HaltedRegistersAreCommitted : haltedState.Inv ∧ haltedState.eng.status = .halted :=
  have h := launchedIn_inv none []
  ⟨{ sized := ⟨h.sized.regs, h.sized.status, h.sized.pools⟩
     memory := ⟨h.memory.canonical, h.memory.within⟩
     stream := ⟨h.stream.sampled, fun _ => h.stream.suffix (by decide)⟩
     coherent := fun _ =>
       have k := h.coherent (by decide)
       ⟨k.slotPool, k.slotDest, k.destBound, k.seqBound, k.seqUnique, k.waitLive, k.pendingLive, k.settled⟩
     faults := by constructor <;> intro h <;> cases h
     halted := fun _ => by decide }, rfl⟩

/-- One instruction alone in the machine. -/
theorem launched_lone (w : Record) (n : Nat) : (launched [w]).Lone 0 n where
  valid := valid_reference
  released := rfl
  running := rfl
  sized := launchedIn_sized none _
  pending := rfl
  idle := rfl
  ready := launchedIn_currentTag none _
  allowed := by intro m h; cases h

theorem test_witness_LoneArithmeticCompletes :
    ((launched [0x02460000]).prog[0]? = some (encode (.add 1 2 3)) ∧
      (Instr.add 1 2 3).wellFormed (launched [0x02460000]).cfg.nreg = true ∧ (launched [0x02460000]).Lone 0 3) ∧
      ((launched [0x28E00000]).prog[0]? = some (encode (.sub 4 7 0)) ∧
        (Instr.sub 4 7 0).wellFormed (launched [0x28E00000]).cfg.nreg = true ∧ (launched [0x28E00000]).Lone 0 3) ∧
      ((launched [0x4A860000]).prog[0]? = some (encode (.nand 5 4 3)) ∧
        (Instr.nand 5 4 3).wellFormed (launched [0x4A860000]).cfg.nreg = true ∧ (launched [0x4A860000]).Lone 0 3) :=
  ⟨⟨by decide, by decide, launched_lone _ _⟩, ⟨by decide, by decide, launched_lone _ _⟩, by decide, by decide, launched_lone _ _⟩

/-- `LOAD R5, 4(R2)` reads `mem[6]`, and `LOAD R5, 0(R7)` with base -1 is outside memory. -/
theorem test_witness_LoneLoadCompletes :
    ((launched [0x6A400004]).prog[0]? = some (encode (.load 5 2 4)) ∧
      (Instr.load 5 2 4).wellFormed (launched [0x6A400004]).cfg.nreg = true ∧ (launched [0x6A400004]).Lone 0 2) ∧
      ((launched [0x6AE00000]).prog[0]? = some (encode (.load 5 7 0)) ∧ (launched [0x6AE00000]).Lone 0 2) :=
  ⟨⟨by decide, by decide, launched_lone _ _⟩, by decide, launched_lone _ _⟩

/-- `STORE R1, 0(R2)` writes `mem[2]`, and `STORE R1, 0(R7)` with base -1 is outside memory. -/
theorem test_witness_LoneStoreCompletes :
    ((launched [0x82400000]).prog[0]? = some (encode (.store 1 2 0)) ∧
      (Instr.store 1 2 0).wellFormed (launched [0x82400000]).cfg.nreg = true ∧ (launched [0x82400000]).Lone 0 2 ∧
      (launched [0x82400000]).eng.mem.wf = true) ∧
      ((launched [0x82E00000]).prog[0]? = some (encode (.store 1 7 0)) ∧
        (Instr.store 1 7 0).wellFormed (launched [0x82E00000]).cfg.nreg = true ∧ (launched [0x82E00000]).Lone 0 2 ∧
        (launched [0x82E00000]).eng.mem.wf = true ∧ ((launched [0x82E00000]).eng.reg 7).toInt = -1) :=
  ⟨⟨by decide, by decide, launched_lone _ _, by decide⟩, by decide, by decide, launched_lone _ _, by decide, by decide⟩

/-- `BEQ R0, R4, -8` is taken to -1, `BEQ R1, R2, 8` is not taken, and `BEQ R0, R4, -4` is taken to 0, itself. -/
theorem test_witness_LoneBranchCompletes :
    ((launched [0xA080FFF8]).prog[0]? = some (encode (.beq 0 4 0xFFF8)) ∧
      (Instr.beq 0 4 0xFFF8).wellFormed (launched [0xA080FFF8]).cfg.nreg = true ∧ (launched [0xA080FFF8]).Lone 0 2) ∧
      ((launched [0xA2400008]).prog[0]? = some (encode (.beq 1 2 8)) ∧
        (Instr.beq 1 2 8).wellFormed (launched [0xA2400008]).cfg.nreg = true ∧ (launched [0xA2400008]).Lone 0 2) ∧
      ((launched [0xA080FFFC]).prog[0]? = some (encode (.beq 0 4 0xFFFC)) ∧
        (Instr.beq 0 4 0xFFFC).wellFormed (launched [0xA080FFFC]).cfg.nreg = true ∧ (launched [0xA080FFFC]).Lone 0 2 ∧
        (launched [0xA080FFFC]).eng.reg 0 = (launched [0xA080FFFC]).eng.reg 4) :=
  ⟨⟨by decide, by decide, launched_lone _ _⟩, ⟨by decide, by decide, launched_lone _ _⟩, by decide, by decide, launched_lone _ _,
    by decide⟩

theorem test_witness_StatusBlockShowsItsFields :
    1 ≤ Config.reference.cntW ∧ Config.reference.cntW ≤ 32 ∧ (pastFault .cycleLimit).eng.status = .faulted ∧
      (pastFault .cycleLimit).eng.fault = some (.cycleLimit, 0) ∧ (launched []).eng.status ≠ .faulted ∧
      (launched []).eng.fault = none ∧ (launched []).eng.lasterr = none ∧
      (nextOf (step (launched [0xE0000000]))).eng.lasterr = some (.malformedOperand, 0) ∧ 8 ≤ (8 : BitVec 4).toNat := by decide

/-- How a run stands: 0 unfinished, 1 normal, 2 faulted, 3 stopped by name. -/
def standing (r : RunEnd) : Nat :=
  match r with
  | .unfinished _ => 0
  | .normal _ => 1
  | .faulted _ => 2
  | .stopped => 3

/-- A sound state whose run ends normally after its first edge, one whose run faults, and one whose run has no end yet after one edge
and stands where that edge leaves it. -/
theorem test_witness_RunEndsWithItsResults :
    (launched []).Inv ∧ standing ((launched []).runEnd 1) = 1 ∧ atLimit.Inv ∧ standing (atLimit.runEnd 1) = 2 ∧
      (launched [0x02460000]).Inv ∧
      (launched [0x02460000]).runEnd 1 = .unfinished (nextOf (step (launched [0x02460000]))) ∧
      (∃ u, Host.Core.run Sys2Proof.core 1 (launched []) = .next u ∧ u.eng.status ≠ .running) ∧
      (∀ j < 1, ∃ v, Host.Core.run Sys2Proof.core j (launched []) = .next v ∧ v.eng.status = .running) :=
  ⟨launchedIn_inv none [], by decide, atLimit_inv, by decide, launchedIn_inv none _, rfl, ⟨_, rfl, by decide⟩,
    fun j hj => Nat.lt_one_iff.1 hj ▸ ⟨launched [], rfl, rfl⟩⟩

end Sys2Proof.Tests
end

section
/-! The decoder of 30_encoding R96, field by field: what each opcode is decoded to, and what each of the two formats answers. -/

namespace Sys2Proof

/-- The range check of R90: an operation is an instruction unless a register field it uses names no register. -/
theorem classify_of_operation (nreg : Nat) {i : Instr} (h : i.opcode.isSome) :
    classify nreg i = if ∃ r ∈ i.usedRegs, nreg ≤ r.toNat then .reject .registerOutOfRange else .inst i := by
  have hclass : classify nreg i = if i.wellFormed nreg then .inst i else .reject .registerOutOfRange := by
    cases i with
    | rangeMarker => cases h
    | malformedMarker => cases h
    | _ => rfl
  have hwf : i.wellFormed nreg = true ↔ ¬ ∃ r ∈ i.usedRegs, nreg ≤ r.toNat := by simp [Instr.wellFormed]
  simp only [hclass, hwf, ite_not]

/-- Format RRR: Z and IMM are looked at before the three register ranges (R88, R90, R96). -/
theorem decode_of_rrr (nreg : Nat) {w : Record} {mk : RegField → RegField → RegField → Instr}
    (hrec : decodeRecord w = decodeRRR mk w) (hop : ∀ a b c, (mk a b c).opcode.isSome := by intros; rfl)
    (hregs : ∀ a b c, (mk a b c).usedRegs = [a, b, c] := by intros; rfl) :
    decode nreg w =
      if zField w ≠ 0 ∨ immField w ≠ 0 then .reject .malformedOperand
      else if nreg ≤ (raField w).toNat ∨ nreg ≤ (rbField w).toNat ∨ nreg ≤ (rcField w).toNat then
        .reject .registerOutOfRange
      else .inst (mk (raField w) (rbField w) (rcField w)) := by
  by_cases hz : zField w = 0 ∧ immField w = 0
  · simp [decode, hrec, decodeRRR, hz, classify_of_operation nreg (hop _ _ _), hregs]
  · rw [if_pos (not_and_or.1 hz)]
    simp only [decode, hrec, decodeRRR, if_neg hz]

/-- Format RRI: RC and Z are looked at before the two register ranges (R88, R90, R96). -/
theorem decode_of_rri (nreg : Nat) {w : Record} {mk : RegField → RegField → Imm → Instr}
    (hrec : decodeRecord w = decodeRRI mk w) (hop : ∀ a b i, (mk a b i).opcode.isSome := by intros; rfl)
    (hregs : ∀ a b i, (mk a b i).usedRegs = [a, b] := by intros; rfl) :
    decode nreg w =
      if rcField w ≠ 0 ∨ zField w ≠ 0 then .reject .malformedOperand
      else if nreg ≤ (raField w).toNat ∨ nreg ≤ (rbField w).toNat then .reject .registerOutOfRange
      else .inst (mk (raField w) (rbField w) (immField w)) := by
  by_cases hz : rcField w = 0 ∧ zField w = 0
  · simp [decode, hrec, decodeRRI, hz, classify_of_operation nreg (hop _ _ _), hregs]
  · rw [if_pos (not_and_or.1 hz)]
    simp only [decode, hrec, decodeRRI, if_neg hz]

/-- A range marker is rejected whatever its ignored bits hold (R91). -/
theorem decode_of_rangeMarker (nreg : Nat) {w : Record} {rest : BitVec 29} (hrec : decodeRecord w = some (.rangeMarker rest)) :
    decode nreg w = .reject .registerOutOfRange := by
  simp only [decode, hrec, classify]

/-- A malformed marker is rejected whatever its ignored bits hold (R91). -/
theorem decode_of_malformedMarker (nreg : Nat) {w : Record} {rest : BitVec 29}
    (hrec : decodeRecord w = some (.malformedMarker rest)) : decode nreg w = .reject .malformedOperand := by
  simp only [decode, hrec, classify]

section Rows
variable {w : Record}

/-! The rows of the opcode table (R87). -/

theorem decodeRecord_of_op_add (h : opField w = 0) : decodeRecord w = decodeRRR .add w := by simp [decodeRecord, h]
theorem decodeRecord_of_op_sub (h : opField w = 1) : decodeRecord w = decodeRRR .sub w := by simp [decodeRecord, h]
theorem decodeRecord_of_op_nand (h : opField w = 2) : decodeRecord w = decodeRRR .nand w := by simp [decodeRecord, h]
theorem decodeRecord_of_op_load (h : opField w = 3) : decodeRecord w = decodeRRI .load w := by simp [decodeRecord, h]
theorem decodeRecord_of_op_store (h : opField w = 4) : decodeRecord w = decodeRRI .store w := by simp [decodeRecord, h]
theorem decodeRecord_of_op_beq (h : opField w = 5) : decodeRecord w = decodeRRI .beq w := by simp [decodeRecord, h]

theorem decodeRecord_of_op_rangeMarker (h : opField w = 6) : decodeRecord w = some (.rangeMarker (restField w)) := by
  simp [decodeRecord, h]

theorem decodeRecord_of_op_malformedMarker (h : opField w = 7) :
    decodeRecord w = some (.malformedMarker (restField w)) := by
  simp [decodeRecord, h]

end Rows

/-- The opcode field has the eight values of the table (R87). -/
theorem op_cases : ∀ op : BitVec 3,
    op = 0 ∨ op = 1 ∨ op = 2 ∨ op = 3 ∨ op = 4 ∨ op = 5 ∨ op = 6 ∨ op = 7 := by decide

/-- Settles O3, by the eight rows of the opcode table: each row's word decodes by its format's rule, and once its opcode is a
literal the pseudocode's tests on it compute to the branch of that row. -/
theorem decoderClassifiesEveryWord : Obligations.DecoderClassifiesEveryWord := by
  unfold Obligations.DecoderClassifiesEveryWord
  intro nreg w
  obtain h | h | h | h | h | h | h | h := op_cases (w.extractLsb' 29 3)
  · rw [decode_of_rrr nreg (decodeRecord_of_op_add h), h]; rfl
  · rw [decode_of_rrr nreg (decodeRecord_of_op_sub h), h]; rfl
  · rw [decode_of_rrr nreg (decodeRecord_of_op_nand h), h]; rfl
  · rw [decode_of_rri nreg (decodeRecord_of_op_load h), h]; rfl
  · rw [decode_of_rri nreg (decodeRecord_of_op_store h), h]; rfl
  · rw [decode_of_rri nreg (decodeRecord_of_op_beq h), h]; rfl
  · rw [decode_of_rangeMarker nreg (decodeRecord_of_op_rangeMarker h), h]; rfl
  · rw [decode_of_malformedMarker nreg (decodeRecord_of_op_malformedMarker h), h]; rfl

end Sys2Proof
end

section
/-! Dispatch by what it does with the head of the stream (40_engine_cycle R115 to R118): the rejection of a record that is no valid
instruction, and the stall on a full pool. -/

namespace Sys2Proof.Machine

section Head
variable {c : Config} {e : Engine c} {op : Opcode} {used : List RegField}

/-- A used register field that names no register makes the dispatch a rejection, whatever the pools hold (30_encoding R90). -/
theorem Engine.dispatchHead_of_outOfRange (resolve : Nat → Resolved c.xlen) (h : ∃ r ∈ used, c.nreg ≤ r.toNat) :
    e.dispatchHead op used resolve = e.rejectHead .registerOutOfRange := by
  obtain ⟨r, hr, hle⟩ := h
  obtain ⟨hnil, heq⟩ | ⟨-, heq⟩ | ⟨hin, -⟩ | ⟨_, _, _, -, hin, -⟩ := e.dispatchHead_cases op used resolve
  · rw [heq, Engine.rejectHead_nil _ hnil]
  · exact heq
  · exact absurd (hin r hr) (Nat.not_lt.2 hle)
  · exact absurd (hin r hr) (Nat.not_lt.2 hle)

/-- With its registers in range and its pool full, the head stays where it is (R118). -/
theorem Engine.dispatchHead_of_full (resolve : Nat → Resolved c.xlen) (hused : ∀ r ∈ used, r.toNat < c.nreg)
    (hfull : e.Full (poolOf op)) : e.dispatchHead op used resolve = e := by
  obtain ⟨-, heq⟩ | ⟨⟨r, hr, hout⟩, -⟩ | ⟨-, -, heq⟩ | ⟨_, _, k, -, -, hk, -⟩ := e.dispatchHead_cases op used resolve
  · exact heq
  · exact absurd (hused r hr) hout
  · exact heq
  · exact absurd rfl (hfull _ (List.mem_of_getElem? hk.1))

end Head

/-- A rejection adds the flag of its code to those set before (10_state R34). -/
theorem ErrFlags.set_eq (f : ErrFlags) (code : ErrCode) :
    f.set code =
      { malformed := f.malformed || decide (code = .malformedOperand)
        range := f.range || decide (code = .registerOutOfRange) } := by
  cases code <;> simp [ErrFlags.set]

/-- Each of the six operations is dispatched the one way, over the registers it uses (R115, R116). -/
theorem exec_of_operation {i : Instr} {op : Opcode} (h : i.opcode = some op) (s : State) :
    ∃ resolve, exec i s = .next { s with eng := s.eng.dispatchHead op i.usedRegs resolve } := by
  cases i with
  | rangeMarker => cases h
  | malformedMarker => cases h
  | _ => cases h; exact ⟨_, rfl⟩

/-- What the decoder classifies as a rejection is rejected by its dispatch: a marker by its meaning, an operation by its register
check (30_encoding R90, R91). -/
theorem exec_of_classify_reject {i : Instr} {s : State} {code : ErrCode} (h : classify s.cfg.nreg i = .reject code) :
    exec i s = .next { s with eng := s.eng.rejectHead code } := by
  cases hop : i.opcode with
  | none =>
    cases i with
    | rangeMarker => cases h; rfl
    | malformedMarker => cases h; rfl
    | _ => cases hop
  | some op =>
    obtain ⟨resolve, hexec⟩ := exec_of_operation hop s
    rw [classify_of_operation _ (by simp [hop])] at h
    split at h
    · cases h
      rw [hexec, Engine.dispatchHead_of_outOfRange resolve ‹_›]
    · cases h

/-- The dispatch of a record the decoder rejects (R117). -/
theorem dispatchRecord_of_decode_reject {w : Record} {s : State} {code : ErrCode}
    (h : decode s.cfg.nreg w = .reject code) :
    dispatchRecord w s = .next { s with eng := s.eng.rejectHead code } := by
  unfold decode at h
  unfold dispatchRecord
  cases hrec : decodeRecord w with
  | none => rw [hrec] at h; cases h; rfl
  | some i => rw [hrec] at h; exact exec_of_classify_reject h

/-- Settles O14: every rejected record is dispatched by `rejectHead`, whose effect on a stream with a head is known. -/
theorem rejectionDropsTheHead : Obligations.RejectionDropsTheHead := by
  unfold Obligations.RejectionDropsTheHead
  intro s w code i rest hstream hdecode
  rw [dispatchRecord_of_decode_reject hdecode, Engine.rejectHead_cons code hstream, ErrFlags.set_eq]

/-- Settles O15: each operation is dispatched by `dispatchHead`, which leaves the engine alone on a full pool. -/
theorem structuralStallChangesNothing : Obligations.StructuralStallChangesNothing := by
  unfold Obligations.StructuralStallChangesNothing
  intro s i op hop hwf hfull
  have hused : ∀ r ∈ i.usedRegs, r.toNat < s.cfg.nreg := by simpa [Instr.wellFormed] using hwf
  obtain ⟨resolve, hexec⟩ := exec_of_operation hop s
  rw [hexec, Engine.dispatchHead_of_full resolve hused hfull]

end Sys2Proof.Machine
end

section
/-! Source operands, and what the broadcast of one result does to registers, status entries and slots (40_engine_cycle R121, R129,
R130). -/

namespace Sys2Proof.Machine

section Broadcast
variable {c : Config} (e : Engine c)

theorem Engine.resolve_of_ready {e : Engine c} {r : RegField} (h : e.currentTag r.toNat = none) :
    e.resolve r = .val (e.reg r.toNat) := by
  simp only [Engine.resolve, h]

theorem Engine.resolve_of_pending {e : Engine c} {r : RegField} {t : Tag} (h : e.currentTag r.toNat = some t) :
    e.resolve r = .wait t := by
  simp only [Engine.resolve, h]

@[simp] theorem Engine.reg_clearPending (d r : Nat) : (e.clearPending d).reg r = e.reg r := rfl
@[simp] theorem Engine.currentTag_setReg (d r : Nat) (v : Word c.xlen) : (e.setReg d v).currentTag r = e.currentTag r := rfl
@[simp] theorem Engine.reg_wakeAll (t : Tag) (v : Word c.xlen) (r : Nat) : (e.wakeAll t v).reg r = e.reg r := rfl
@[simp] theorem Engine.currentTag_wakeAll (t : Tag) (v : Word c.xlen) (r : Nat) :
    (e.wakeAll t v).currentTag r = e.currentTag r := rfl

/-- A write-back writes its own register alone, and only while that register names the tag (R129). -/
theorem Engine.reg_writeBack (d r : Nat) (t : Tag) (v : Word c.xlen) (hd : d < e.x.length) :
    (e.writeBack d t v).reg r = if r = d ∧ e.currentTag d = some t then v else e.reg r := by
  obtain ⟨htag, heq⟩ | ⟨htag, heq⟩ := e.writeBack_cases d t v
  · simp [heq, htag, Engine.reg_setReg _ _ _ _ hd]
  · simp [heq, htag]

/-- A write-back makes its own register Ready and no other, and only while that register names the tag (R129). -/
theorem Engine.currentTag_writeBack (d r : Nat) (t : Tag) (v : Word c.xlen) :
    (e.writeBack d t v).currentTag r = if r = d ∧ e.currentTag d = some t then none else e.currentTag r := by
  obtain ⟨htag, heq⟩ | ⟨htag, heq⟩ := e.writeBack_cases d t v
  · simp [heq, htag, Engine.currentTag_clearPending]
  · simp [heq, htag]

@[simp] theorem Engine.slot_writeBack (d : Nat) (t : Tag) (v : Word c.xlen) (p : PoolId) (k : Nat) :
    (e.writeBack d t v).slot p k = e.slot p k := by
  obtain ⟨-, heq⟩ | ⟨-, heq⟩ := e.writeBack_cases d t v
  · rw [heq]; rfl
  · rw [heq]

/-- The broadcast of an event with a register result is its write-back and then its wake (R129, R130). -/
theorem Engine.broadcast_of_result {ev : Event c.xlen} {d : Nat} {v : Word c.xlen} (hdest : ev.dest = some d)
    (hvalue : ev.value = some v) : e.broadcast ev = (e.writeBack d ev.tag v).wakeAll ev.tag v := by
  simp only [Engine.broadcast, hdest, hvalue]

/-- Waking a slot gives the value to each operand that waits on the tag and leaves the other (R130). -/
theorem Slot.wake_eq {w : Nat} (t : Tag) (v : Word w) :
    Slot.wake t v = fun s : Slot w =>
      { s with
        oj := if s.oj = .wait t then .val v else s.oj
        ok := if s.ok = .wait t then .val v else s.ok } := by
  funext s
  simp only [Slot.wake, Operand.wake_eq]

end Broadcast

/-- Settles O17: the source is read by what its register's status entry holds. -/
theorem sourceResolution : Obligations.SourceResolution := by
  unfold Obligations.SourceResolution
  exact fun c e r => ⟨Engine.resolve_of_ready, fun t => Engine.resolve_of_pending⟩

/-- Settles O27: the wake touches no register, and the write-back touches the event's register while its tag is the current one. -/
theorem writeBackFollowsTheTag : Obligations.WriteBackFollowsTheTag := by
  unfold Obligations.WriteBackFollowsTheTag
  intro c e ev d v hdest hvalue hd
  rw [e.broadcast_of_result hdest hvalue]
  simp only [Engine.reg_wakeAll, Engine.currentTag_wakeAll, e.reg_writeBack _ _ _ _ hd, Engine.currentTag_writeBack]
  refine ⟨fun htag => ?_, fun htag => ?_, fun r hr => ?_⟩
  · simp [htag]
  · simp [htag]
  · simp [hr]

/-- Settles O28: the write-back touches no slot, and the wake maps every busy slot of every pool. -/
theorem wakeReachesEveryWaiter : Obligations.WakeReachesEveryWaiter := by
  unfold Obligations.WakeReachesEveryWaiter
  intro c e ev d v p k hdest hvalue
  rw [e.broadcast_of_result hdest hvalue, Engine.slot_wakeAll, Engine.slot_writeBack, Slot.wake_eq]

end Sys2Proof.Machine
end

section
/-! The release of a cycle's events (40_engine_cycle R132). -/

namespace Sys2Proof.Machine

section Release
variable {c : Config} (e : Engine c)

/-- Idling slot `(p, k)` leaves every other slot; an index past the pool's end holds no slot and counts as idle already. -/
theorem Engine.slot_setSlot_none (p q : PoolId) (k j : Nat) :
    (e.setSlot p k none).slot q j = if q = p ∧ j = k then none else e.slot q j := by
  by_cases hk : k < (e.pools.get p).length
  · exact e.slot_setSlot p q k j none hk
  · have hsame : (e.setSlot p k none).slot q j = e.slot q j := by
      rw [Engine.slot_eq, Engine.slot_eq, Engine.setSlot_pools, List.set_eq_of_length_le (Nat.not_lt.1 hk), Pools.get_put]
      split
      · next hq => rw [hq]
      · rfl
    rw [hsame]
    split
    · next hqj =>
      obtain ⟨rfl, rfl⟩ := hqj
      rw [Engine.slot_eq, List.getD_eq_default _ _ (Nat.not_lt.1 hk)]
    · rfl

/-- A release idles the slot its event's tag names and no other. -/
theorem Engine.slot_release (ev : Event c.xlen) (p : PoolId) (k : Nat) :
    (e.release ev).slot p k = if ev.tag = { pool := p, slot := k } then none else e.slot p k := by
  have htag : (p = ev.tag.pool ∧ k = ev.tag.slot) ↔ ev.tag = { pool := p, slot := k } := by
    rw [Tag.mk.injEq]
    exact and_congr eq_comm eq_comm
  simp only [← htag]
  exact e.slot_setSlot_none ev.tag.pool p ev.tag.slot k

@[simp] theorem Engine.releaseAll_nil : e.releaseAll [] = e := rfl

@[simp] theorem Engine.releaseAll_cons (ev : Event c.xlen) (evs : List (Event c.xlen)) :
    e.releaseAll (ev :: evs) = (e.release ev).releaseAll evs := rfl

/-- What one release keeps, the releases of a cycle keep. -/
theorem Engine.releaseAll_keeps {α : Type} (part : Engine c → α) (hkeep : ∀ (e : Engine c) ev, part (e.release ev) = part e)
    (evs : List (Event c.xlen)) : part (e.releaseAll evs) = part e := by
  induction evs generalizing e with
  | nil => rfl
  | cons ev rest ih => rw [Engine.releaseAll_cons, ih, hkeep]

@[simp] theorem Engine.releaseAll_completed (evs : List (Event c.xlen)) :
    (e.releaseAll evs).completed = e.completed + evs.length := by
  induction evs generalizing e with
  | nil => rfl
  | cons ev rest ih =>
    rw [Engine.releaseAll_cons, ih, Engine.release_completed, List.length_cons]
    omega

/-- After the releases of a cycle a slot is idle if an event names it, and as it was before if none does. -/
theorem Engine.slot_releaseAll (evs : List (Event c.xlen)) (p : PoolId) (k : Nat) :
    (e.releaseAll evs).slot p k = if ∃ ev ∈ evs, ev.tag = { pool := p, slot := k } then none else e.slot p k := by
  induction evs generalizing e with
  | nil => simp
  | cons ev rest ih =>
    rw [Engine.releaseAll_cons, ih, Engine.slot_release]
    by_cases hev : ev.tag = { pool := p, slot := k }
    · simp [hev]
    · simp [hev]

end Release

/-- Settles O30, each part by induction on the cycle's events. -/
theorem releaseIdlesAndCounts : Obligations.ReleaseIdlesAndCounts := by
  unfold Obligations.ReleaseIdlesAndCounts
  intro c e evs
  refine ⟨e.releaseAll_completed evs, fun ev hev => ?_, fun p k hother => ?_,
    e.releaseAll_keeps Engine.x Engine.release_x evs, e.releaseAll_keeps Engine.rst Engine.release_rst evs,
    e.releaseAll_keeps Engine.mem Engine.release_mem evs, e.releaseAll_keeps Engine.stream Engine.release_stream evs⟩
  · rw [Engine.slot_releaseAll, if_pos ⟨ev, hev, rfl⟩]
  · rw [Engine.slot_releaseAll, if_neg fun ⟨ev, hev, htag⟩ => hother ev hev htag]

end Sys2Proof.Machine
end

section
/-! The redirect of a cycle's events (40_engine_cycle R133, 43_branch R202). -/

namespace Sys2Proof.Machine

/-- The new stream is the program's indices without those before the target. -/
theorem streamFrom_eq_drop (target n : Nat) : streamFrom target n = (List.range n).drop target := by
  rw [streamFrom, List.range_eq_range', List.drop_range', Nat.zero_add, Nat.mul_one]

section Redirect
variable {c : Config} (e : Engine c) {evs : List (Event c.xlen)} {ev : Event c.xlen}

/-- Without a taken branch the stream stays (R133). -/
theorem Engine.redirectAll_of_noneTaken (h : ∀ o ∈ evs, o.taken ≠ some true) : e.redirectAll evs = .ok e := by
  have hskip := e.redirectAll_append evs [] h
  rwa [List.append_nil] at hskip

/-- A taken branch with no taken one after it decides the redirect of the events from it on. -/
theorem Engine.redirectAll_cons_of_taken (hev : ev.taken = some true) (h : ∀ o ∈ evs, o.taken ≠ some true) :
    e.redirectAll (ev :: evs) = e.redirect ev := by
  rw [Engine.redirectAll, if_pos hev]
  cases e.redirect ev with
  | error f => rfl
  | ok e' => exact e'.redirectAll_of_noneTaken h

end Redirect

/-- Settles O31: the events before the branch are skipped, those after a taken one leave its redirect as it is, and the
redirect answers by the sign of the target. -/
theorem redirectReplacesTheStream : Obligations.RedirectReplacesTheStream := by
  unfold Obligations.RedirectReplacesTheStream
  intro c e pre post ev hothers
  obtain ⟨hpre, hpost⟩ := List.forall_mem_append.1 hothers
  rw [e.redirectAll_append pre (ev :: post) hpre]
  refine ⟨fun htaken hle => ?_, fun htaken hneg => ?_, fun huntaken => ?_⟩
  · rw [e.redirectAll_cons_of_taken htaken hpost, Engine.redirect, if_neg (Int.not_lt.2 hle), streamFrom_eq_drop]
  · rw [e.redirectAll_cons_of_taken htaken hpost, Engine.redirect, if_pos hneg]
  · exact e.redirectAll_of_noneTaken (List.forall_mem_cons.2 ⟨huntaken, hpost⟩)

end Sys2Proof.Machine
end

section
/-! The cycle guard (60_exceptions R237): when an edge is its fault, and which other faults the parts of a cycle can raise (R235,
R236, R240). -/

namespace Sys2Proof.Machine

section Guard
variable {c : Config} (e : Engine c)

/-! ### Work left, and the limit -/

/-- A pool lists a busy slot exactly when one of its slots is busy. -/
theorem Engine.station_anyBusy_iff (p : PoolId) : Station.anyBusy (e.pools.get p) = true ↔ ∃ k b, e.slot p k = some b := by
  simp only [Station.anyBusy, List.any_eq_true, Option.isSome_iff_exists, List.mem_iff_getElem?, Engine.slot_eq_some_iff]
  constructor
  · rintro ⟨_, ⟨k, hk⟩, b, rfl⟩
    exact ⟨k, b, hk⟩
  · rintro ⟨k, b, hk⟩
    exact ⟨some b, ⟨k, hk⟩, b, rfl⟩

theorem Engine.anyBusy_iff : e.anyBusy = true ↔ ∃ p k b, e.slot p k = some b := by
  have hpools : ∀ p, p ∈ poolOrder := fun p => by cases p <;> decide
  simp only [Engine.anyBusy, List.any_eq_true, hpools, true_and]
  exact exists_congr fun p => e.station_anyBusy_iff p

/-- An engine with a pending instruction or a busy slot is not drained (40_engine_cycle R111). -/
theorem Engine.drained_eq_false_iff : e.drained = false ↔ e.stream ≠ [] ∨ ∃ p k b, e.slot p k = some b := by
  rw [← Engine.anyBusy_iff, Engine.drained]
  simp [imp_iff_not_or]

theorem Engine.guardTrips_iff : e.guardTrips = true ↔ ∃ m, c.maxCycles = some m ∧ m ≤ e.cycle := by
  unfold Engine.guardTrips
  cases c.maxCycles <;> simp

/-! ### The fault record through a cycle -/

@[simp] theorem Engine.rejectHead_fault (code : ErrCode) : (e.rejectHead code).fault = e.fault := by
  unfold Engine.rejectHead
  split <;> rfl

/-- Dispatch raises no fault: it allocates only where its pool has an idle slot (R238, R240). -/
@[simp] theorem Engine.dispatchHead_fault (op : Opcode) (used : List RegField) (resolve : Nat → Resolved c.xlen) :
    (e.dispatchHead op used resolve).fault = e.fault := by
  obtain ⟨-, h⟩ | ⟨-, h⟩ | ⟨-, -, h⟩ | ⟨i, rest, k, -, -, hk, h⟩ := e.dispatchHead_cases op used resolve
  · rw [h]
  · rw [h, Engine.rejectHead_fault]
  · rw [h]
  · have hk' : Engine.LowestIdle { e with stream := rest } (poolOf op) k := hk
    rw [h, Engine.allocate_of_lowestIdle _ _ hk']

/-- The step of a pool changes its slots and memory alone, or raises MemoryAddressOutOfRange (R235, R240). -/
theorem Engine.stepPool_frame (p : PoolId) :
    (∃ e' evs, e.stepPool p = .ok (e', evs) ∧ e' = { e with mem := e'.mem, pools := e'.pools }) ∨
    ∃ i, e.stepPool p = .error (.memoryAddressOutOfRange, i) := by
  obtain ⟨-, hstep⟩ | ⟨k, b, -, hdone⟩ := e.stepPool_cases p
  · exact .inl ⟨_, _, hstep, rfl⟩
  · obtain ⟨e', ev, hexec, -, -, -, hframe, -⟩ | ⟨-, hexec⟩ := execute_cases (e.countdown p) { pool := p, slot := k } b
    · obtain ⟨_, _, hexec', hstep⟩ | ⟨_, hexec', -⟩ := hdone
      · cases hexec.symm.trans hexec'
        exact .inl ⟨_, _, hstep, by rw [hframe]; rfl⟩
      · cases hexec.symm.trans hexec'
    · obtain ⟨_, _, hexec', -⟩ | ⟨_, hexec', hstep⟩ := hdone
      · cases hexec.symm.trans hexec'
      · cases hexec.symm.trans hexec'
        exact .inr ⟨_, hstep⟩

/-- The step sub-step changes slots and memory alone, or raises MemoryAddressOutOfRange (R235, R240). -/
theorem Engine.stepPools_frame (ps : List PoolId) :
    (∃ e' evs, e.stepPools ps = .ok (e', evs) ∧ e' = { e with mem := e'.mem, pools := e'.pools }) ∨
    ∃ i, e.stepPools ps = .error (.memoryAddressOutOfRange, i) := by
  induction ps generalizing e with
  | nil => exact .inl ⟨e, [], rfl, rfl⟩
  | cons p ps ih =>
    obtain ⟨e₁, evs, hp, hframe⟩ | ⟨i, hp⟩ := e.stepPool_frame p
    · obtain ⟨e₂, more, hps, hframe'⟩ | ⟨i, hps⟩ := ih e₁
      · exact .inl ⟨e₂, evs ++ more, by simp only [Engine.stepPools, hp, hps], by rw [hframe', hframe]⟩
      · exact .inr ⟨i, by simp only [Engine.stepPools, hp, hps]⟩
    · exact .inr ⟨i, by simp only [Engine.stepPools, hp]⟩

@[simp] theorem Engine.broadcast_fault (ev : Event c.xlen) : (e.broadcast ev).fault = e.fault := by
  unfold Engine.broadcast Engine.writeBack
  split
  · split <;> rfl
  · rfl

@[simp] theorem Engine.broadcastAll_fault (evs : List (Event c.xlen)) : (e.broadcastAll evs).fault = e.fault :=
  List.foldlRecOn evs _ (motive := fun e' : Engine c => e'.fault = e.fault) rfl fun e' h ev _ => by rw [Engine.broadcast_fault, h]

/-- The redirects of a cycle raise BranchTargetOutOfRange or nothing (R236). -/
theorem Engine.redirectAll_error {evs : List (Event c.xlen)} {f : FaultCode × Nat} (h : e.redirectAll evs = .error f) :
    f.1 = .branchTargetOutOfRange := by
  induction evs generalizing e with
  | nil => cases h
  | cons ev evs ih =>
    rw [Engine.redirectAll] at h
    split at h
    · obtain ⟨-, hr⟩ | ⟨-, hr⟩ := e.redirect_cases ev
      · rw [hr] at h; exact ih _ h
      · rw [hr] at h; cases h; rfl
    · exact ih _ h

/-- Sub-steps (2) to (6) leave the recorded fault as it was, or record one of an access or of a branch (R235, R236). -/
theorem Engine.finishCycle_fault :
    e.finishCycle.fault = e.fault ∨
    ∃ i, e.finishCycle.fault = some (.memoryAddressOutOfRange, i) ∨
      e.finishCycle.fault = some (.branchTargetOutOfRange, i) := by
  unfold Engine.finishCycle
  split
  · exact .inl rfl
  · obtain ⟨e', evs, hstep, hframe⟩ | ⟨i, hstep⟩ := e.stepPools_frame poolOrder
    · have hkept : ((e'.broadcastAll evs).releaseAll evs).fault = e.fault := by
        rw [Engine.releaseAll_keeps _ Engine.fault Engine.release_fault, Engine.broadcastAll_fault, hframe]
      simp only [hstep]
      split
      · next f i hredirect =>
        obtain rfl : f = .branchTargetOutOfRange := Engine.redirectAll_error _ hredirect
        exact .inr ⟨i, .inr rfl⟩
      · next e'' hredirect =>
        obtain ⟨hstream, -⟩ := Engine.redirectAll_ok _ _ _ hredirect
        exact .inl (by rw [Engine.clearFresh_fault, hstream]; exact hkept)
    · exact .inr ⟨i, .inl (by simp only [hstep]; rfl)⟩

/-- A fault of the guard found after sub-steps (2) to (6) was recorded before them (R237). -/
theorem Engine.fault_of_finishCycle_cycleLimit {i : Nat} (h : e.finishCycle.fault = some (.cycleLimit, i)) :
    e.fault = some (.cycleLimit, i) := by
  obtain hkept | ⟨_, hraised | hraised⟩ := e.finishCycle_fault
  · exact hkept.symm.trans h
  · cases hraised.symm.trans h
  · cases hraised.symm.trans h

end Guard

/-- The dispatch of any record answers, and keeps the recorded fault (R240). -/
theorem dispatchRecord_fault (w : Record) (s : State) :
    ∃ e : Engine s.cfg, dispatchRecord w s = .next { s with eng := e } ∧ e.fault = s.eng.fault := by
  unfold dispatchRecord
  cases decodeRecord w with
  | none => exact ⟨_, rfl, Engine.rejectHead_fault _ _⟩
  | some i =>
    cases hop : i.opcode with
    | some op =>
      obtain ⟨resolve, hexec⟩ := exec_of_operation hop s
      exact ⟨_, hexec, Engine.dispatchHead_fault _ _ _ _⟩
    | none =>
      cases i with
      | rangeMarker => exact ⟨_, rfl, Engine.rejectHead_fault _ _⟩
      | malformedMarker => exact ⟨_, rfl, Engine.rejectHead_fault _ _⟩
      | _ => cases hop

/-- An edge that would start a cycle at or past the limit is the guard's fault instead (R237). -/
theorem engineCycle_of_guardTrips {s : State} (hwork : s.eng.drained = false) (hguard : s.eng.guardTrips = true) :
    engineCycle s = .next { s with eng := s.eng.raise .cycleLimit 0 } := by
  simp [engineCycle, hwork, hguard]

/-- Where the guard does not trip, no part of the cycle records a fault of the guard (R237). -/
theorem fault_of_engineCycle_cycleLimit {s t : State} {i : Nat} (hguard : s.eng.guardTrips = false) (hcycle : engineCycle s = .next t)
    (hfault : t.eng.fault = some (.cycleLimit, i)) : s.eng.fault = some (.cycleLimit, i) := by
  unfold engineCycle at hcycle
  simp only [hguard] at hcycle
  split at hcycle
  · cases hcycle; exact hfault
  · simp only [Bool.false_eq_true, if_false] at hcycle
    split at hcycle
    · cases hcycle; exact s.eng.beginCycle.fault_of_finishCycle_cycleLimit hfault
    · next w _ =>
      obtain ⟨e, hdispatch, hkept⟩ := dispatchRecord_fault w { s with eng := s.eng.beginCycle }
      rw [hdispatch] at hcycle
      cases hcycle; exact hkept.symm.trans (e.fault_of_finishCycle_cycleLimit hfault)
    · cases hcycle

/-- Settles O35: with work left and the limit reached the edge is the guard's fault; below the limit reset clears the record, a
stopped engine keeps it, and no sub-step of a cycle records the guard. -/
theorem cycleLimitStopsTheRun : Obligations.CycleLimitStopsTheRun := by
  unfold Obligations.CycleLimitStopsTheRun
  refine ⟨fun s m hpin hrun hmax hle hwork => ?_, fun s t i hbelow hstep hfault => ?_⟩
  · have hguard : s.eng.guardTrips = true := s.eng.guardTrips_iff.2 ⟨m, hmax, hle⟩
    obtain ⟨h, -⟩ | ⟨-, h, -⟩ | ⟨-, -, h⟩ := step_cases s
    · cases hpin.symm.trans h
    · exact absurd hrun h
    · refine ⟨s.eng.raise .cycleLimit 0, ?_, rfl, rfl, rfl⟩
      rw [h, engineCycle_of_guardTrips (s.eng.drained_eq_false_iff.2 hwork) hguard]
  · have hguard : s.eng.guardTrips = false := by
      rw [← Bool.not_eq_true, Engine.guardTrips_iff]
      rintro ⟨m, hmax, hle⟩
      exact Nat.not_le.2 (hbelow m hmax) hle
    obtain ⟨-, h⟩ | ⟨-, -, h⟩ | ⟨-, -, h⟩ := step_cases s
    · cases h.symm.trans hstep; cases hfault
    · cases h.symm.trans hstep; exact hfault
    · exact fault_of_engineCycle_cycleLimit hguard (h.symm.trans hstep) hfault

end Sys2Proof.Machine
end

section
/-! The encoder and the decoder, field by field: what each field of a packed record is, and that a record is packed from its fields
(30_encoding R86 to R91). -/

namespace Sys2Proof

/-! ### The fields of a packed record -/

section Fields
variable (op : BitVec 3) (ra rb rc : RegField) (imm : Imm) (rest : BitVec 29)

@[simp] theorem opField_packRRR : opField (packRRR op ra rb rc) = op := by
  ext i hi; interval_cases i <;> simp [opField, packRRR, place]

@[simp] theorem raField_packRRR : raField (packRRR op ra rb rc) = ra := by
  ext i hi; interval_cases i <;> simp [raField, packRRR, place]

@[simp] theorem rbField_packRRR : rbField (packRRR op ra rb rc) = rb := by
  ext i hi; interval_cases i <;> simp [rbField, packRRR, place]

@[simp] theorem rcField_packRRR : rcField (packRRR op ra rb rc) = rc := by
  ext i hi; interval_cases i <;> simp [rcField, packRRR, place]

@[simp] theorem zField_packRRR : zField (packRRR op ra rb rc) = 0 := by
  ext i hi; interval_cases i; simp [zField, packRRR, place]

@[simp] theorem immField_packRRR : immField (packRRR op ra rb rc) = 0 := by
  ext i hi; interval_cases i <;> simp [immField, packRRR, place]

@[simp] theorem opField_packRRI : opField (packRRI op ra rb imm) = op := by
  ext i hi; interval_cases i <;> simp [opField, packRRI, place]

@[simp] theorem raField_packRRI : raField (packRRI op ra rb imm) = ra := by
  ext i hi; interval_cases i <;> simp [raField, packRRI, place]

@[simp] theorem rbField_packRRI : rbField (packRRI op ra rb imm) = rb := by
  ext i hi; interval_cases i <;> simp [rbField, packRRI, place]

@[simp] theorem rcField_packRRI : rcField (packRRI op ra rb imm) = 0 := by
  ext i hi; interval_cases i <;> simp [rcField, packRRI, place]

@[simp] theorem zField_packRRI : zField (packRRI op ra rb imm) = 0 := by
  ext i hi; interval_cases i; simp [zField, packRRI, place]

@[simp] theorem immField_packRRI : immField (packRRI op ra rb imm) = imm := by
  ext i hi; interval_cases i <;> simp [immField, packRRI, place]

@[simp] theorem opField_packMarker : opField (packMarker op rest) = op := by
  ext i hi; interval_cases i <;> simp [opField, packMarker, place]

@[simp] theorem restField_packMarker : restField (packMarker op rest) = rest := by
  ext i hi; interval_cases i <;> simp [restField, packMarker, place]

/-- A packed record of format RRR passes that format's zero checks (R88). -/
@[simp] theorem decodeRRR_packRRR (mk : RegField → RegField → RegField → Instr) :
    decodeRRR mk (packRRR op ra rb rc) = some (mk ra rb rc) := by
  simp [decodeRRR]

/-- A packed record of format RRI passes that format's zero checks (R88). -/
@[simp] theorem decodeRRI_packRRI (mk : RegField → RegField → Imm → Instr) :
    decodeRRI mk (packRRI op ra rb imm) = some (mk ra rb imm) := by
  simp [decodeRRI]

end Fields

/-- Settles O1, row by row of the opcode table: the packed record has the opcode of its row, and its format's rule gives the fields
back. -/
theorem decodeOfEncode : Obligations.DecodeOfEncode := by
  unfold Obligations.DecodeOfEncode
  intro i
  cases i with
  | add ra rb rc => rw [encode, decodeRecord_of_op_add (by simp), decodeRRR_packRRR]
  | sub ra rb rc => rw [encode, decodeRecord_of_op_sub (by simp), decodeRRR_packRRR]
  | nand ra rb rc => rw [encode, decodeRecord_of_op_nand (by simp), decodeRRR_packRRR]
  | load ra rb imm => rw [encode, decodeRecord_of_op_load (by simp), decodeRRI_packRRI]
  | store ra rb imm => rw [encode, decodeRecord_of_op_store (by simp), decodeRRI_packRRI]
  | beq ra rb imm => rw [encode, decodeRecord_of_op_beq (by simp), decodeRRI_packRRI]
  | rangeMarker rest => rw [encode, decodeRecord_of_op_rangeMarker (by simp), restField_packMarker]
  | malformedMarker rest => rw [encode, decodeRecord_of_op_malformedMarker (by simp), restField_packMarker]

/-! ### A record is packed from its fields -/

/-- The fields at their places make up the whole record (R86). -/
theorem place_fields (w : Record) :
    place (opField w) 29 ||| place (raField w) 25 ||| place (rbField w) 21 ||| place (rcField w) 17 ||| place (zField w) 16 |||
      place (immField w) 0 = w := by
  ext i hi
  interval_cases i <;> simp [place, opField, raField, rbField, rcField, zField, immField]

@[simp] theorem place_zero (n bit : Nat) : place (0 : BitVec n) bit = 0#32 := by
  simp [place]

theorem packRRR_fields {w : Record} (hz : zField w = 0) (himm : immField w = 0) :
    packRRR (opField w) (raField w) (rbField w) (rcField w) = w := by
  have h := place_fields w
  rwa [hz, himm, place_zero, place_zero, BitVec.or_zero, BitVec.or_zero] at h

theorem packRRI_fields {w : Record} (hrc : rcField w = 0) (hz : zField w = 0) :
    packRRI (opField w) (raField w) (rbField w) (immField w) = w := by
  have h := place_fields w
  rwa [hrc, hz, place_zero, place_zero, BitVec.or_zero, BitVec.or_zero] at h

theorem packMarker_fields (w : Record) : packMarker (opField w) (restField w) = w := by
  ext i hi
  interval_cases i <;> simp [packMarker, place, opField, restField]

/-- What format RRR answers, and the record it answers it for (R88). -/
theorem decodeRRR_eq_some {mk : RegField → RegField → RegField → Instr} {w : Record} {i : Instr} (h : decodeRRR mk w = some i) :
    ∃ ra rb rc, i = mk ra rb rc ∧ w = packRRR (opField w) ra rb rc := by
  unfold decodeRRR at h
  split at h
  · next hz => cases h; exact ⟨_, _, _, rfl, (packRRR_fields hz.1 hz.2).symm⟩
  · cases h

/-- What format RRI answers, and the record it answers it for (R88). -/
theorem decodeRRI_eq_some {mk : RegField → RegField → Imm → Instr} {w : Record} {i : Instr} (h : decodeRRI mk w = some i) :
    ∃ ra rb imm, i = mk ra rb imm ∧ w = packRRI (opField w) ra rb imm := by
  unfold decodeRRI at h
  split at h
  · next hz => cases h; exact ⟨_, _, _, rfl, (packRRI_fields hz.1 hz.2).symm⟩
  · cases h

/-- Settles O2, by the rows of the opcode table: the row's format answers the fields that the record is packed from. -/
theorem encodeOfDecode : Obligations.EncodeOfDecode := by
  unfold Obligations.EncodeOfDecode
  intro w i h
  obtain hop | hop | hop | hop | hop | hop | hop | hop := op_cases (opField w)
  · rw [decodeRecord_of_op_add hop] at h
    obtain ⟨_, _, _, rfl, hw⟩ := decodeRRR_eq_some h
    rw [hw, hop]; rfl
  · rw [decodeRecord_of_op_sub hop] at h
    obtain ⟨_, _, _, rfl, hw⟩ := decodeRRR_eq_some h
    rw [hw, hop]; rfl
  · rw [decodeRecord_of_op_nand hop] at h
    obtain ⟨_, _, _, rfl, hw⟩ := decodeRRR_eq_some h
    rw [hw, hop]; rfl
  · rw [decodeRecord_of_op_load hop] at h
    obtain ⟨_, _, _, rfl, hw⟩ := decodeRRI_eq_some h
    rw [hw, hop]; rfl
  · rw [decodeRecord_of_op_store hop] at h
    obtain ⟨_, _, _, rfl, hw⟩ := decodeRRI_eq_some h
    rw [hw, hop]; rfl
  · rw [decodeRecord_of_op_beq hop] at h
    obtain ⟨_, _, _, rfl, hw⟩ := decodeRRI_eq_some h
    rw [hw, hop]; rfl
  · rw [decodeRecord_of_op_rangeMarker hop] at h
    cases h
    rw [encode, ← hop, packMarker_fields]
  · rw [decodeRecord_of_op_malformedMarker hop] at h
    cases h
    rw [encode, ← hop, packMarker_fields]

/-- Settles O4: each of the words is a literal, and the decoder computes on it. -/
theorem writtenOutWordsDecode : Obligations.WrittenOutWordsDecode := by
  unfold Obligations.WrittenOutWordsDecode
  decide

end Sys2Proof

namespace Sys2Proof.Machine

/-! ### Transcribed records -/

/-- Below 16, a register number is its 4-bit field (R82, R90). -/
theorem toNat_regField_lt {nreg r : Nat} (hnreg : nreg ≤ 16) (hr : r < nreg) : (BitVec.ofNat 4 r).toNat < nreg := by
  rw [BitVec.toNat_ofNat, Nat.mod_eq_of_lt (by omega)]
  exact hr

/-- A line whose register numbers are in range names a well-formed operation (R85, R90). -/
theorem classify_textLine {nreg : Nat} (hnreg : nreg ≤ 16) {line : TextLine} (hregs : ∀ r ∈ line.regs, r < nreg) :
    classify nreg line.instr = .inst line.instr := by
  have hop : line.instr.opcode.isSome := by
    cases line with
    | rrr op d s t => cases op <;> rfl
    | mem op r b imm => cases op <;> rfl
    | branch s t imm => rfl
  have hused : line.instr.usedRegs = line.regs.map (BitVec.ofNat 4) := by
    cases line with
    | rrr op d s t => cases op <;> rfl
    | mem op r b imm => cases op <;> rfl
    | branch s t imm => rfl
  rw [classify_of_operation nreg hop, if_neg]
  rintro ⟨_, hr, hle⟩
  rw [hused] at hr
  obtain ⟨r, hmem, rfl⟩ := List.mem_map.1 hr
  exact Nat.not_lt.2 hle (toNat_regField_lt hnreg (hregs r hmem))

/-- Settles O5: a line that parses with its registers in range gives the word of a well-formed operation, which the decoder reads
back; every other line that is not blank gives a marker's word. -/
theorem transcriptionIsDispatchable : Obligations.TranscriptionIsDispatchable := by
  unfold Obligations.TranscriptionIsDispatchable
  intro nreg text w hnreg h
  unfold transcribeLine at h
  split at h
  · cases h
  · next op args _ =>
    cases h
    unfold transcribeTokens
    split
    · exact .inl rfl
    · next line _ =>
      split
      · next hregs =>
        have hregs : ∀ r ∈ line.regs, r < nreg := by simpa using hregs
        refine .inr (.inr ⟨line.instr, ?_⟩)
        simp only [decode, decodeOfEncode line.instr, classify_textLine hnreg hregs]
      · exact .inr (.inl rfl)

/-! ### Tags -/

/-- `ceilLog2` is wide enough (00_scope R8). -/
theorem le_two_pow_ceilLog2 (n : Nat) : n ≤ 2 ^ ceilLog2 n := by
  unfold ceilLog2
  cases h : (List.range (n + 1)).find? fun k => decide (n ≤ 2 ^ k) with
  | none =>
    have hn := List.find?_eq_none.1 h n (List.mem_range.2 n.lt_succ_self)
    exact absurd Nat.lt_two_pow_self.le (by simpa using hn)
  | some k => simpa using List.find?_some h

theorem capOf_le_maxCap (c : Config) (p : PoolId) : capOf c p ≤ maxCap c := by
  unfold maxCap
  cases p <;> simp only [capOf] <;> omega

/-- A slot index of any pool fits in the slot bits of a tag (00_scope R8). -/
theorem slot_lt_two_pow_slotWidth {c : Config} {p : PoolId} {k : Nat} (hk : k < capOf c p) : k < 2 ^ slotWidth c :=
  calc k < capOf c p := hk
    _ ≤ maxCap c := capOf_le_maxCap c p
    _ ≤ 2 ^ ceilLog2 (maxCap c) := le_two_pow_ceilLog2 _
    _ ≤ 2 ^ slotWidth c := Nat.pow_le_pow_right Nat.two_pos (Nat.le_max_right _ _)

theorem poolBits_injective {p q : PoolId} (h : poolBits p = poolBits q) : p = q := by
  revert h
  cases p <;> cases q <;> decide

/-- Bits written one above the other are both recovered. -/
theorem append_inj {m n : Nat} {a b : BitVec m} {x y : BitVec n} (h : a ++ x = b ++ y) : a = b ∧ x = y := by
  have hhigh := congrArg (BitVec.extractLsb' n m) h
  have hlow := congrArg (BitVec.extractLsb' 0 n) h
  rw [BitVec.extractLsb'_append_eq_left, BitVec.extractLsb'_append_eq_left] at hhigh
  rw [BitVec.extractLsb'_append_eq_right, BitVec.extractLsb'_append_eq_right] at hlow
  exact ⟨hhigh, hlow⟩

/-- Settles O6: a tag's bits are its pool's id, which is the pool's own, above its slot index, which loses nothing. -/
theorem tagBitsAreUnique : Obligations.TagBitsAreUnique := by
  unfold Obligations.TagBitsAreUnique
  rintro c ⟨p, k⟩ ⟨q, j⟩ hk hj h
  obtain ⟨hpool, hslot⟩ := append_inj h
  have hkj : k = j := by
    have := congrArg BitVec.toNat hslot
    rwa [BitVec.toNat_ofNat, BitVec.toNat_ofNat, Nat.mod_eq_of_lt (slot_lt_two_pow_slotWidth hk),
      Nat.mod_eq_of_lt (slot_lt_two_pow_slotWidth hj)] at this
  exact congrArg₂ Tag.mk (poolBits_injective hpool) hkj

end Sys2Proof.Machine
end

section
/-! Dispatch, instruction by instruction: the state an allocation leaves, the state a rejection leaves, and the frame of both
(40_engine_cycle R115 to R124). -/

namespace Sys2Proof.Machine

/-- The engine after the head `i` of a stream `i :: rest` has been allocated in slot `k` of its operation's pool (R119 to R124). -/
def Engine.allocated {c : Config} (e : Engine c) (op : Opcode) (i : Nat) (rest : List Nat) (k : Nat) (r : Resolved c.xlen) :
    Engine c :=
  { e with
    stream := rest
    rst := r.dest.elim e.rst fun d => e.rst.set d (some { pool := poolOf op, slot := k })
    pools := e.pools.put (poolOf op) ((e.pools.get (poolOf op)).set k (some
      { op := op, pidx := i, oj := r.oj, ok := r.ok, dest := r.dest, a := r.a, target := r.target, cl := latOf c op,
        fresh := true, seq := e.seqNext }))
    seqNext := e.seqNext + 1 }

section Allocation
variable {c : Config} {e : Engine c} {op : Opcode} {used : List RegField} {i : Nat} {rest : List Nat} {k : Nat}

/-- With its registers in range and an idle slot in its pool, the head is popped and allocated (R115, R119). -/
theorem Engine.dispatchHead_of_lowestIdle (resolve : Nat → Resolved c.xlen) (hstream : e.stream = i :: rest)
    (hused : ∀ r ∈ used, r.toNat < c.nreg) (hk : e.LowestIdle (poolOf op) k) :
    e.dispatchHead op used resolve = Engine.allocate { e with stream := rest } op i (resolve i) := by
  obtain ⟨hnil, -⟩ | ⟨⟨r, hr, hout⟩, -⟩ | ⟨-, hfull, -⟩ | ⟨_, _, _, hcons, -, -, heq⟩ := e.dispatchHead_cases op used resolve
  · cases hnil.symm.trans hstream
  · exact absurd (hused r hr) hout
  · exact absurd rfl (hfull _ (List.mem_of_getElem? hk.1))
  · cases hcons.symm.trans hstream; exact heq

theorem Engine.allocate_eq_allocated (i : Nat) (r : Resolved c.xlen) (hk : e.LowestIdle (poolOf op) k) :
    Engine.allocate { e with stream := rest } op i r = e.allocated op i rest k r := by
  have hk' : Engine.LowestIdle { e with stream := rest } (poolOf op) k := hk
  rw [Engine.allocate_of_lowestIdle _ _ hk', Engine.allocated]
  cases r.dest <;> rfl

/-- The whole engine after such a dispatch: the slot written, the destination renamed, the sequence counter advanced (R119 to
R124). -/
theorem Engine.dispatchHead_eq (resolve : Nat → Resolved c.xlen) (hstream : e.stream = i :: rest)
    (hused : ∀ r ∈ used, r.toNat < c.nreg) (hk : e.LowestIdle (poolOf op) k) :
    e.dispatchHead op used resolve = e.allocated op i rest k (resolve i) := by
  rw [Engine.dispatchHead_of_lowestIdle resolve hstream hused hk, Engine.allocate_eq_allocated i _ hk]

end Allocation

/-- Settles O7: an allocation in the ADD pool with the operands of R122. -/
theorem addDispatchAllocates : Obligations.AddDispatchAllocates := by
  unfold Obligations.AddDispatchAllocates
  intro s ra rb rc i rest k hstream ha hb hc hk
  rw [exec, execAdd, Engine.dispatchHead_eq (op := .add) _ hstream (by simp [ha, hb, hc]) hk]
  rfl

/-- Settles O8: an allocation in the ADD pool, under the operation SUB. -/
theorem subDispatchAllocates : Obligations.SubDispatchAllocates := by
  unfold Obligations.SubDispatchAllocates
  intro s ra rb rc i rest k hstream ha hb hc hk
  rw [exec, execSub, Engine.dispatchHead_eq (op := .sub) _ hstream (by simp [ha, hb, hc]) hk]
  rfl

/-- Settles O9: an allocation in the NAND pool. -/
theorem nandDispatchAllocates : Obligations.NandDispatchAllocates := by
  unfold Obligations.NandDispatchAllocates
  intro s ra rb rc i rest k hstream ha hb hc hk
  rw [exec, execNand, Engine.dispatchHead_eq (op := .nand) _ hstream (by simp [ha, hb, hc]) hk]
  rfl

/-- Settles O10: an allocation in the LOAD pool, the base in the first operand. -/
theorem loadDispatchAllocates : Obligations.LoadDispatchAllocates := by
  unfold Obligations.LoadDispatchAllocates
  intro s ra rb imm i rest k hstream ha hb hk
  rw [exec, execLoad, Engine.dispatchHead_eq (op := .load) _ hstream (by simp [ha, hb]) hk]
  rfl

/-- Settles O11: an allocation in the STORE pool, which renames no register. -/
theorem storeDispatchAllocates : Obligations.StoreDispatchAllocates := by
  unfold Obligations.StoreDispatchAllocates
  intro s ra rb imm i rest k hstream ha hb hk
  rw [exec, execStore, Engine.dispatchHead_eq (op := .store) _ hstream (by simp [ha, hb]) hk]
  rfl

/-- Settles O12: an allocation in the BEQ pool, with the target computed from the head's own index. -/
theorem beqDispatchAllocates : Obligations.BeqDispatchAllocates := by
  unfold Obligations.BeqDispatchAllocates
  intro s ra rb imm i rest k hstream ha hb hk
  rw [exec, execBeq, Engine.dispatchHead_eq (op := .beq) _ hstream (by simp [ha, hb]) hk]
  rfl

/-- Settles O13: each marker's meaning is the rejection of the head. -/
theorem markersAreRejected : Obligations.MarkersAreRejected := by
  unfold Obligations.MarkersAreRejected
  intro s bits i rest hstream
  rw [exec, exec, execRangeMarker, execMalformedMarker, Engine.rejectHead_cons _ hstream, Engine.rejectHead_cons _ hstream]
  exact ⟨rfl, rfl⟩

/-! ### What a dispatch can do -/

/-- The operands an operation resolves have a destination exactly where the operation writes a register, and wait only on tags
that registers are pending on (R121, R122). -/
structure Resolved.FromRegisters {c : Config} (r : Resolved c.xlen) (e : Engine c) (op : Opcode) : Prop where
  dest : r.dest.isSome = op.writesRegister
  destBound : ∀ d, r.dest = some d → d < c.nreg
  waits : ∀ t, r.oj = .wait t ∨ r.ok = .wait t → ∃ q, e.currentTag q = some t

/-- What sub-step (1) can make of an engine: the same engine, a rejection of the head, or the head popped and allocated in the
lowest idle slot of its operation's pool (R115 to R119). -/
inductive Engine.Dispatches {c : Config} (e : Engine c) : Engine c → Prop where
  | idle : e.Dispatches e
  | reject (code : ErrCode) (i : Nat) (rest : List Nat) (hstream : e.stream = i :: rest) :
      e.Dispatches (e.rejectHead code)
  | allocate (op : Opcode) (i : Nat) (rest : List Nat) (k : Nat) (r : Resolved c.xlen) (hstream : e.stream = i :: rest)
      (hk : e.LowestIdle (poolOf op) k) (hr : r.FromRegisters e op) :
      e.Dispatches (e.allocated op i rest k r)

section Dispatches
variable {c : Config} {e d : Engine c}

theorem Engine.rejectHead_dispatches (e : Engine c) (code : ErrCode) : e.Dispatches (e.rejectHead code) := by
  cases hstream : e.stream with
  | nil => rw [Engine.rejectHead_nil code hstream]; exact .idle
  | cons i rest => exact .reject code i rest hstream

theorem Engine.dispatchHead_dispatches (e : Engine c) (op : Opcode) (used : List RegField) (resolve : Nat → Resolved c.xlen)
    (hresolve : ∀ i, (∀ r ∈ used, r.toNat < c.nreg) → (resolve i).FromRegisters e op) :
    e.Dispatches (e.dispatchHead op used resolve) := by
  obtain ⟨-, h⟩ | ⟨-, h⟩ | ⟨-, -, h⟩ | ⟨i, rest, k, hstream, hused, hk, h⟩ := e.dispatchHead_cases op used resolve
  · rw [h]; exact .idle
  · rw [h]; exact e.rejectHead_dispatches _
  · rw [h]; exact .idle
  · rw [h, Engine.allocate_eq_allocated _ _ hk]; exact .allocate op i rest k _ hstream hk (hresolve i hused)

/-- A source waits only on the tag its register is pending on (R121). -/
theorem Engine.resolve_eq_wait {r : RegField} {t : Tag} (h : e.resolve r = .wait t) : e.currentTag r.toNat = some t := by
  cases htag : e.currentTag r.toNat with
  | none => rw [Engine.resolve_of_ready htag] at h; cases h
  | some t' => rw [Engine.resolve_of_pending htag] at h; cases h; rfl

/-- Two sources wait only on tags that registers are pending on. -/
theorem Engine.resolve_waits {ra rb : RegField} {t : Tag} (h : e.resolve ra = .wait t ∨ e.resolve rb = .wait t) :
    ∃ q, e.currentTag q = some t :=
  h.elim (fun h => ⟨_, Engine.resolve_eq_wait h⟩) fun h => ⟨_, Engine.resolve_eq_wait h⟩

theorem rrrOperands_fromRegisters {ra rb rc : RegField} {op : Opcode} (hop : op.writesRegister = true) (ha : ra.toNat < c.nreg) :
    (rrrOperands e ra rb rc).FromRegisters e op where
  dest := hop.symm
  destBound := by rintro _ ⟨⟩; exact ha
  waits := fun _ => Engine.resolve_waits

theorem loadOperands_fromRegisters {ra rb : RegField} {imm : Imm} (ha : ra.toNat < c.nreg) :
    (loadOperands e ra rb imm).FromRegisters e .load where
  dest := rfl
  destBound := by rintro _ ⟨⟩; exact ha
  waits := fun _ h => h.elim (fun h => ⟨_, Engine.resolve_eq_wait h⟩) nofun

theorem storeOperands_fromRegisters {ra rb : RegField} {imm : Imm} : (storeOperands e ra rb imm).FromRegisters e .store where
  dest := rfl
  destBound := nofun
  waits := fun _ => Engine.resolve_waits

theorem beqOperands_fromRegisters {ra rb : RegField} {imm : Imm} {i : Nat} : (beqOperands e ra rb imm i).FromRegisters e .beq where
  dest := rfl
  destBound := nofun
  waits := fun _ => Engine.resolve_waits

/-- Each operation is dispatched the one way, over the registers it uses and with operands read from registers (R115, R122). -/
theorem exec_eq_dispatchHead {i : Instr} {op : Opcode} (h : i.opcode = some op) (s : State) :
    ∃ resolve, exec i s = .next { s with eng := s.eng.dispatchHead op i.usedRegs resolve } ∧
      (∀ n, (resolve n).dest = i.destReg) ∧
      ∀ n, (∀ r ∈ i.usedRegs, r.toNat < s.cfg.nreg) → (resolve n).FromRegisters s.eng op := by
  cases i with
  | add ra rb rc => cases h; exact ⟨_, rfl, fun _ => rfl, fun _ h => rrrOperands_fromRegisters rfl (h ra (by simp [Instr.usedRegs]))⟩
  | sub ra rb rc => cases h; exact ⟨_, rfl, fun _ => rfl, fun _ h => rrrOperands_fromRegisters rfl (h ra (by simp [Instr.usedRegs]))⟩
  | nand ra rb rc => cases h; exact ⟨_, rfl, fun _ => rfl, fun _ h => rrrOperands_fromRegisters rfl (h ra (by simp [Instr.usedRegs]))⟩
  | load ra rb imm => cases h; exact ⟨_, rfl, fun _ => rfl, fun _ h => loadOperands_fromRegisters (h ra (by simp [Instr.usedRegs]))⟩
  | store ra rb imm => cases h; exact ⟨_, rfl, fun _ => rfl, fun _ _ => storeOperands_fromRegisters⟩
  | beq ra rb imm => cases h; exact ⟨_, rfl, fun _ => rfl, fun _ _ => beqOperands_fromRegisters⟩
  | rangeMarker => cases h
  | malformedMarker => cases h

/-- A marker's dispatch is a rejection (R91). -/
theorem exec_eq_rejectHead {i : Instr} (h : i.opcode = none) (s : State) :
    ∃ code, exec i s = .next { s with eng := s.eng.rejectHead code } := by
  cases i with
  | rangeMarker => exact ⟨_, rfl⟩
  | malformedMarker => exact ⟨_, rfl⟩
  | _ => cases h

/-- Every instruction's dispatch is one of the three (R115). -/
theorem exec_dispatches (i : Instr) (s : State) : ∃ d, exec i s = .next { s with eng := d } ∧ s.eng.Dispatches d := by
  cases hop : i.opcode with
  | none =>
    obtain ⟨code, hexec⟩ := exec_eq_rejectHead hop s
    exact ⟨_, hexec, s.eng.rejectHead_dispatches code⟩
  | some op =>
    obtain ⟨resolve, hexec, -, hresolve⟩ := exec_eq_dispatchHead hop s
    exact ⟨_, hexec, s.eng.dispatchHead_dispatches op _ resolve hresolve⟩

theorem dispatchRecord_dispatches (w : Record) (s : State) :
    ∃ d, dispatchRecord w s = .next { s with eng := d } ∧ s.eng.Dispatches d := by
  unfold dispatchRecord
  cases decodeRecord w with
  | none => exact ⟨_, rfl, s.eng.rejectHead_dispatches _⟩
  | some i => exact exec_dispatches i s

end Dispatches

/-! ### The frame of a dispatch -/

section Frame
variable {c : Config} (e : Engine c) {d : Engine c}

/-- A rejection touches the stream and the error records alone (R117). -/
theorem Engine.rejectHead_frame (code : ErrCode) :
    e.rejectHead code =
      { e with
        stream := (e.rejectHead code).stream
        dropped := (e.rejectHead code).dropped
        errflags := (e.rejectHead code).errflags
        lasterr := (e.rejectHead code).lasterr } := by
  unfold Engine.rejectHead
  cases e.stream <;> rfl

@[simp] theorem Engine.slot_rejectHead (code : ErrCode) (p : PoolId) (k : Nat) : (e.rejectHead code).slot p k = e.slot p k := by
  rw [Engine.rejectHead_frame]; rfl

@[simp] theorem Engine.currentTag_rejectHead (code : ErrCode) (r : Nat) :
    (e.rejectHead code).currentTag r = e.currentTag r := by
  rw [Engine.rejectHead_frame]; rfl

/-- An allocation writes one slot of its operation's pool, which was idle (R119). -/
theorem Engine.slot_allocated (op : Opcode) (i : Nat) (rest : List Nat) {k : Nat} (r : Resolved c.xlen)
    (hk : e.LowestIdle (poolOf op) k) (q : PoolId) (j : Nat) :
    (e.allocated op i rest k r).slot q j =
      if q = poolOf op ∧ j = k then
        some
          { op := op, pidx := i, oj := r.oj, ok := r.ok, dest := r.dest, a := r.a, target := r.target, cl := latOf c op,
            fresh := true, seq := e.seqNext }
      else e.slot q j :=
  e.slot_setSlot (poolOf op) q k j _ hk.lt

/-- An allocation renames its destination alone (R124). -/
theorem Engine.rst_allocated_of_ne (op : Opcode) (i : Nat) (rest : List Nat) (k : Nat) (r : Resolved c.xlen) {q : Nat}
    (hq : r.dest ≠ some q) : (e.allocated op i rest k r).rst[q]? = e.rst[q]? := by
  unfold Engine.allocated
  cases hdest : r.dest with
  | none => rfl
  | some d => exact List.getElem?_set_ne fun (h : d = q) => hq (h ▸ hdest)

/-- Registers, memory, the counters of cycles and completions, status, fault and sampled length pass a dispatch (R115). -/
theorem Engine.Dispatches.frame {e : Engine c} (h : e.Dispatches d) :
    d = { e with
      stream := d.stream
      rst := d.rst
      pools := d.pools
      seqNext := d.seqNext
      dropped := d.dropped
      errflags := d.errflags
      lasterr := d.lasterr } := by
  cases h with
  | idle => rfl
  | reject code i rest hstream => rw [Engine.rejectHead_cons code hstream]
  | allocate op i rest k r hstream hk hr => rfl

end Frame

/-- What a dispatch by operation leaves of the status table, the slots and the error records (R115 to R124). -/
theorem dispatchHead_leaves {c : Config} (e : Engine c) (op : Opcode) (used : List RegField) (resolve : Nat → Resolved c.xlen) :
    (∀ r, (e.dispatchHead op used resolve).rst[r]? ≠ e.rst[r]? → ∃ n, (resolve n).dest = some r) ∧
    (∀ p k, (e.dispatchHead op used resolve).slot p k ≠ e.slot p k → poolOf op = p ∧ e.slot p k = none) ∧
    ((∀ r ∈ used, r.toNat < c.nreg) →
      (e.dispatchHead op used resolve).dropped = e.dropped ∧ (e.dispatchHead op used resolve).errflags = e.errflags ∧
        (e.dispatchHead op used resolve).lasterr = e.lasterr) := by
  obtain ⟨-, h⟩ | ⟨⟨r, hr, hout⟩, h⟩ | ⟨-, -, h⟩ | ⟨i, rest, k, -, -, hk, h⟩ := e.dispatchHead_cases op used resolve
  · simp [h]
  · refine ⟨fun q hq => absurd ?_ hq, fun p k hs => absurd ?_ hs, fun hin => absurd (hin r hr) hout⟩
    · rw [h, Engine.rejectHead_frame]
    · rw [h, Engine.slot_rejectHead]
  · simp [h]
  · rw [h, Engine.allocate_eq_allocated _ _ hk]
    refine ⟨fun q hq => ⟨i, ?_⟩, fun p j hs => ?_, fun _ => ⟨rfl, rfl, rfl⟩⟩
    · by_contra hdest
      exact hq (e.rst_allocated_of_ne op i rest k _ hdest)
    · rw [e.slot_allocated op i rest _ hk] at hs
      split at hs
      · next hpk => obtain ⟨rfl, rfl⟩ := hpk; exact ⟨rfl, hk.idle⟩
      · exact absurd rfl hs

/-- Settles O16: the frame of every dispatch, and what is left of the rest by a marker's rejection or by the operation's
dispatch. -/
theorem dispatchFrame : Obligations.DispatchFrame := by
  unfold Obligations.DispatchFrame
  intro i s t ht
  obtain ⟨e', hexec, hdisp⟩ := exec_dispatches i s
  cases hexec.symm.trans ht
  have hx : e'.x = s.eng.x ∧ e'.mem = s.eng.mem ∧ e'.cycle = s.eng.cycle ∧ e'.completed = s.eng.completed ∧
      e'.status = s.eng.status ∧ e'.fault = s.eng.fault ∧ e'.progLen = s.eng.progLen ∧ e'.faults = s.eng.faults := by
    rw [hdisp.frame]; simp
  obtain ⟨hx, hmem, hcycle, hcompleted, hstatus, hfault, hlen, hfaults⟩ := hx
  refine ⟨e', rfl, hx, fun a => by rw [hmem], hmem, hcycle, hcompleted, hstatus, hfault, hlen, hfaults, ?_⟩
  cases hop : i.opcode with
  | none =>
    obtain ⟨code, hreject⟩ := exec_eq_rejectHead hop s
    cases hreject.symm.trans hexec
    refine ⟨fun r hr => absurd ?_ hr, fun p k hs => absurd ?_ hs, fun h => by cases h⟩
    · rw [Engine.rejectHead_frame]
    · rw [Engine.slot_rejectHead]
  | some op =>
    obtain ⟨resolve, hdispatch, hdest, -⟩ := exec_eq_dispatchHead hop s
    cases hdispatch.symm.trans hexec
    obtain ⟨hrst, hslot, herr⟩ := dispatchHead_leaves s.eng op i.usedRegs resolve
    refine ⟨fun r hr => ?_, fun p k hs => ?_, fun _ hwf => herr (by simpa [Instr.wellFormed] using hwf)⟩
    · obtain ⟨n, hn⟩ := hrst r hr
      rw [← hdest n, hn]
    · obtain ⟨rfl, hidle⟩ := hslot p k hs
      exact ⟨rfl, hidle⟩

end Sys2Proof.Machine
end

section
/-! Completion, operation by operation: what `execute` answers for a slot of each operation (40_engine_cycle R127, R128). -/

namespace Sys2Proof.Machine

/-! ### Words -/

theorem addWords_eq {w : Nat} (a b : Word w) : addWords a b = a + b := by
  rw [addWords, wrap, BitVec.ofInt_add, BitVec.ofInt_natCast, BitVec.ofInt_natCast, BitVec.ofNat_toNat, BitVec.ofNat_toNat]
  simp

theorem subWords_eq {w : Nat} (a b : Word w) : subWords a b = a - b := by
  rw [subWords, wrap, Int.sub_eq_add_neg, BitVec.ofInt_add, BitVec.ofInt_neg, BitVec.ofInt_natCast, BitVec.ofInt_natCast,
    BitVec.ofNat_toNat, BitVec.ofNat_toNat]
  simp [BitVec.sub_eq_add_neg]

theorem toNat_sub_cast {w : Nat} (a b : Word w) : ((a - b).toNat : Int) = ((a.toNat : Int) - (b.toNat : Int)) % 2 ^ w := by
  rw [← subWords_eq, subWords, wrap, BitVec.toNat_ofInt, Int.toNat_of_nonneg (Int.emod_nonneg _ (by positivity))]
  push_cast
  rfl

/-! ### The completion of each operation -/

section Complete
variable {c : Config} {e : Engine c} {t : Tag} {s : Slot c.xlen}

theorem execute_add (h : s.op = .add) : execute e t s = .ok (e, resultEvent t s (s.oj.value + s.ok.value)) := by
  simp only [execute, h, completeAdd, addWords_eq]

theorem execute_sub (h : s.op = .sub) : execute e t s = .ok (e, resultEvent t s (s.oj.value - s.ok.value)) := by
  simp only [execute, h, completeSub, subWords_eq]

theorem execute_nand (h : s.op = .nand) : execute e t s = .ok (e, resultEvent t s (~~~(s.oj.value &&& s.ok.value))) := by
  simp only [execute, h, completeNand, nandWords]

theorem execute_beq (h : s.op = .beq) : execute e t s = .ok (e, completeBeq t s) := by
  simp only [execute, h]

/-- LOAD: the word at its address, or the fault outside memory (R180, R183). -/
theorem execute_load (h : s.op = .load) :
    execute e t s =
      if 0 ≤ loadAddress s ∧ loadAddress s < (c.memWords : Int) then
        .ok (e, resultEvent t s (e.mem.read (loadAddress s).toNat))
      else .error (.memoryAddressOutOfRange, s.pidx) := by
  simp only [execute, h, completeLoad, memRead, inMemory, decide_eq_true_eq]
  by_cases hin : 0 ≤ loadAddress s ∧ loadAddress s < (c.memWords : Int)
  · simp only [if_pos hin]
  · simp only [if_neg hin]

/-- STORE: its word written at its address, or the fault outside memory (R181, R183). -/
theorem execute_store (h : s.op = .store) :
    execute e t s =
      if 0 ≤ storeAddress s ∧ storeAddress s < (c.memWords : Int) then
        .ok ({ e with mem := e.mem.write (storeAddress s).toNat s.oj.value },
          { tag := t, pidx := s.pidx, op := .store, dest := none, value := none, taken := none, target := 0 })
      else .error (.memoryAddressOutOfRange, s.pidx) := by
  simp only [execute, h, completeStore, memWrite, inMemory, decide_eq_true_eq]
  by_cases hin : 0 ≤ storeAddress s ∧ storeAddress s < (c.memWords : Int)
  · simp only [if_pos hin]
  · simp only [if_neg hin]

end Complete

/-- Settles O19: ADD completes with the sum of words, whose two readings the library gives. -/
theorem addCompletesWithSum : Obligations.AddCompletesWithSum := by
  unfold Obligations.AddCompletesWithSum
  intro c e t s vj vk hop hj hk
  refine ⟨vj + vk, BitVec.toNat_add vj vk, BitVec.toInt_add vj vk, ?_⟩
  rw [execute_add hop, resultEvent, hop, hj, hk]
  rfl

/-- Settles O20: SUB completes with the difference of words. -/
theorem subCompletesWithDifference : Obligations.SubCompletesWithDifference := by
  unfold Obligations.SubCompletesWithDifference
  intro c e t s vj vk hop hj hk
  refine ⟨vj - vk, toNat_sub_cast vj vk, BitVec.toInt_sub, ?_⟩
  rw [execute_sub hop, resultEvent, hop, hj, hk]
  rfl

/-- Settles O21: NAND completes with the complement of the conjunction, bit by bit. -/
theorem nandCompletesWithNand : Obligations.NandCompletesWithNand := by
  unfold Obligations.NandCompletesWithNand
  intro c e t s vj vk hop hj hk
  refine ⟨~~~(vj &&& vk), fun i hi => by simp [hi], ?_⟩
  rw [execute_nand hop, resultEvent, hop, hj, hk]
  rfl

/-- Settles O22: the address of a LOAD is its displacement plus its first operand's signed value. -/
theorem loadReadsItsAddress : Obligations.LoadReadsItsAddress := by
  unfold Obligations.LoadReadsItsAddress
  intro c e t s vj hop hj
  have haddr : loadAddress s = s.a + vj.toInt := by rw [loadAddress, effectiveAddress, hj, Operand.value]
  rw [execute_load hop, haddr, resultEvent, hop]

/-- Settles O23: the address of a STORE is its displacement plus its second operand's signed value, and a write to a canonical
memory changes that word alone. -/
theorem storeWritesItsAddress : Obligations.StoreWritesItsAddress := by
  unfold Obligations.StoreWritesItsAddress
  intro c e t s vj vk hop hj hk hwf
  have haddr : storeAddress s = s.a + vk.toInt := by rw [storeAddress, effectiveAddress, hk, Operand.value]
  rw [execute_store hop, haddr, hj, Operand.value]
  split
  · next hin =>
    refine ⟨_, Memory.wf_write _ (s.a + vk.toInt).toNat vj hwf, fun a => ?_, rfl⟩
    have ha : a = (s.a + vk.toInt).toNat ↔ (a : Int) = s.a + vk.toInt := by omega
    simp only [Memory.read_write _ _ _ _ hwf, ha]
  · rfl

/-- Settles O24: the comparison of two words is the comparison of their bits. -/
theorem beqComparesBitByBit : Obligations.BeqComparesBitByBit := by
  unfold Obligations.BeqComparesBitByBit
  intro c e t s vj vk hop hj hk
  refine ⟨vj == vk, ?_, ?_⟩
  · rw [beq_iff_eq]
    exact ⟨fun h i _ => by rw [h], BitVec.eq_of_getLsbD_eq⟩
  · rw [execute_beq hop, completeBeq, hj, hk]
    rfl

/-! ### What an execution depends on -/

section Depends
variable {c : Config} {e e' : Engine c} {t : Tag} {s : Slot c.xlen} {ev : Event c.xlen}

/-- An answered execution: its event has the slot's tag, index and operation, and only a STORE changes the engine, in memory
(R127, R128). -/
theorem execute_ok (h : execute e t s = .ok (e', ev)) :
    ev.tag = t ∧ ev.pidx = s.pidx ∧ ev.op = s.op ∧ (s.op ≠ .store → e' = e) ∧
      (s.op = .store → e' = { e with mem := e.mem.write (storeAddress s).toNat s.oj.value } ∧
        0 ≤ storeAddress s ∧ storeAddress s < (c.memWords : Int)) := by
  cases hop : s.op with
  | add => rw [execute_add hop] at h; cases h; simp [resultEvent, hop]
  | sub => rw [execute_sub hop] at h; cases h; simp [resultEvent, hop]
  | nand => rw [execute_nand hop] at h; cases h; simp [resultEvent, hop]
  | load =>
    rw [execute_load hop] at h
    split at h
    · cases h; simp [resultEvent, hop]
    · cases h
  | store =>
    rw [execute_store hop] at h
    split at h
    · next hin => cases h; simp [hin]
    · cases h
  | beq => rw [execute_beq hop] at h; cases h; simp [completeBeq]

/-- An answered execution has a result exactly where its operation writes a register, and then the slot's destination; a branch
alone has an outcome, the comparison of its words, and its slot's target (R128). -/
theorem execute_result (h : execute e t s = .ok (e', ev)) :
    ev.value.isSome = s.op.writesRegister ∧ (s.op.writesRegister = true → ev.dest = s.dest) ∧
      (ev.taken = some true → s.op = .beq ∧ ev.target = s.target ∧ s.oj.value = s.ok.value) := by
  cases hop : s.op with
  | add => rw [execute_add hop] at h; cases h; simp [resultEvent, Opcode.writesRegister]
  | sub => rw [execute_sub hop] at h; cases h; simp [resultEvent, Opcode.writesRegister]
  | nand => rw [execute_nand hop] at h; cases h; simp [resultEvent, Opcode.writesRegister]
  | load =>
    rw [execute_load hop] at h
    split at h
    · cases h; simp [resultEvent, Opcode.writesRegister]
    · cases h
  | store =>
    rw [execute_store hop] at h
    split at h
    · cases h; simp [Opcode.writesRegister]
    · cases h
  | beq => rw [execute_beq hop] at h; cases h; simp [completeBeq, Opcode.writesRegister]

/-- A faulting execution is a LOAD or a STORE outside memory, and names its program index (R183, R235). -/
theorem execute_error {f : FaultCode × Nat} (h : execute e t s = .error f) :
    f = (.memoryAddressOutOfRange, s.pidx) ∧
      ((s.op = .load ∧ inMemory c (loadAddress s) = false) ∨ (s.op = .store ∧ inMemory c (storeAddress s) = false)) := by
  cases hop : s.op with
  | add => rw [execute_add hop] at h; cases h
  | sub => rw [execute_sub hop] at h; cases h
  | nand => rw [execute_nand hop] at h; cases h
  | load =>
    rw [execute_load hop] at h
    split at h
    · cases h
    · next hout => cases h; simpa [inMemory] using hout
  | store =>
    rw [execute_store hop] at h
    split at h
    · cases h
    · next hout => cases h; simpa [inMemory] using hout
  | beq => rw [execute_beq hop] at h; cases h

/-- Only a LOAD reads the engine's state, and only its memory; a STORE aside, an execution answers the same event in two engines
that agree there (R127). -/
theorem execute_congr (e₂ : Engine c) (hs : s.op ≠ .store) (hmem : s.op = .load → e₂.mem = e.mem)
    (h : execute e t s = .ok (e', ev)) : execute e₂ t s = .ok (e₂, ev) := by
  cases hop : s.op with
  | add => rw [execute_add hop] at h ⊢; cases h; rfl
  | sub => rw [execute_sub hop] at h ⊢; cases h; rfl
  | nand => rw [execute_nand hop] at h ⊢; cases h; rfl
  | load =>
    rw [execute_load hop] at h ⊢
    rw [hmem hop]
    split at h
    · next hin => rw [if_pos hin]; cases h; rfl
    · cases h
  | store => exact absurd hop hs
  | beq => rw [execute_beq hop] at h ⊢; cases h; rfl

@[simp] theorem Slot.countdown_op {w : Nat} (s : Slot w) : s.countdown.op = s.op := by unfold Slot.countdown; split <;> rfl
@[simp] theorem Slot.countdown_pidx {w : Nat} (s : Slot w) : s.countdown.pidx = s.pidx := by unfold Slot.countdown; split <;> rfl
@[simp] theorem Slot.countdown_oj {w : Nat} (s : Slot w) : s.countdown.oj = s.oj := by unfold Slot.countdown; split <;> rfl
@[simp] theorem Slot.countdown_ok {w : Nat} (s : Slot w) : s.countdown.ok = s.ok := by unfold Slot.countdown; split <;> rfl
@[simp] theorem Slot.countdown_dest {w : Nat} (s : Slot w) : s.countdown.dest = s.dest := by unfold Slot.countdown; split <;> rfl
@[simp] theorem Slot.countdown_a {w : Nat} (s : Slot w) : s.countdown.a = s.a := by unfold Slot.countdown; split <;> rfl
@[simp] theorem Slot.countdown_target {w : Nat} (s : Slot w) : s.countdown.target = s.target := by
  unfold Slot.countdown; split <;> rfl
@[simp] theorem Slot.countdown_fresh {w : Nat} (s : Slot w) : s.countdown.fresh = s.fresh := by
  unfold Slot.countdown; split <;> rfl
@[simp] theorem Slot.countdown_seq {w : Nat} (s : Slot w) : s.countdown.seq = s.seq := by unfold Slot.countdown; split <;> rfl

@[simp] theorem Slot.countdown_ready {w : Nat} (s : Slot w) : s.countdown.ready = s.ready := by simp [Slot.ready]

/-- The decrement of a slot by its three conditions (R125). -/
theorem Slot.countdown_cl {w : Nat} (s : Slot w) :
    s.countdown.cl = if s.ready = true ∧ s.fresh = false ∧ 0 < s.cl then s.cl - 1 else s.cl := by
  unfold Slot.countdown
  by_cases h : s.ready = true ∧ s.fresh = false ∧ 0 < s.cl
  · simp [h]
  · rw [if_neg h, if_neg (by simpa [and_assoc] using h)]

/-- A decrement changes the countdown alone, which no execution reads. -/
@[simp] theorem execute_countdown (e : Engine c) (t : Tag) (s : Slot c.xlen) : execute e t s.countdown = execute e t s := by
  unfold Slot.countdown
  split
  · cases s; rfl
  · rfl

end Depends

end Sys2Proof.Machine
end

section
/-! The step of the pools (40_engine_cycle R125, R126, R135): which slot a pool selects, and what the step of some or all pools does
to slots, memory and events. -/

namespace Sys2Proof.Machine

/-! ### Readiness and selection -/

theorem Operand.isVal_iff {w : Nat} (o : Operand w) : o.isVal = true ↔ ∃ v, o = .val v := by
  cases o <;> simp [Operand.isVal]

theorem Slot.ready_iff {w : Nat} (s : Slot w) : s.ready = true ↔ ∃ vj vk, s.oj = .val vj ∧ s.ok = .val vk := by
  simp [Slot.ready, Operand.isVal_iff]

/-- A slot that can complete in this cycle: fully ready, and at 0 after its decrement (R125, R126). -/
def Slot.Due {w : Nat} (s : Slot w) : Prop := s.ready = true ∧ s.countdown.cl = 0

theorem Slot.countdown_isCandidate_iff {w : Nat} (s : Slot w) : s.countdown.isCandidate = true ↔ s.Due := by
  simp [Slot.isCandidate, Slot.Due]

/-- Slot `t` of the engine holds `b` and is the one its pool selects after the decrements (R126). -/
def Engine.Selects {c : Config} (e : Engine c) (t : Tag) (b : Slot c.xlen) : Prop :=
  e.slot t.pool t.slot = some b ∧ selectOldest ((e.countdown t.pool).pools.get t.pool) = some (t.slot, b.countdown)

section Pool
variable {c : Config} (e : Engine c)

theorem Engine.getElem?_countdown (p : PoolId) (k : Nat) (s : Slot c.xlen) :
    ((e.countdown p).pools.get p)[k]? = some (some s) ↔ ∃ b, e.slot p k = some b ∧ s = b.countdown := by
  rw [← Engine.slot_eq_some_iff, Engine.slot_countdown, if_pos rfl, Option.map_eq_some_iff]
  exact exists_congr fun b => and_congr_right fun _ => eq_comm

/-- A pool selects no slot where none is due, else the due slot with the least sequence number (R126). -/
theorem Engine.selectOldest_cases (p : PoolId) :
    (selectOldest ((e.countdown p).pools.get p) = none ∧ ∀ k b, e.slot p k = some b → ¬ b.Due) ∨
    ∃ k b, selectOldest ((e.countdown p).pools.get p) = some (k, b.countdown) ∧ e.Selects ⟨p, k⟩ b ∧ b.Due ∧
      ∀ j b', e.slot p j = some b' → b'.Due → b.seq ≤ b'.seq := by
  obtain ⟨hsel, hno⟩ | ⟨k, s, hsel, hk, hdue, hmin⟩ := selectOldest_spec ((e.countdown p).pools.get p)
  · refine .inl ⟨hsel, fun k b hb hdue => ?_⟩
    have := hno k b.countdown ((e.getElem?_countdown p k _).2 ⟨b, hb, rfl⟩)
    rw [b.countdown_isCandidate_iff.2 hdue] at this
    cases this
  · obtain ⟨b, hb, rfl⟩ := (e.getElem?_countdown p k s).1 hk
    refine .inr ⟨k, b, hsel, ⟨hb, hsel⟩, b.countdown_isCandidate_iff.1 hdue, fun j b' hb' hdue' => ?_⟩
    simpa using hmin j b'.countdown ((e.getElem?_countdown p j _).2 ⟨b', hb', rfl⟩) (b'.countdown_isCandidate_iff.2 hdue')

variable {e} {p : PoolId} {t : Tag} {b : Slot c.xlen}

/-- The selected slot is due, and no due slot of its pool is older (R126). -/
theorem Engine.Selects.due (h : e.Selects t b) :
    b.Due ∧ ∀ j b', e.slot t.pool j = some b' → b'.Due → b.seq ≤ b'.seq := by
  obtain ⟨hb, hsel⟩ := h
  obtain ⟨hnone, -⟩ | ⟨k, b', hsome, hb', hdue, hmin⟩ := e.selectOldest_cases t.pool
  · cases hnone.symm.trans hsel
  · obtain ⟨hk, -⟩ := Prod.mk.inj (Option.some.inj (hsome.symm.trans hsel))
    subst hk
    cases hb'.1.symm.trans hb
    exact ⟨hdue, hmin⟩

/-- Which slot a pool selects depends on that pool alone. -/
theorem Engine.Selects.congr {e' : Engine c} (h : e'.pools.get t.pool = e.pools.get t.pool) : e'.Selects t b ↔ e.Selects t b := by
  simp only [Engine.Selects, Engine.slot_eq, Engine.countdown_pools, Pools.get_put_same, h]

/-! ### The step of one pool -/

/-- An answered step of a pool: its decrements, and nothing or the execution of the slot it selects (R125, R126). -/
theorem Engine.stepPool_ok {e' : Engine c} {evs : List (Event c.xlen)} (h : e.stepPool p = .ok (e', evs)) :
    e' = { e with mem := e'.mem, pools := (e.countdown p).pools } ∧
    ((evs = [] ∧ e'.mem = e.mem ∧ selectOldest ((e.countdown p).pools.get p) = none) ∨
      ∃ k b ev, evs = [ev] ∧ e.Selects ⟨p, k⟩ b ∧ execute (e.countdown p) ⟨p, k⟩ b = .ok (e', ev)) := by
  obtain ⟨hsel, hstep⟩ | ⟨k, s, hsel, hdone⟩ := e.stepPool_cases p
  · cases hstep.symm.trans h
    exact ⟨rfl, .inl ⟨rfl, rfl, hsel⟩⟩
  · obtain ⟨hnone, -⟩ | ⟨k', b, hsome, hb, -⟩ := e.selectOldest_cases p
    · cases hnone.symm.trans hsel
    · cases hsome.symm.trans hsel
      simp only [execute_countdown] at hdone
      obtain ⟨_, ev, hexec, hstep⟩ | ⟨_, -, hstep⟩ := hdone
      · cases hstep.symm.trans h
        refine ⟨?_, .inr ⟨k, b, ev, rfl, hb, hexec⟩⟩
        obtain ⟨-, -, -, hother, hstore⟩ := execute_ok hexec
        by_cases hop : b.op = .store
        · rw [(hstore hop).1]; rfl
        · rw [hother hop]; rfl
      · cases hstep.symm.trans h

/-- A faulting step of a pool is the fault of the slot it selects (60_exceptions R240). -/
theorem Engine.stepPool_error {f : FaultCode × Nat} (h : e.stepPool p = .error f) :
    ∃ k b, e.Selects ⟨p, k⟩ b ∧ execute (e.countdown p) ⟨p, k⟩ b = .error f := by
  obtain ⟨-, hstep⟩ | ⟨k, s, hsel, hdone⟩ := e.stepPool_cases p
  · cases hstep.symm.trans h
  · obtain ⟨hnone, -⟩ | ⟨k', b, hsome, hb, -⟩ := e.selectOldest_cases p
    · cases hnone.symm.trans hsel
    · cases hsome.symm.trans hsel
      simp only [execute_countdown] at hdone
      obtain ⟨_, _, -, hstep⟩ | ⟨_, hexec, hstep⟩ := hdone
      · cases hstep.symm.trans h
      · cases hstep.symm.trans h
        exact ⟨k, b, hb, hexec⟩

end Pool

/-- Settles O25: the slots after a pool's step are those after its decrements, since an execution changes no slot. -/
theorem poolStepDecrementsOnce : Obligations.PoolStepDecrementsOnce := by
  unfold Obligations.PoolStepDecrementsOnce
  intro c e e' p evs h
  have hslot : ∀ q k, e'.slot q k = (e.countdown p).slot q k := fun q k => by rw [(Engine.stepPool_ok h).1]; rfl
  refine ⟨fun q k hq => ?_, fun k hidle => ?_, fun k s hs => ?_⟩
  · rw [hslot, Engine.slot_countdown, if_neg hq]
  · rw [hslot, Engine.slot_countdown, if_pos rfl, hidle]; rfl
  · rw [hslot, Engine.slot_countdown, if_pos rfl, hs, ← Slot.ready_iff, Option.map_some, Slot.countdown]
    refine ⟨fun hdec => ?_, fun hkeep => ?_⟩
    · rw [if_pos (by simpa [and_assoc] using hdec)]
    · rw [if_neg (by simpa [and_assoc] using hkeep)]

/-- Settles O26: a pool's step is the execution of the slot its selection answers, or its decrements alone. -/
theorem oldestCandidateCompletes : Obligations.OldestCandidateCompletes := by
  unfold Obligations.OldestCandidateCompletes
  intro c e p
  obtain ⟨hsel, hno⟩ | ⟨k, s, hsel, hk, hcand, hmin⟩ := selectOldest_spec ((e.countdown p).pools.get p)
  · refine .inl ⟨fun k s hs hcand => ?_, by simp only [Engine.stepPool, hsel]⟩
    have := hno k s ((Engine.slot_eq_some_iff _ _ _ _).1 hs)
    simp [Slot.isCandidate, hcand] at this
  · obtain ⟨hready, hzero⟩ : s.ready = true ∧ s.cl = 0 := by simpa [Slot.isCandidate] using hcand
    refine .inr ⟨k, s, (Engine.slot_eq_some_iff _ _ _ _).2 hk, hready, hzero, fun j s' hs' hr hz => ?_, ?_⟩
    · exact hmin j s' ((Engine.slot_eq_some_iff _ _ _ _).1 hs') (by simp [Slot.isCandidate, hr, hz])
    · simp only [Engine.stepPool, hsel]
      cases execute (e.countdown p) ⟨p, k⟩ s <;> rfl

/-! ### The step of several pools -/

/-- What an answered step of the pools of a list leaves: the decrements of those pools, and one event for each slot that one of them
selects, in the order of the list (R125, R126, R135). -/
structure Engine.StepsTo {c : Config} (e : Engine c) (ps : List PoolId) (e' : Engine c) (evs : List (Event c.xlen)) : Prop where
  frame : e' = { e with mem := e'.mem, pools := e'.pools }
  pools : ∀ q, e'.pools.get q = if q ∈ ps then (e.countdown q).pools.get q else e.pools.get q
  order : (evs.map fun ev => ev.tag.pool).Sublist ps
  event : ∀ ev ∈ evs, ∃ b, e.Selects ev.tag b ∧ ∃ e₁ e₂, execute e₁ ev.tag b = .ok (e₂, ev)
  selected : ∀ t b, t.pool ∈ ps → e.Selects t b → ∃ ev ∈ evs, ev.tag = t

section Pools
variable {c : Config} {e e' : Engine c} {ps : List PoolId} {evs : List (Event c.xlen)}

/-- The event of a pool's step is that of the slot it selects. -/
theorem Engine.stepPool_stepsTo {p : PoolId} (h : e.stepPool p = .ok (e', evs)) : e.StepsTo [p] e' evs := by
  obtain ⟨hframe, hdone⟩ := Engine.stepPool_ok h
  refine ⟨?_, fun q => ?_, ?_, ?_, ?_⟩
  · rw [hframe]
  · rw [hframe]
    by_cases hq : q = p
    · simp [hq]
    · simp [hq, Pools.get_put_ne]
  all_goals obtain ⟨rfl, -, hnone⟩ | ⟨k, b, ev, rfl, hb, hexec⟩ := hdone
  · simp
  · simp [(execute_ok hexec).1]
  · simp
  · simp only [List.mem_singleton, forall_eq, (execute_ok hexec).1]
    exact ⟨b, hb, _, _, hexec⟩
  · rintro t b ht hb
    obtain rfl := List.mem_singleton.1 ht
    cases hnone.symm.trans hb.2
  · rintro t b' ht hb'
    obtain rfl := List.mem_singleton.1 ht
    obtain ⟨hk, -⟩ := Prod.mk.inj (Option.some.inj (hb.2.symm.trans hb'.2))
    exact ⟨ev, by simp, (execute_ok hexec).1.trans (congrArg (Tag.mk t.pool) hk)⟩

theorem Engine.StepsTo.get_of_not_mem (h : e.StepsTo ps e' evs) {q : PoolId} (hq : q ∉ ps) : e'.pools.get q = e.pools.get q := by
  rw [h.pools, if_neg hq]

theorem Engine.StepsTo.slot (h : e.StepsTo ps e' evs) (q : PoolId) (k : Nat) :
    e'.slot q k = if q ∈ ps then (e.slot q k).map Slot.countdown else e.slot q k := by
  rw [Engine.slot_eq, h.pools]
  split
  · rw [← Engine.slot_eq, Engine.slot_countdown, if_pos rfl]
  · rfl

/-- Every event is that of a pool of the list. -/
theorem Engine.StepsTo.pool_mem (h : e.StepsTo ps e' evs) {ev : Event c.xlen} (hev : ev ∈ evs) : ev.tag.pool ∈ ps :=
  h.order.subset (List.mem_map_of_mem hev)

theorem Engine.stepPools_stepsTo (hps : ps.Nodup) (h : e.stepPools ps = .ok (e', evs)) : e.StepsTo ps e' evs := by
  induction ps generalizing e evs with
  | nil => cases h; exact ⟨rfl, by simp, by simp, by simp, by simp⟩
  | cons p ps ih =>
    obtain ⟨hp, hps⟩ := List.nodup_cons.1 hps
    obtain ⟨e₁, first, more, h₁, h₂, rfl⟩ := (e.stepPools_cons p ps e' evs).1 h
    have one := Engine.stepPool_stepsTo h₁
    have rest := ih hps h₂
    have hget : ∀ q ∈ ps, e₁.pools.get q = e.pools.get q := fun q hq =>
      one.get_of_not_mem (by simpa using ne_of_mem_of_not_mem hq hp)
    refine ⟨?_, fun q => ?_, ?_, ?_, ?_⟩
    · rw [rest.frame, one.frame]
    · rw [rest.pools]
      by_cases hq : q ∈ ps
      · simp [hq, hget q hq]
      · simp only [hq, if_false, one.pools, List.mem_cons, or_false, List.not_mem_nil]
    · rw [List.map_append]
      exact one.order.append rest.order
    · intro ev hev
      obtain hev | hev := List.mem_append.1 hev
      · exact one.event ev hev
      · obtain ⟨b, hb, hexec⟩ := rest.event ev hev
        exact ⟨b, (Engine.Selects.congr (hget _ (rest.pool_mem hev))).1 hb, hexec⟩
    · intro t b ht hb
      obtain ht | ht := List.mem_cons.1 ht
      · obtain ⟨ev, hev, htag⟩ := one.selected t b (by simp [ht]) hb
        exact ⟨ev, List.mem_append_left _ hev, htag⟩
      · obtain ⟨ev, hev, htag⟩ := rest.selected t b ht ((Engine.Selects.congr (hget _ ht)).2 hb)
        exact ⟨ev, List.mem_append_right _ hev, htag⟩

/-- A faulting step of pools is the fault of a slot that one of them selects (60_exceptions R240). -/
theorem Engine.stepPools_error {f : FaultCode × Nat} (hps : ps.Nodup) (h : e.stepPools ps = .error f) :
    ∃ t b, t.pool ∈ ps ∧ e.Selects t b ∧ ∃ e₁, execute e₁ t b = .error f := by
  induction ps generalizing e with
  | nil => cases h
  | cons p ps ih =>
    obtain ⟨hp, hps⟩ := List.nodup_cons.1 hps
    simp only [Engine.stepPools] at h
    cases h₁ : e.stepPool p with
    | error f₁ =>
      rw [h₁] at h
      cases h
      obtain ⟨k, b, hb, hexec⟩ := Engine.stepPool_error h₁
      exact ⟨_, b, List.mem_cons_self, hb, _, hexec⟩
    | ok r =>
      have one := Engine.stepPool_stepsTo h₁
      have hrest : r.1.stepPools ps = .error f := by
        simp only [h₁] at h
        cases h₂ : r.1.stepPools ps with
        | error f₂ => rw [h₂] at h; cases h; rfl
        | ok r₂ => rw [h₂] at h; cases h
      obtain ⟨t, b, ht, hb, hexec⟩ := ih hps hrest
      have hget := one.get_of_not_mem (by simpa using ne_of_mem_of_not_mem ht hp)
      exact ⟨t, b, List.mem_cons_of_mem _ ht, (Engine.Selects.congr hget).1 hb, hexec⟩

/-! ### Memory in the step of several pools -/

theorem poolOf_eq_store {op : Opcode} : poolOf op = .store ↔ op = .store := by cases op <;> decide

theorem poolOf_eq_beq {op : Opcode} : poolOf op = .beq ↔ op = .beq := by cases op <;> decide

/-- Memory after the STORE that its pool selects, where it selects one (20_memory R68). -/
def Engine.stored {c : Config} (e : Engine c) : Memory c.xlen :=
  match selectOldest ((e.countdown .store).pools.get .store) with
  | none => e.mem
  | some (_, b) => e.mem.write (storeAddress b).toNat b.oj.value

/-- An operation is only in a pool that executes it (40_engine_cycle R116). -/
def Engine.InPools {c : Config} (e : Engine c) : Prop := ∀ p k s, e.slot p k = some s → poolOf s.op = p

theorem Engine.InPools.countdown (h : e.InPools) {p : PoolId} {e' : Engine c} (he : e'.pools = (e.countdown p).pools) :
    e'.InPools := by
  intro q k s hs
  have hslot : e'.slot q k = (e.countdown p).slot q k := by rw [Engine.slot_eq, he, Engine.slot_eq]
  rw [hslot, Engine.slot_countdown] at hs
  split at hs
  · obtain ⟨b, hb, rfl⟩ := Option.map_eq_some_iff.1 hs
    rw [Slot.countdown_op]
    exact h q k b hb
  · exact h q k s hs

theorem Engine.stored_of_none (h : selectOldest ((e.countdown .store).pools.get .store) = none) : e.stored = e.mem := by
  rw [Engine.stored, h]

theorem Engine.stored_of_selects {k : Nat} {b : Slot c.xlen} (h : e.Selects ⟨.store, k⟩ b) :
    e.stored = e.mem.write (storeAddress b).toNat b.oj.value := by
  have hsel : selectOldest ((e.countdown .store).pools.get .store) = some (k, b.countdown) := h.2
  rw [Engine.stored, hsel]
  simp only [storeAddress, Slot.countdown_a, Slot.countdown_ok, Slot.countdown_oj]

/-- The STORE pool's step writes the word of the STORE it selects, and no other pool's step writes memory (R127). -/
theorem Engine.stepPool_mem (hpool : e.InPools) {p : PoolId} (h : e.stepPool p = .ok (e', evs)) :
    e'.mem = if p = .store then e.stored else e.mem := by
  obtain ⟨-, ⟨-, hmem, hnone⟩ | ⟨k, b, ev, -, hb, hexec⟩⟩ := Engine.stepPool_ok h
  · rw [hmem]
    split
    · next hp => subst hp; rw [Engine.stored_of_none hnone]
    · rfl
  · have hop : poolOf b.op = p := hpool p k b hb.1
    obtain ⟨-, -, -, hother, hstore⟩ := execute_ok hexec
    by_cases hbop : b.op = .store
    · rw [(hstore hbop).1]
      have hp : p = .store := by rw [← hop, hbop]; rfl
      subst hp
      rw [if_pos rfl, Engine.stored_of_selects hb]
      rfl
    · have hp : p ≠ .store := fun h => hbop (poolOf_eq_store.1 (hop.trans h))
      rw [if_neg hp, hother hbop]
      rfl

theorem Engine.stepPools_mem (hpool : e.InPools) (hps : ps.Nodup) (h : e.stepPools ps = .ok (e', evs)) :
    e'.mem = if .store ∈ ps then e.stored else e.mem := by
  induction ps generalizing e evs with
  | nil => cases h; simp
  | cons p ps ih =>
    obtain ⟨hp, hps⟩ := List.nodup_cons.1 hps
    obtain ⟨e₁, first, more, h₁, h₂, rfl⟩ := (e.stepPools_cons p ps e' evs).1 h
    have hpools : e₁.pools = (e.countdown p).pools := by rw [(Engine.stepPool_ok h₁).1]
    have hmem := Engine.stepPool_mem hpool h₁
    rw [ih (hpool.countdown hpools) hps h₂]
    by_cases hstore : p = .store
    · subst hstore; simpa [hp] using hmem
    · have hkeep : e₁.stored = e.stored := by
        unfold Engine.stored
        rw [if_neg hstore] at hmem
        simp [hpools, hmem, Pools.get_put_ne _ _ (Ne.symm hstore)]
      rw [if_neg hstore] at hmem
      simp [hkeep, hmem, Ne.symm hstore]

/-- In an order that steps no LOAD pool after the STORE pool, each event but a STORE's is the one that executing its slot before the
step answers: a LOAD reads memory before that cycle's STORE writes it (20_memory R68). -/
theorem Engine.stepPools_event (hpool : e.InPools) (hps : ps.Nodup) (horder : ps.Pairwise fun p q => q = .load → p ≠ .store)
    (h : e.stepPools ps = .ok (e', evs)) :
    ∀ ev ∈ evs, ∃ b, e.Selects ev.tag b ∧ (b.op ≠ .store → execute e ev.tag b = .ok (e, ev)) := by
  induction ps generalizing e evs with
  | nil => cases h; simp
  | cons p ps ih =>
    obtain ⟨hp, hps⟩ := List.nodup_cons.1 hps
    obtain ⟨hload, horder⟩ := List.pairwise_cons.1 horder
    obtain ⟨e₁, first, more, h₁, h₂, rfl⟩ := (e.stepPools_cons p ps e' evs).1 h
    obtain ⟨hframe, hdone⟩ := Engine.stepPool_ok h₁
    have hpools : e₁.pools = (e.countdown p).pools := by rw [hframe]
    intro ev hev
    obtain hev | hev := List.mem_append.1 hev
    · obtain ⟨rfl, -⟩ | ⟨k, b, ev', rfl, hb, hexec⟩ := hdone
      · cases hev
      · obtain rfl := List.mem_singleton.1 hev
        obtain ⟨htag, -⟩ := execute_ok hexec
        rw [htag]
        exact ⟨b, hb, fun hop => execute_congr (e := e.countdown p) e hop (fun _ => rfl) hexec⟩
    · obtain ⟨b, hb, hexec⟩ := ih (hpool.countdown hpools) hps horder h₂ ev hev
      have hmem : ev.tag.pool ∈ ps := (Engine.stepPools_stepsTo hps h₂).pool_mem hev
      have hget := (Engine.stepPool_stepsTo h₁).get_of_not_mem (by simpa using ne_of_mem_of_not_mem hmem hp)
      have hb := (Engine.Selects.congr hget).1 hb
      refine ⟨b, hb, fun hop => execute_congr e hop (fun hl => ?_) (hexec hop)⟩
      have hq : ev.tag.pool = .load := by rw [← hpool _ _ b hb.1, hl]; rfl
      rw [Engine.stepPool_mem hpool h₁, if_neg (hload _ hmem hq)]

theorem poolOrder_nodup : poolOrder.Nodup := by decide

theorem mem_poolOrder (p : PoolId) : p ∈ poolOrder := by cases p <;> decide

/-- The cycle's order steps the LOAD pool before the STORE pool (R135). -/
theorem poolOrder_load_before_store : poolOrder.Pairwise fun p q => q = .load → p ≠ .store := by decide

end Pools

/-- A completed LOAD has the word that memory answers at its address (R180). -/
theorem execute_load_value {c : Config} {e e' : Engine c} {t : Tag} {s : Slot c.xlen} {ev : Event c.xlen} (hop : s.op = .load)
    (h : execute e t s = .ok (e', ev)) : ev.value = memRead e.mem (loadAddress s) := by
  rw [execute_load hop] at h
  split at h
  · next hin => cases h; simp [resultEvent, memRead, inMemory, hin]
  · cases h

/-- Settles O33: the event of a LOAD is the one its execution before the cycle's step answers, which reads the memory of then. -/
theorem loadReadsBeforeStoreWrites : Obligations.LoadReadsBeforeStoreWrites := by
  unfold Obligations.LoadReadsBeforeStoreWrites
  intro c e e' evs ev hpool h hev hload
  obtain ⟨s, hs, hexec⟩ := Engine.stepPools_event hpool poolOrder_nodup poolOrder_load_before_store h ev hev
  obtain ⟨s', hs', _, _, hexec'⟩ := (Engine.stepPools_stepsTo poolOrder_nodup h).event ev hev
  cases hs'.1.symm.trans hs.1
  have hop : s.op = .load := by rw [← hload, (execute_ok hexec').2.2.1]
  have hexec := hexec (by rw [hop]; decide)
  refine ⟨s, hs.1, hop, execute_load_value hop hexec, ?_⟩
  rw [(execute_result hexec).1, hop]
  rfl

end Sys2Proof.Machine
end

section
/-! The broadcast of a cycle's events (40_engine_cycle R129 to R131): events of different tags in either order, and what all the
events of a cycle together do to registers, status entries and waiting operands. -/

namespace Sys2Proof.Machine

/-- The event gives the value `v` to register `r` (R128). -/
def Event.Result {w : Nat} (ev : Event w) (r : Nat) (v : Word w) : Prop := ev.dest = some r ∧ ev.value = some v

/-- An event without a register result changes nothing (R129). -/
theorem Engine.broadcast_of_noResult {c : Config} {ev : Event c.xlen} (h : ¬ ∃ r v, ev.Result r v) (e : Engine c) :
    e.broadcast ev = e := by
  unfold Engine.broadcast
  split
  · next hd hv => exact absurd ⟨_, _, hd, hv⟩ h
  · rfl

section Order
variable {c : Config} (e : Engine c) {t t' : Tag}

theorem Engine.writeBack_of_ne {d : Nat} (v : Word c.xlen) (h : e.currentTag d ≠ some t) : e.writeBack d t v = e := by
  rw [Engine.writeBack, if_neg h]

theorem Engine.writeBack_of_eq {d : Nat} (v : Word c.xlen) (h : e.currentTag d = some t) :
    e.writeBack d t v = (e.setReg d v).clearPending d := by
  rw [Engine.writeBack, if_pos h]

/-- A register that names another tag, or another register, decides a write-back the same before and after this one. -/
theorem Engine.currentTag_writeBack_eq_some_iff (d d' : Nat) (v : Word c.xlen) (h : t ≠ t') :
    (e.writeBack d t v).currentTag d' = some t' ↔ e.currentTag d' = some t' := by
  rw [Engine.currentTag_writeBack]
  split
  · next hd => rw [hd.1, hd.2]; simp [h]
  · rfl

/-- Write-backs of different tags commute: at most one of them finds its tag in a register they share (R131). -/
theorem Engine.writeBack_comm (d d' : Nat) (v v' : Word c.xlen) (h : t ≠ t') :
    (e.writeBack d t v).writeBack d' t' v' = (e.writeBack d' t' v').writeBack d t v := by
  have hleft := e.currentTag_writeBack_eq_some_iff d d' v h
  have hright := e.currentTag_writeBack_eq_some_iff d' d v' h.symm
  by_cases hd : e.currentTag d = some t
  · by_cases hd' : e.currentTag d' = some t'
    · have hne : d ≠ d' := by rintro rfl; exact h (Option.some.inj (hd.symm.trans hd'))
      rw [Engine.writeBack_of_eq _ _ (hleft.2 hd'), Engine.writeBack_of_eq _ _ (hright.2 hd), e.writeBack_of_eq _ hd,
        e.writeBack_of_eq _ hd']
      simp [Engine.setReg, Engine.clearPending, List.set_comm _ _ hne]
    · rw [Engine.writeBack_of_ne _ _ (fun h => hd' (hleft.1 h)), e.writeBack_of_ne _ hd']
  · rw [Engine.writeBack_of_ne _ _ (fun h => hd (hright.1 h)), e.writeBack_of_ne _ hd]

theorem Operand.wake_comm {w : Nat} (o : Operand w) (v v' : Word w) (h : t ≠ t') :
    (o.wake t v).wake t' v' = (o.wake t' v').wake t v := by
  cases o with
  | val u => rfl
  | wait q =>
    by_cases hq : q = t
    · subst hq; simp [Operand.wake, h]
    · by_cases hq' : q = t'
      · subst hq'; simp [Operand.wake, hq]
      · simp [Operand.wake, hq, hq']

theorem Engine.wakeAll_comm (v v' : Word c.xlen) (h : t ≠ t') :
    (e.wakeAll t v).wakeAll t' v' = (e.wakeAll t' v').wakeAll t v := by
  have hslots : (Option.map (Slot.wake t' v') ∘ Option.map (Slot.wake t v) : Option (Slot c.xlen) → _) =
      Option.map (Slot.wake t v) ∘ Option.map (Slot.wake t' v') := by
    funext o
    cases o with
    | none => rfl
    | some s => simp [Slot.wake, Operand.wake_comm _ _ _ h]
  have hpools : (e.pools.mapBusy (Slot.wake t v)).mapBusy (Slot.wake t' v') =
      (e.pools.mapBusy (Slot.wake t' v')).mapBusy (Slot.wake t v) :=
    Pools.ext_get fun r => by simp only [Pools.get_mapBusy, List.map_map, hslots]
  simp only [Engine.wakeAll, hpools]

/-- A write-back and a wake touch different parts of the engine. -/
theorem Engine.writeBack_wakeAll (d : Nat) (v v' : Word c.xlen) :
    (e.wakeAll t v).writeBack d t' v' = (e.writeBack d t' v').wakeAll t v := by
  by_cases h : e.currentTag d = some t'
  · rw [e.writeBack_of_eq _ h, Engine.writeBack_of_eq _ _ (by rwa [Engine.currentTag_wakeAll])]; rfl
  · rw [e.writeBack_of_ne _ h, Engine.writeBack_of_ne _ _ (by rwa [Engine.currentTag_wakeAll])]

end Order

/-- Settles O29: write-backs of different tags commute, wakes of different tags commute, and a wake commutes with a write-back. -/
theorem broadcastOrderIsIrrelevant : Obligations.BroadcastOrderIsIrrelevant := by
  unfold Obligations.BroadcastOrderIsIrrelevant
  intro c e ev ev' htag
  by_cases h : ∃ r v, ev.Result r v
  · obtain ⟨d, v, hd, hv⟩ := h
    by_cases h' : ∃ r v, ev'.Result r v
    · obtain ⟨d', v', hd', hv'⟩ := h'
      simp only [Engine.broadcast_of_result _ hd hv, Engine.broadcast_of_result _ hd' hv']
      rw [Engine.writeBack_wakeAll, Engine.writeBack_wakeAll, Engine.wakeAll_comm _ _ _ htag, Engine.writeBack_comm _ _ _ _ _ htag]
    · rw [Engine.broadcast_of_noResult h', Engine.broadcast_of_noResult h']
  · rw [Engine.broadcast_of_noResult h, Engine.broadcast_of_noResult h]

/-- Settles O32: the quotient rounded down is the one integer whose multiple is at most the offset and whose next is above it. -/
theorem branchTargetRoundsDown : Obligations.BranchTargetRoundsDown := by
  unfold Obligations.BranchTargetRoundsDown
  intro c i imm k hiw hle hlt
  have hpos : (0 : Int) < c.iw := by exact_mod_cast hiw
  have hdiv : Int.fdiv imm.toInt c.iw = k := by
    rw [Int.fdiv_eq_ediv_of_nonneg _ hpos.le]
    have hlow : k ≤ imm.toInt / c.iw := (Int.le_ediv_iff_mul_le hpos).2 (by rwa [Int.mul_comm])
    have hhigh : imm.toInt / c.iw < k + 1 := (Int.ediv_lt_iff_lt_mul hpos).2 (by rwa [Int.mul_comm])
    omega
  rw [branchTarget, immValue, hdiv]

/-! ### All the events of a cycle -/

/-- An operand after the broadcast of one event (R130). -/
def Operand.heard {w : Nat} (ev : Event w) (o : Operand w) : Operand w :=
  match ev.dest, ev.value with
  | some _, some v => o.wake ev.tag v
  | _, _ => o

/-- An operand after the broadcasts of a cycle's events, in their order (R130, R131). -/
def Operand.hear {w : Nat} (evs : List (Event w)) (o : Operand w) : Operand w := evs.foldl (fun o ev => o.heard ev) o

/-- A slot after the broadcasts of a cycle's events (R130). -/
def Slot.hear {w : Nat} (evs : List (Event w)) (s : Slot w) : Slot w := { s with oj := s.oj.hear evs, ok := s.ok.hear evs }

section Hear
variable {w : Nat} {ev : Event w} {evs : List (Event w)}

theorem Operand.heard_of_result {r : Nat} {v : Word w} (h : ev.Result r v) (o : Operand w) : o.heard ev = o.wake ev.tag v := by
  simp only [Operand.heard, h.1, h.2]

theorem Operand.heard_of_noResult (h : ¬ ∃ r v, ev.Result r v) (o : Operand w) : o.heard ev = o := by
  unfold Operand.heard
  split
  · next hd hv => exact absurd ⟨_, _, hd, hv⟩ h
  · rfl

/-- An operand still waits after a broadcast exactly when it waited and the event had no result under its tag (R130). -/
theorem Operand.heard_eq_wait_iff (o : Operand w) (t : Tag) :
    o.heard ev = .wait t ↔ o = .wait t ∧ (ev.tag = t → ¬ ∃ r v, ev.Result r v) := by
  by_cases h : ∃ r v, ev.Result r v
  · obtain ⟨r, v, hr⟩ := h
    rw [Operand.heard_of_result hr, Operand.wake_eq]
    split
    · next ho => simp only [ho, Operand.wait.injEq, reduceCtorEq, false_iff]; exact fun h => h.2 h.1 ⟨r, v, hr⟩
    · next ho => exact ⟨fun h => ⟨h, fun ht => absurd (ht ▸ h) ho⟩, fun h => h.1⟩
  · simp [Operand.heard_of_noResult h, h]

theorem Operand.hear_cons (o : Operand w) : o.hear (ev :: evs) = (o.heard ev).hear evs := rfl

theorem Operand.hear_eq_wait_iff (o : Operand w) (t : Tag) :
    o.hear evs = .wait t ↔ o = .wait t ∧ ∀ ev ∈ evs, ev.tag = t → ¬ ∃ r v, ev.Result r v := by
  induction evs generalizing o with
  | nil => simp [Operand.hear]
  | cons ev evs ih => rw [Operand.hear_cons, ih, Operand.heard_eq_wait_iff, List.forall_mem_cons, and_assoc]

@[simp] theorem Operand.hear_val (v : Word w) : (Operand.val v).hear evs = .val v := by
  induction evs with
  | nil => rfl
  | cons ev evs ih =>
    have hval : (Operand.val v).heard ev = .val v := by unfold Operand.heard; split <;> rfl
    rw [Operand.hear_cons, hval, ih]

theorem Slot.hear_of_ready {s : Slot w} (h : s.ready = true) : s.hear evs = s := by
  obtain ⟨vj, vk, hj, hk⟩ := s.ready_iff.1 h
  simp only [Slot.hear, hj, hk, Operand.hear_val]
  cases s
  simp_all

end Hear

section All
variable {c : Config} (e : Engine c) (ev : Event c.xlen) (evs : List (Event c.xlen))

@[simp] theorem Engine.broadcastAll_nil : e.broadcastAll [] = e := rfl

@[simp] theorem Engine.broadcastAll_cons : e.broadcastAll (ev :: evs) = (e.broadcast ev).broadcastAll evs := rfl

/-- What one broadcast keeps, the broadcasts of a cycle keep. -/
theorem Engine.broadcastAll_keeps {α : Type} (part : Engine c → α)
    (hkeep : ∀ (e : Engine c) ev, part (e.broadcast ev) = part e) : part (e.broadcastAll evs) = part e := by
  induction evs generalizing e with
  | nil => rfl
  | cons ev evs ih => rw [Engine.broadcastAll_cons, ih, hkeep]

/-- A broadcast touches registers, status entries and slots alone (R129, R130). -/
theorem Engine.broadcast_frame :
    e.broadcast ev = { e with x := (e.broadcast ev).x, rst := (e.broadcast ev).rst, pools := (e.broadcast ev).pools } := by
  unfold Engine.broadcast Engine.writeBack
  split
  · split <;> rfl
  · rfl

theorem Engine.broadcastAll_frame :
    e.broadcastAll evs =
      { e with x := (e.broadcastAll evs).x, rst := (e.broadcastAll evs).rst, pools := (e.broadcastAll evs).pools } := by
  induction evs generalizing e with
  | nil => rfl
  | cons ev evs ih => rw [Engine.broadcastAll_cons, ih, e.broadcast_frame]

/-- A broadcast keeps the sizes of the register file, the status table and the pools. -/
theorem Engine.broadcast_sizes (p : PoolId) :
    (e.broadcast ev).x.length = e.x.length ∧ (e.broadcast ev).rst.length = e.rst.length ∧
      ((e.broadcast ev).pools.get p).length = (e.pools.get p).length := by
  unfold Engine.broadcast Engine.writeBack
  split
  · split <;> simp
  · simp

theorem Engine.broadcastAll_sizes (p : PoolId) :
    (e.broadcastAll evs).x.length = e.x.length ∧ (e.broadcastAll evs).rst.length = e.rst.length ∧
      ((e.broadcastAll evs).pools.get p).length = (e.pools.get p).length :=
  ⟨e.broadcastAll_keeps evs (·.x.length) fun e ev => (e.broadcast_sizes ev p).1,
    e.broadcastAll_keeps evs (·.rst.length) fun e ev => (e.broadcast_sizes ev p).2.1,
    e.broadcastAll_keeps evs (fun e => (e.pools.get p).length) fun e ev => (e.broadcast_sizes ev p).2.2⟩

theorem Engine.slot_broadcast (p : PoolId) (k : Nat) :
    (e.broadcast ev).slot p k = (e.slot p k).map fun s => { s with oj := s.oj.heard ev, ok := s.ok.heard ev } := by
  by_cases h : ∃ r v, ev.Result r v
  · obtain ⟨r, v, hr⟩ := h
    rw [e.broadcast_of_result hr.1 hr.2, Engine.slot_wakeAll, Engine.slot_writeBack]
    simp only [Operand.heard_of_result hr]
    rfl
  · rw [Engine.broadcast_of_noResult h]
    simp [Operand.heard_of_noResult h]

/-- Every busy slot hears every event (R130). -/
theorem Engine.slot_broadcastAll (p : PoolId) (k : Nat) :
    (e.broadcastAll evs).slot p k = (e.slot p k).map (Slot.hear evs) := by
  induction evs generalizing e with
  | nil => exact Option.map_id'.symm
  | cons ev evs ih =>
    rw [Engine.broadcastAll_cons, ih, Engine.slot_broadcast, Option.map_map]
    rfl

/-- What one broadcast does to register `r`: its result is written and the register made Ready, exactly when the event has a result
for it and the register names the event's tag (R129). -/
theorem Engine.broadcast_register (r : Nat) :
    (∃ v, ev.Result r v ∧ e.currentTag r = some ev.tag ∧ (e.broadcast ev).currentTag r = none ∧
      (r < e.x.length → (e.broadcast ev).reg r = v)) ∨
    ((e.broadcast ev).reg r = e.reg r ∧ (e.broadcast ev).currentTag r = e.currentTag r ∧
      ∀ v, ev.Result r v → e.currentTag r ≠ some ev.tag) := by
  by_cases h : ∃ d v, ev.Result d v
  · obtain ⟨d, v, hd, hv⟩ := h
    rw [e.broadcast_of_result hd hv, Engine.reg_wakeAll, Engine.currentTag_wakeAll]
    by_cases htag : e.currentTag d = some ev.tag
    · rw [e.writeBack_of_eq v htag, Engine.reg_clearPending, Engine.currentTag_clearPending, Engine.currentTag_setReg]
      by_cases hr : r = d
      · subst hr
        exact .inl ⟨v, ⟨hd, hv⟩, htag, if_pos rfl, fun hlt => by rw [e.reg_setReg _ _ _ hlt, if_pos rfl]⟩
      · refine .inr ⟨?_, if_neg hr, fun _ hres => absurd (Option.some.inj (hres.1.symm.trans hd)) hr⟩
        simp [Engine.reg, List.getElem?_set_ne (Ne.symm hr)]
    · rw [e.writeBack_of_ne v htag]
      refine .inr ⟨rfl, rfl, fun _ hres => ?_⟩
      rwa [Option.some.inj (hres.1.symm.trans hd)]
  · rw [Engine.broadcast_of_noResult h]
    exact .inr ⟨rfl, rfl, fun v hres => absurd ⟨r, v, hres⟩ h⟩

/-- What the broadcasts of a cycle do to register `r`: the event whose tag it names gives it its result and makes it Ready, or it
stays as it was (R129, R131). -/
theorem Engine.broadcastAll_register (r : Nat) :
    (∃ ev ∈ evs, ∃ v, ev.Result r v ∧ e.currentTag r = some ev.tag ∧ (e.broadcastAll evs).currentTag r = none ∧
      (r < e.x.length → (e.broadcastAll evs).reg r = v)) ∨
    ((e.broadcastAll evs).reg r = e.reg r ∧ (e.broadcastAll evs).currentTag r = e.currentTag r ∧
      ∀ ev ∈ evs, ∀ v, ev.Result r v → e.currentTag r ≠ some ev.tag) := by
  induction evs generalizing e with
  | nil => exact .inr ⟨rfl, rfl, by simp⟩
  | cons ev evs ih =>
    rw [Engine.broadcastAll_cons]
    have hlen := (e.broadcast_sizes ev .add).1
    obtain ⟨v, hres, htag, hready, hreg⟩ | ⟨hreg, htag, hno⟩ := e.broadcast_register ev r
    · obtain ⟨_, _, _, _, htag', -⟩ | ⟨hreg', htag', -⟩ := ih (e.broadcast ev)
      · cases hready.symm.trans htag'
      · exact .inl ⟨ev, List.mem_cons_self, v, hres, htag, htag'.trans hready, fun hlt => hreg'.trans (hreg hlt)⟩
    · obtain ⟨ev', hmem, v, hres, htag', hready, hreg'⟩ | ⟨hreg', htag', hno'⟩ := ih (e.broadcast ev)
      · exact .inl ⟨ev', List.mem_cons_of_mem _ hmem, v, hres, htag ▸ htag', hready, fun hlt => hreg' (hlen.symm ▸ hlt)⟩
      · exact .inr ⟨hreg'.trans hreg, htag'.trans htag, List.forall_mem_cons.2 ⟨hno, fun ev' hmem v hres => htag ▸ hno' ev' hmem v hres⟩⟩

end All

end Sys2Proof.Machine
end

section
/-! The clock edge by cases (40_engine_cycle R110, R111, R112, R135): what an edge can make of the engine, and what a cycle that does not
fault leaves. -/

namespace Sys2Proof.Machine

/-! ### The edge -/

/-- What one clock edge can make of a machine's engine: the reset action; nothing, in a stopped engine; the halt of a drained one;
the guard's fault; or a dispatch followed by the rest of the cycle. -/
inductive State.Edge (s : State) : Engine s.cfg → Prop where
  | reset (hpin : s.resetPin = true) : s.Edge (s.eng.applyReset s.prog.length)
  | still (hpin : s.resetPin = false) (hstop : s.eng.status ≠ .running) : s.Edge s.eng
  | halt (hpin : s.resetPin = false) (hrun : s.eng.status = .running) (hdrained : s.eng.drained = true) :
      s.Edge { s.eng with status := .halted }
  | guard (hpin : s.resetPin = false) (hrun : s.eng.status = .running) (hwork : s.eng.drained = false)
      (hguard : s.eng.guardTrips = true) : s.Edge (s.eng.raise .cycleLimit 0)
  | cycle (hpin : s.resetPin = false) (hrun : s.eng.status = .running) (hwork : s.eng.drained = false)
      (hguard : s.eng.guardTrips = false) (d : Engine s.cfg) (hd : s.eng.beginCycle.Dispatches d) : s.Edge d.finishCycle

section EngineCycle
variable {s : State}

theorem engineCycle_of_drained (h : s.eng.drained = true) :
    engineCycle s = .next { s with eng := { s.eng with status := .halted } } := by
  simp only [engineCycle, h, if_true]

/-- With nothing to fetch the cycle dispatches nothing (R115). -/
theorem engineCycle_of_nil (hwork : s.eng.drained = false) (hguard : s.eng.guardTrips = false) (hstream : s.eng.stream = []) :
    engineCycle s = .next { s with eng := s.eng.beginCycle.finishCycle } := by
  simp [engineCycle, hwork, hguard, State.fetch, hstream, finishOutcome]

/-- With a record at the head the cycle dispatches it (R115). -/
theorem engineCycle_of_record {i : Nat} {rest : List Nat} {w : Record} (hwork : s.eng.drained = false)
    (hguard : s.eng.guardTrips = false) (hstream : s.eng.stream = i :: rest) (hprog : s.prog[i]? = some w) :
    engineCycle s = finishOutcome (dispatchRecord w { s with eng := s.eng.beginCycle }) := by
  simp [engineCycle, hwork, hguard, State.fetch, hstream, hprog]

theorem engineCycle_of_outside {i : Nat} {rest : List Nat} (hwork : s.eng.drained = false)
    (hguard : s.eng.guardTrips = false) (hstream : s.eng.stream = i :: rest) (hprog : s.prog[i]? = none) :
    engineCycle s = .fault (.programReadOutside i) := by
  simp [engineCycle, hwork, hguard, State.fetch, hstream, hprog]

theorem step_of_running (hpin : s.resetPin = false) (hrun : s.eng.status = .running) : step s = engineCycle s := by
  simp [step, clockEdge, hpin, hrun]

/-- A cycle answers a dispatch and the rest of the cycle, or the head names no record of the program (R115, R135). -/
theorem engineCycle_cases (hwork : s.eng.drained = false) (hguard : s.eng.guardTrips = false) :
    (∃ d, s.eng.beginCycle.Dispatches d ∧ engineCycle s = .next { s with eng := d.finishCycle }) ∨
    ∃ i rest, s.eng.stream = i :: rest ∧ s.prog[i]? = none ∧ engineCycle s = .fault (.programReadOutside i) := by
  cases hstream : s.eng.stream with
  | nil => exact .inl ⟨_, .idle, engineCycle_of_nil hwork hguard hstream⟩
  | cons i rest =>
    cases hprog : s.prog[i]? with
    | none => exact .inr ⟨i, rest, rfl, hprog, engineCycle_of_outside hwork hguard hstream hprog⟩
    | some w =>
      obtain ⟨d, hdispatch, hd⟩ := dispatchRecord_dispatches w { s with eng := s.eng.beginCycle }
      refine .inl ⟨d, hd, ?_⟩
      rw [engineCycle_of_record hwork hguard hstream hprog, hdispatch]
      rfl

end EngineCycle

/-- Every next state of a step differs in the engine alone, and its engine is one of the edge's (R135, 70_reset_and_hazards R260). -/
theorem step_edge {s t : State} (h : step s = .next t) : ∃ e' : Engine s.cfg, t = { s with eng := e' } ∧ s.Edge e' := by
  obtain ⟨hpin, hstep⟩ | ⟨hpin, hstop, hstep⟩ | ⟨hpin, hrun, hstep⟩ := step_cases s
  · cases hstep.symm.trans h
    exact ⟨_, rfl, .reset hpin⟩
  · cases hstep.symm.trans h
    exact ⟨_, rfl, .still hpin hstop⟩
  · rw [hstep] at h
    cases hwork : s.eng.drained with
    | true =>
      cases (engineCycle_of_drained hwork).symm.trans h
      exact ⟨_, rfl, .halt hpin hrun hwork⟩
    | false =>
      cases hguard : s.eng.guardTrips with
      | true =>
        cases (engineCycle_of_guardTrips hwork hguard).symm.trans h
        exact ⟨_, rfl, .guard hpin hrun hwork hguard⟩
      | false =>
        obtain ⟨d, hd, hcycle⟩ | ⟨_, _, -, -, hcycle⟩ := engineCycle_cases hwork hguard
        · cases hcycle.symm.trans h
          exact ⟨_, rfl, .cycle hpin hrun hwork hguard d hd⟩
        · cases hcycle.symm.trans h

/-- Settles O52: an edge changes the engine alone. -/
theorem parametersNeverChange : Obligations.ParametersNeverChange := by
  unfold Obligations.ParametersNeverChange
  intro s t h
  obtain ⟨e', rfl, -⟩ := step_edge h
  exact ⟨rfl, rfl, rfl⟩

/-- The head of a stream that is a run of the program names a record of it (10_state R30). -/
theorem State.StreamOk.head_lt {s : State} (h : s.StreamOk) (hfault : s.eng.status ≠ .faulted) {i : Nat} {rest : List Nat}
    (hstream : s.eng.stream = i :: rest) : i < s.prog.length := by
  obtain ⟨k, hk⟩ := h.suffix hfault
  have hi : i ∈ streamFrom k s.eng.progLen := by rw [← hk, hstream]; exact List.mem_cons_self
  rw [streamFrom_eq_drop] at hi
  rw [← h.sampled]
  exact List.mem_range.1 (List.mem_of_mem_drop hi)

/-- From a state whose stream is a run of the program a cycle with work left and no guard is a dispatch and the rest of the cycle. -/
theorem engineCycle_of_streamOk {s : State} (h : s.StreamOk) (hrun : s.eng.status = .running) (hwork : s.eng.drained = false)
    (hguard : s.eng.guardTrips = false) :
    ∃ d, s.eng.beginCycle.Dispatches d ∧ engineCycle s = .next { s with eng := d.finishCycle } := by
  obtain hcycle | ⟨i, rest, hstream, hprog, -⟩ := engineCycle_cases hwork hguard
  · exact hcycle
  · have hlt := h.head_lt (by simp [hrun]) hstream
    exact absurd (List.getElem?_eq_none_iff.1 hprog) (Nat.not_le.2 hlt)

/-- Settles O51: every case of the edge answers, since the head of the stream names a record. -/
theorem stepAlwaysAnswers : Obligations.StepAlwaysAnswers := by
  unfold Obligations.StepAlwaysAnswers
  intro s h
  obtain ⟨-, hstep⟩ | ⟨-, -, hstep⟩ | ⟨-, hrun, hstep⟩ := step_cases s
  · exact ⟨_, hstep⟩
  · exact ⟨_, hstep⟩
  · rw [hstep]
    cases hwork : s.eng.drained with
    | true => exact ⟨_, engineCycle_of_drained hwork⟩
    | false =>
      cases hguard : s.eng.guardTrips with
      | true => exact ⟨_, engineCycle_of_guardTrips hwork hguard⟩
      | false =>
        obtain ⟨d, -, hcycle⟩ := engineCycle_of_streamOk h hrun hwork hguard
        exact ⟨_, hcycle⟩

/-- Settles O34: an engine with an empty stream and no busy slot is drained; a stopped one is left as it is. -/
theorem haltsWhenDrained : Obligations.HaltsWhenDrained := by
  unfold Obligations.HaltsWhenDrained
  refine ⟨fun s hpin hrun hstream hidle => ?_, fun s hpin hstop => ?_⟩
  · have hdrained : s.eng.drained = true := by
      rw [← Bool.not_eq_false, Engine.drained_eq_false_iff]
      rintro (hne | ⟨p, k, b, hb⟩)
      · exact hne hstream
      · cases (hidle p k).symm.trans hb
    rw [step_of_running hpin hrun, engineCycle_of_drained hdrained]
  · simp [step, clockEdge, hpin, hstop]

@[simp] theorem Engine.currentTag_applyReset {c : Config} (e : Engine c) (n r : Nat) : (e.applyReset n).currentTag r = none := by
  simp only [Engine.currentTag, Engine.applyReset_rst, List.getD_eq_getElem?_getD, List.getElem?_replicate]
  split <;> rfl

theorem Engine.slot_of_idlePools {c : Config} {e : Engine c} (h : e.pools = idlePools c) (p : PoolId) (k : Nat) :
    e.slot p k = none := by
  simp only [Engine.slot, h, idlePools_get, List.getD_eq_getElem?_getD, List.getElem?_replicate]
  split <;> rfl

/-- Settles O37: the edge with reset at 1 is the reset action, field by field. -/
theorem resetSetsEverythingElse : Obligations.ResetSetsEverythingElse := by
  unfold Obligations.ResetSetsEverythingElse
  intro s hpin
  obtain ⟨-, hstep⟩ | ⟨h, -⟩ | ⟨h, -⟩ := step_cases s
  · exact ⟨_, hstep, rfl, rfl, s.eng.currentTag_applyReset _, Engine.slot_of_idlePools rfl, rfl, rfl, rfl, rfl, rfl, rfl, rfl, rfl,
      rfl, rfl⟩
  · cases hpin.symm.trans h
  · cases hpin.symm.trans h

/-! ### The rest of a cycle -/

section Finish
variable {c : Config} {e : Engine c}

/-- Sub-steps (2) to (6): a fault of the pools' step, a fault of the redirect, or a cycle carried to its end (R135). -/
theorem Engine.finishCycle_cases (hrun : e.status = .running) :
    (∃ f i, e.stepPools poolOrder = .error (f, i) ∧ e.finishCycle = e.raise f i) ∨
    ∃ e₁ evs, e.stepPools poolOrder = .ok (e₁, evs) ∧
      ((∃ f i, ((e₁.broadcastAll evs).releaseAll evs).redirectAll evs = .error (f, i) ∧
          e.finishCycle = ((e₁.broadcastAll evs).releaseAll evs).raise f i) ∨
        ∃ e₂, ((e₁.broadcastAll evs).releaseAll evs).redirectAll evs = .ok e₂ ∧ e.finishCycle = e₂.clearFresh) := by
  simp only [Engine.finishCycle, hrun, ne_eq, not_true_eq_false, if_false]
  cases hstep : e.stepPools poolOrder with
  | error f => exact .inl ⟨f.1, f.2, rfl, rfl⟩
  | ok r =>
    refine .inr ⟨r.1, r.2, rfl, ?_⟩
    simp only
    cases hredirect : ((r.1.broadcastAll r.2).releaseAll r.2).redirectAll r.2 with
    | error f => exact .inl ⟨f.1, f.2, rfl, rfl⟩
    | ok e₂ => exact .inr ⟨e₂, rfl, rfl⟩

/-- Releases touch slots and the count of completions alone (R132). -/
theorem Engine.releaseAll_frame (e : Engine c) (evs : List (Event c.xlen)) :
    e.releaseAll evs = { e with pools := (e.releaseAll evs).pools, completed := e.completed + evs.length } := by
  induction evs generalizing e with
  | nil => rfl
  | cons ev evs ih =>
    rw [Engine.releaseAll_cons, ih, List.length_cons]
    simp only [Engine.release, Engine.setSlot]
    congr 1
    omega

theorem Engine.releaseAll_size (e : Engine c) (evs : List (Event c.xlen)) (p : PoolId) :
    ((e.releaseAll evs).pools.get p).length = (e.pools.get p).length :=
  e.releaseAll_keeps (fun e => (e.pools.get p).length)
    (fun e ev => by rw [Engine.release_pools, Pools.get_put]; split <;> simp_all) evs

/-- What a cycle without a fault leaves of the engine `e` its dispatch left, its pools' step having answered `e₁` and the events
`evs`: each event's slot idle and every other slot counted down, woken and no longer fresh; each register with the result of the event
whose tag it names; and the stream as it was or refilled (R125 to R134). -/
structure Engine.Finishes (e e₁ : Engine c) (evs : List (Event c.xlen)) (e' : Engine c) : Prop where
  stepped : e.stepPools poolOrder = .ok (e₁, evs)
  frame : e' =
    { e with
      x := e'.x
      rst := e'.rst
      mem := e₁.mem
      pools := e'.pools
      stream := e'.stream
      completed := e.completed + evs.length }
  stream : e'.stream = e.stream ∨ ∃ k, e'.stream = streamFrom k e.progLen
  slot : ∀ p k, e'.slot p k =
    if ∃ ev ∈ evs, ev.tag = ⟨p, k⟩ then none
    else (e.slot p k).map fun b => { b.countdown.hear evs with fresh := false }
  register : ∀ r,
    (∃ ev ∈ evs, ∃ v, ev.Result r v ∧ e.currentTag r = some ev.tag ∧ e'.currentTag r = none ∧
      (r < e.x.length → e'.reg r = v)) ∨
    (e'.reg r = e.reg r ∧ e'.currentTag r = e.currentTag r ∧ ∀ ev ∈ evs, ∀ v, ev.Result r v → e.currentTag r ≠ some ev.tag)
  sizes : e'.x.length = e.x.length ∧ e'.rst.length = e.rst.length ∧
    ∀ p, (e'.pools.get p).length = (e.pools.get p).length

section Finishes
variable {e₁ e₂ : Engine c} {evs : List (Event c.xlen)}

/-- What the pools' step, the broadcasts and the releases of a cycle leave as it was. -/
theorem Engine.released_frame (hstep : e.stepPools poolOrder = .ok (e₁, evs)) :
    (e₁.broadcastAll evs).releaseAll evs =
      { e with
        x := (e₁.broadcastAll evs).x
        rst := (e₁.broadcastAll evs).rst
        mem := e₁.mem
        pools := ((e₁.broadcastAll evs).releaseAll evs).pools
        completed := e.completed + evs.length } := by
  rw [Engine.releaseAll_frame, Engine.broadcastAll_frame, (Engine.stepPools_stepsTo poolOrder_nodup hstep).frame]

theorem Engine.released_slot (hstep : e.stepPools poolOrder = .ok (e₁, evs)) (p : PoolId) (k : Nat) :
    ((e₁.broadcastAll evs).releaseAll evs).slot p k =
      if ∃ ev ∈ evs, ev.tag = ⟨p, k⟩ then none else (e.slot p k).map fun b => b.countdown.hear evs := by
  rw [Engine.slot_releaseAll, Engine.slot_broadcastAll, (Engine.stepPools_stepsTo poolOrder_nodup hstep).slot,
    if_pos (mem_poolOrder p), Option.map_map]
  rfl

theorem Engine.released_sizes (hstep : e.stepPools poolOrder = .ok (e₁, evs)) (p : PoolId) :
    (((e₁.broadcastAll evs).releaseAll evs).pools.get p).length = (e.pools.get p).length := by
  rw [Engine.releaseAll_size, (e₁.broadcastAll_sizes evs p).2.2, (Engine.stepPools_stepsTo poolOrder_nodup hstep).pools,
    if_pos (mem_poolOrder p)]
  simp

/-- A cycle whose redirect answers is carried to its end. -/
theorem Engine.finishes_of_redirectAll (hstep : e.stepPools poolOrder = .ok (e₁, evs))
    (hredirect : ((e₁.broadcastAll evs).releaseAll evs).redirectAll evs = .ok e₂) : e.Finishes e₁ evs e₂.clearFresh := by
  have hstepped := (Engine.stepPools_stepsTo poolOrder_nodup hstep).frame
  have hreleased := Engine.released_frame hstep
  obtain ⟨hframe, hstream⟩ := Engine.redirectAll_ok _ _ _ hredirect
  have hx : e₁.x = e.x := by rw [hstepped]
  have hrst : e₁.rst = e.rst := by rw [hstepped]
  have hx₂ : e₂.x = (e₁.broadcastAll evs).x := by rw [hframe, hreleased]
  have hrst₂ : e₂.rst = (e₁.broadcastAll evs).rst := by rw [hframe, hreleased]
  have hpools₂ : e₂.pools = ((e₁.broadcastAll evs).releaseAll evs).pools := by rw [hframe]
  refine ⟨hstep, ?_, ?_, fun p k => ?_, fun r => ?_, ?_, ?_, fun p => ?_⟩
  · rw [hframe, hreleased]; rfl
  · rw [hreleased] at hstream; exact hstream
  · have hslot : e₂.slot p k = ((e₁.broadcastAll evs).releaseAll evs).slot p k := by rw [Engine.slot_eq, hpools₂]; rfl
    rw [Engine.slot_clearFresh, hslot, Engine.released_slot hstep]
    split
    · rfl
    · rw [Option.map_map]; rfl
  · have hreg : ∀ q, e₁.reg q = e.reg q := fun q => by rw [Engine.reg, hx]; rfl
    have htag : ∀ q, e₁.currentTag q = e.currentTag q := fun q => by rw [Engine.currentTag, hrst]; rfl
    have hreg₂ : e₂.clearFresh.reg r = (e₁.broadcastAll evs).reg r := by rw [Engine.reg, Engine.clearFresh_x, hx₂]; rfl
    have htag₂ : e₂.clearFresh.currentTag r = (e₁.broadcastAll evs).currentTag r := by
      rw [Engine.currentTag, Engine.clearFresh_rst, hrst₂]; rfl
    rw [hreg₂, htag₂, ← hreg, ← htag, ← hx]
    exact e₁.broadcastAll_register evs r
  · rw [Engine.clearFresh_x, hx₂, (e₁.broadcastAll_sizes evs .add).1, hx]
  · rw [Engine.clearFresh_rst, hrst₂, (e₁.broadcastAll_sizes evs .add).2.1, hrst]
  · rw [Engine.clearFresh_pools, Pools.get_mapBusy, List.length_map, hpools₂, Engine.released_sizes hstep]

/-- The rest of a cycle either raises a fault or is carried to its end (60_exceptions R240, R242). -/
theorem Engine.finishCycle_spec (hrun : e.status = .running) :
    (∃ (e₁ : Engine c) (f : FaultCode) (i : Nat), e.finishCycle = e₁.raise f i ∧ e₁.cycle = e.cycle ∧ e₁.progLen = e.progLen) ∨
    ∃ e₁ evs, e.Finishes e₁ evs e.finishCycle := by
  obtain ⟨f, i, hstep, hfinish⟩ | ⟨e₁, evs, hstep, ⟨f, i, hredirect, hfinish⟩ | ⟨e₂, hredirect, hfinish⟩⟩ := Engine.finishCycle_cases hrun
  · exact .inl ⟨e, f, i, hfinish, rfl, rfl⟩
  · refine .inl ⟨_, f, i, hfinish, ?_, ?_⟩ <;> rw [Engine.released_frame hstep]
  · rw [hfinish]
    exact .inr ⟨e₁, evs, Engine.finishes_of_redirectAll hstep hredirect⟩

/-- A cycle that has not faulted was carried to its end. -/
theorem Engine.finishes_of_not_faulted (hrun : e.status = .running) (h : e.finishCycle.status ≠ .faulted) :
    ∃ e₁ evs, e.Finishes e₁ evs e.finishCycle := by
  obtain ⟨_, _, _, hraise, -⟩ | hfin := Engine.finishCycle_spec hrun
  · rw [hraise] at h; exact absurd rfl h
  · exact hfin

theorem Engine.finishCycle_cycle (hrun : e.status = .running) : e.finishCycle.cycle = e.cycle := by
  obtain ⟨_, _, _, hraise, hcycle, -⟩ | ⟨_, _, hfin⟩ := Engine.finishCycle_spec hrun
  · rw [hraise, Engine.raise_cycle, hcycle]
  · rw [hfin.frame]

theorem Engine.finishCycle_progLen (hrun : e.status = .running) : e.finishCycle.progLen = e.progLen := by
  obtain ⟨_, _, _, hraise, -, hlen⟩ | ⟨_, _, hfin⟩ := Engine.finishCycle_spec hrun
  · rw [hraise, Engine.raise_progLen, hlen]
  · rw [hfin.frame]

/-- The events of a cycle are at most one of each pool (R126). -/
theorem Engine.Finishes.length_le {e' : Engine c} (h : e.Finishes e₁ evs e') : evs.length ≤ 5 := by
  have := (Engine.stepPools_stepsTo poolOrder_nodup h.stepped).order.length_le
  rwa [List.length_map] at this

end Finishes

end Finish

/-! ### What a dispatch does to the counters, the flags and the stream -/

section Dispatched
variable {c : Config} {e d : Engine c}

theorem Engine.Dispatches.status (h : e.Dispatches d) : d.status = e.status := by rw [h.frame]

/-- A dispatch is at most one allocation or one rejection (R139). -/
theorem Engine.Dispatches.counts (h : e.Dispatches d) :
    e.dropped ≤ d.dropped ∧ e.seqNext ≤ d.seqNext ∧ d.dropped + d.seqNext ≤ e.dropped + e.seqNext + 1 := by
  cases h with
  | idle => omega
  | reject code i rest hstream => rw [Engine.rejectHead_cons code hstream]; simp only; omega
  | allocate op i rest k r hstream hk hr => simp only [Engine.allocated]; omega

/-- A dispatch clears no error flag (10_state R34). -/
theorem Engine.Dispatches.errflags (h : e.Dispatches d) :
    (e.errflags.malformed = true → d.errflags.malformed = true) ∧ (e.errflags.range = true → d.errflags.range = true) := by
  cases h with
  | idle => exact ⟨id, id⟩
  | reject code i rest hstream =>
    rw [Engine.rejectHead_cons code hstream, ErrFlags.set_eq]
    exact ⟨fun h => by simp [h], fun h => by simp [h]⟩
  | allocate op i rest k r hstream hk hr => exact ⟨id, id⟩

/-- A dispatch leaves the stream or pops its head (R115). -/
theorem Engine.Dispatches.stream (h : e.Dispatches d) : d.stream = e.stream ∨ d.stream = e.stream.tail := by
  cases h with
  | idle => exact .inl rfl
  | reject code i rest hstream => rw [Engine.rejectHead_cons code hstream, hstream]; exact .inr rfl
  | allocate op i rest k r hstream hk hr => rw [hstream]; exact .inr rfl

/-- A dispatch keeps the sizes of the register file, the status table and the pools. -/
theorem Engine.Dispatches.sizes (h : e.Dispatches d) :
    d.x.length = e.x.length ∧ d.rst.length = e.rst.length ∧ ∀ p, (d.pools.get p).length = (e.pools.get p).length := by
  cases h with
  | idle => exact ⟨rfl, rfl, fun _ => rfl⟩
  | reject code i rest hstream => rw [Engine.rejectHead_cons code hstream]; exact ⟨rfl, rfl, fun _ => rfl⟩
  | allocate op i rest k r hstream hk hr =>
    refine ⟨rfl, ?_, fun p => ?_⟩
    · simp only [Engine.allocated]
      cases r.dest <;> simp
    · simp only [Engine.allocated, Pools.get_put]
      split
      · next hp => rw [hp, List.length_set]
      · rfl

end Dispatched

/-- Settles O36: the count of sub-step (0) passes the dispatch and the rest of the cycle, faulting or not. -/
theorem performedCycleCounts : Obligations.PerformedCycleCounts := by
  unfold Obligations.PerformedCycleCounts
  intro s hstream hpin hrun hwork hguard
  obtain ⟨d, hd, hcycle⟩ := engineCycle_of_streamOk hstream hrun hwork hguard
  refine ⟨_, (step_of_running hpin hrun).trans hcycle, ?_⟩
  rw [Engine.finishCycle_cycle (hd.status.trans hrun), hd.frame]
  rfl

/-- Settles O39: every other case of the edge keeps the recorded fault or records one of the guard, of an access or of a branch. -/
theorem allocationNeverOverflows : Obligations.AllocationNeverOverflows := by
  unfold Obligations.AllocationNeverOverflows
  intro s t i hstep hfault
  obtain ⟨e', rfl, hedge⟩ := step_edge hstep
  cases hedge with
  | reset hpin => cases hfault
  | still hpin hstop => exact hfault
  | halt hpin hrun hdrained => exact hfault
  | guard hpin hrun hwork hguard => cases hfault
  | cycle hpin hrun hwork hguard d hd =>
    obtain hkept | ⟨_, hraised | hraised⟩ := d.finishCycle_fault
    · have hd : d.fault = s.eng.fault := by rw [hd.frame]; rfl
      exact hd.symm.trans (hkept.symm.trans hfault)
    · cases hraised.symm.trans hfault
    · cases hraised.symm.trans hfault

/-- Settles O40: a cycle adds what its dispatch counts, and one completion for each of its at most five events. -/
theorem throughputIsBounded : Obligations.ThroughputIsBounded := by
  unfold Obligations.ThroughputIsBounded
  intro s t hpin hstep hok
  obtain ⟨e', rfl, hedge⟩ := step_edge hstep
  cases hedge with
  | reset h => cases hpin.symm.trans h
  | still hpin hstop => simp
  | halt hpin hrun hdrained => simp
  | guard hpin hrun hwork hguard => exact absurd rfl hok
  | cycle hpin hrun hwork hguard d hd =>
    obtain ⟨e₁, evs, hfin⟩ := Engine.finishes_of_not_faulted (hd.status.trans hrun) hok
    have hlen := hfin.length_le
    have hcounts := hd.counts
    have hcompleted : d.completed = s.eng.completed := by rw [hd.frame]; rfl
    have hcycle : d.cycle = s.eng.cycle + 1 := by rw [hd.frame]; rfl
    simp only [Engine.beginCycle_dropped, Engine.beginCycle_seqNext] at hcounts
    rw [hfin.frame]
    simp only
    omega

/-- Settles O41: a dispatch clears no flag, and no other sub-step touches one. -/
theorem errorFlagsAreSticky : Obligations.ErrorFlagsAreSticky := by
  unfold Obligations.ErrorFlagsAreSticky
  intro s t hpin hstep hok
  obtain ⟨e', rfl, hedge⟩ := step_edge hstep
  cases hedge with
  | reset h => cases hpin.symm.trans h
  | still hpin hstop => exact ⟨id, id⟩
  | halt hpin hrun hdrained => exact ⟨id, id⟩
  | guard hpin hrun hwork hguard => exact absurd rfl hok
  | cycle hpin hrun hwork hguard d hd =>
    obtain ⟨e₁, evs, hfin⟩ := Engine.finishes_of_not_faulted (hd.status.trans hrun) hok
    rw [hfin.frame]
    exact hd.errflags

/-! ### The edge spelled out -/

/-- The step of a list of pools, as the fold of the pools' steps that gathers their events (R135). -/
theorem Engine.foldlM_stepPool {c : Config} (ps : List PoolId) (e : Engine c) (acc : List (Event c.xlen)) :
    ps.foldlM (fun acc p => do let r ← acc.1.stepPool p; pure (r.1, acc.2 ++ r.2)) (e, acc) =
      (e.stepPools ps).map fun r => (r.1, acc ++ r.2) := by
  induction ps generalizing e acc with
  | nil => simp [Engine.stepPools, Except.map, pure, Except.pure]
  | cons p ps ih =>
    rw [List.foldlM_cons]
    simp only [Engine.stepPools]
    cases e.stepPool p with
    | error f => rfl
    | ok r =>
      have hcons := ih r.1 (acc ++ r.2)
      simp only [bind, Except.bind, pure, Except.pure] at hcons ⊢
      rw [hcons]
      cases r.1.stepPools ps with
      | error f => rfl
      | ok r₂ => simp [Except.map, List.append_assoc]

/-- Settles O18: the cycle of a running engine whose guard does not trip, by what its head is; the fold over the pools is the pools'
step of the cycle. -/
theorem stepRunsDecodedInstruction : Obligations.StepRunsDecodedInstruction := by
  unfold Obligations.StepRunsDecodedInstruction
  intro s hpin hrun hguard begun stepped rest
  have hstepped : ∀ e, stepped e = e.stepPools poolOrder := fun e => by
    change List.foldlM _ _ poolOrder = _
    rw [Engine.foldlM_stepPool]
    cases e.stepPools poolOrder <;> rfl
  have hrest : ∀ e : Engine s.cfg, e.status = .running → rest e = e.finishCycle := fun e he => by
    simp only [rest, hstepped, Engine.finishCycle, Engine.broadcastAll, Engine.releaseAll, he, ne_eq, not_true_eq_false, if_false]
    cases e.stepPools poolOrder with
    | error f => rfl
    | ok r =>
      simp only
      generalize Engine.redirectAll (r.2.foldl Engine.release (r.2.foldl Engine.broadcast r.1)) r.2 = redirected
      cases redirected <;> rfl
  have hstep := step_of_running hpin hrun
  have hwork : ∀ {h : Nat} {tail : List Nat}, s.eng.stream = h :: tail → s.eng.drained = false := fun hstream =>
    s.eng.drained_eq_false_iff.2 (.inl (by simp [hstream]))
  refine ⟨fun h tail w i hstream hprog hdec => ?_, fun h tail w hstream hprog hdec => ?_, fun hstream hbusy => ?_⟩
  · obtain ⟨e, hexec, hstatus⟩ := exec_next i begun
    refine ⟨e, hexec, ?_⟩
    rw [hrest e (hstatus.trans hrun), hstep, engineCycle_of_record (hwork hstream) hguard hstream hprog, dispatchRecord, hdec]
    change finishOutcome (exec i begun) = _
    rw [hexec]
    rfl
  · rw [hrest (begun.eng.rejectHead _) ((Engine.rejectHead_status _ _).trans hrun), hstep, engineCycle_of_record (hwork hstream) hguard hstream hprog,
      dispatchRecord, hdec]
    rfl
  · have hdrained := s.eng.drained_eq_false_iff.2 (.inr (s.eng.anyBusy_iff.1 hbusy))
    rw [hrest begun.eng hrun, hstep, engineCycle_of_nil hdrained hguard hstream]
    rfl

end Sys2Proof.Machine
end

section
/-! The invariant, part by part: the shape of the state and its memory, the stream, the agreement of tags, slots and register status,
and all of them together (10_state R20, R24, R30, R31, R33; 20_memory R60; 40_engine_cycle R136, R137). -/

namespace Sys2Proof.Machine

/-! ### Sizes and memory -/

section Shape
variable {c : Config} {e e' : Engine c}

theorem Engine.Sized.of_sizes (h : e.Sized)
    (hsizes : e'.x.length = e.x.length ∧ e'.rst.length = e.rst.length ∧ ∀ p, (e'.pools.get p).length = (e.pools.get p).length) :
    e'.Sized :=
  ⟨hsizes.1.trans h.regs, hsizes.2.1.trans h.status, fun p => (hsizes.2.2 p).trans (h.pools p)⟩

/-- The free values a fault leaves have the sizes of the configuration (60_exceptions R242). -/
theorem Engine.raise_sized (e : Engine c) (f : FaultCode) (i : Nat) : (e.raise f i).Sized where
  regs := fitTo_length _ _ _
  status := fitTo_length _ _ _
  pools := fun p => by cases p <;> exact fitTo_length _ _ _

theorem Engine.MemoryOk.of_mem_eq (h : e.MemoryOk) (hmem : e'.mem = e.mem) : e'.MemoryOk :=
  ⟨hmem ▸ h.canonical, hmem ▸ h.within⟩

/-- An execution keeps memory canonical: a STORE writes inside the address space (20_memory R61). -/
theorem execute_memoryOk {t : Tag} {s : Slot c.xlen} {ev : Event c.xlen} (hexec : execute e t s = .ok (e', ev)) (h : e.MemoryOk) :
    e'.MemoryOk := by
  obtain ⟨-, -, -, hother, hstore⟩ := execute_ok hexec
  by_cases hop : s.op = .store
  · obtain ⟨he, hlow, hhigh⟩ := hstore hop
    rw [he]
    exact ⟨Memory.wf_write _ _ _ h.canonical, Memory.within_write _ _ _ _ h.within (by omega)⟩
  · rw [hother hop]; exact h

theorem Engine.stepPools_memoryOk {ps : List PoolId} {evs : List (Event c.xlen)} (hstep : e.stepPools ps = .ok (e', evs))
    (h : e.MemoryOk) : e'.MemoryOk := by
  induction ps generalizing e evs with
  | nil => cases hstep; exact h
  | cons p ps ih =>
    obtain ⟨e₁, first, more, h₁, h₂, -⟩ := (e.stepPools_cons p ps e' evs).1 hstep
    refine ih h₂ ?_
    obtain ⟨-, ⟨-, hmem, -⟩ | ⟨k, b, ev, -, -, hexec⟩⟩ := Engine.stepPool_ok h₁
    · exact h.of_mem_eq hmem
    · exact execute_memoryOk hexec (h.of_mem_eq rfl)

end Shape

/-- Settles O47: a fault leaves values cut to size; every other case of the edge keeps the sizes, and writes memory only through a
STORE. -/
theorem stepKeepsShape : Obligations.StepKeepsShape := by
  unfold Obligations.StepKeepsShape
  intro s t hsized hmem hstep
  obtain ⟨e', rfl, hedge⟩ := step_edge hstep
  cases hedge with
  | reset hpin =>
    exact ⟨⟨hsized.regs, List.length_replicate, fun p => by simp⟩, hmem.of_mem_eq rfl⟩
  | still hpin hstop => exact ⟨hsized, hmem⟩
  | halt hpin hrun hdrained => exact ⟨hsized.of_sizes ⟨rfl, rfl, fun _ => rfl⟩, hmem.of_mem_eq rfl⟩
  | guard hpin hrun hwork hguard => exact ⟨s.eng.raise_sized _ _, s.eng.raise_memoryOk _ _⟩
  | cycle hpin hrun hwork hguard d hd =>
    obtain ⟨e₁, f, i, hraise, -⟩ | ⟨e₁, evs, hfin⟩ := Engine.finishCycle_spec (hd.status.trans hrun)
    · simp only [hraise]
      exact ⟨e₁.raise_sized _ _, e₁.raise_memoryOk _ _⟩
    · have hd_sized : d.Sized := hsized.of_sizes hd.sizes
      have hd_mem : d.MemoryOk := hmem.of_mem_eq (by rw [hd.frame]; rfl)
      exact ⟨hd_sized.of_sizes hfin.sizes,
        (Engine.stepPools_memoryOk hfin.stepped hd_mem).of_mem_eq (by rw [hfin.frame])⟩

/-! ### The stream -/

/-- What follows the head of a run to the program's end is such a run (10_state R30). -/
theorem tail_streamFrom (k n : Nat) : (streamFrom k n).tail = streamFrom (k + 1) n := by
  rw [streamFrom_eq_drop, streamFrom_eq_drop, List.tail_drop]

theorem streamFrom_zero (n : Nat) : streamFrom 0 n = List.range n := by
  rw [streamFrom_eq_drop, List.drop_zero]

/-- Settles O48: a dispatch pops the head or leaves the stream, and a redirect refills it to the program's end. -/
theorem stepKeepsStreamASuffix : Obligations.StepKeepsStreamASuffix := by
  unfold Obligations.StepKeepsStreamASuffix
  intro s t h hstep
  obtain ⟨e', rfl, hedge⟩ := step_edge hstep
  cases hedge with
  | reset hpin => exact ⟨rfl, fun _ => ⟨0, (streamFrom_zero _).symm⟩⟩
  | still hpin hstop => exact h
  | halt hpin hrun hdrained => exact ⟨h.sampled, fun _ => h.suffix (by simp [hrun])⟩
  | guard hpin hrun hwork hguard => exact ⟨h.sampled, fun hok => absurd rfl hok⟩
  | cycle hpin hrun hwork hguard d hd =>
    have hlen : d.progLen = s.eng.progLen := by rw [hd.frame]; rfl
    have hrun' := hd.status.trans hrun
    refine ⟨(Engine.finishCycle_progLen hrun').trans (hlen.trans h.sampled), fun hok => ?_⟩
    obtain ⟨e₁, evs, hfin⟩ := Engine.finishes_of_not_faulted hrun' hok
    simp only [Engine.finishCycle_progLen hrun']
    obtain ⟨k, hk⟩ := h.suffix (by simp [hrun])
    obtain hkept | hrefilled := hfin.stream
    · obtain hd_stream | hd_stream := hd.stream
      · exact ⟨k, by rw [hkept, hd_stream, hlen]; exact hk⟩
      · exact ⟨k + 1, by rw [hkept, hd_stream, hlen, ← tail_streamFrom, ← hk]; rfl⟩
    · exact hrefilled

/-! ### Tags, slots and register status -/

section Coherent
variable {c : Config} {e e' d : Engine c}

/-- Agreement is about slots, status entries and the sequence counter alone. -/
theorem Engine.Coherent.congr (h : e.Coherent) (hslot : ∀ p k, e'.slot p k = e.slot p k)
    (htag : ∀ r, e'.currentTag r = e.currentTag r) (hseq : e'.seqNext = e.seqNext) : e'.Coherent where
  slotPool := by simpa only [hslot] using h.slotPool
  slotDest := by simpa only [hslot] using h.slotDest
  destBound := by simpa only [hslot] using h.destBound
  seqBound := by simpa only [hslot, hseq] using h.seqBound
  seqUnique := by simpa only [hslot] using h.seqUnique
  waitLive := by simpa only [hslot] using h.waitLive
  pendingLive := by simpa only [hslot, htag] using h.pendingLive
  settled := by simpa only [hslot] using h.settled

/-- With no slot busy and no register pending there is nothing to disagree. -/
theorem Engine.coherent_of_idle (hidle : ∀ p k, e.slot p k = none) (hready : ∀ r, e.currentTag r = none) : e.Coherent where
  slotPool := by simp [hidle]
  slotDest := by simp [hidle]
  destBound := by simp [hidle]
  seqBound := by simp [hidle]
  seqUnique := by simp [hidle]
  waitLive := by simp [hidle]
  pendingLive := by simp [hready]
  settled := by simp [hidle]

theorem Engine.Coherent.slot_clearFresh (h : e.Coherent) (p : PoolId) (k : Nat) : e.clearFresh.slot p k = e.slot p k := by
  rw [Engine.slot_clearFresh]
  cases hs : e.slot p k with
  | none => rfl
  | some s =>
    have hfresh := (h.settled p k s hs).1
    cases s
    cases hfresh
    rfl

theorem Engine.Coherent.clearFresh (h : e.Coherent) : e.clearFresh.Coherent :=
  h.congr h.slot_clearFresh (fun _ => rfl) rfl

/-- Agreement is kept when an idle slot becomes busy with the next sequence number, its operands wait on tags that registers are
pending on, and its destination is renamed to it (R119 to R124). -/
theorem Engine.Coherent.grow (h : e.Coherent) {p : PoolId} {k : Nat} {b : Slot c.xlen} (hidle : e.slot p k = none)
    (hslot : ∀ q j, e'.slot q j = if q = p ∧ j = k then some b else e.slot q j)
    (hseqNext : e'.seqNext = e.seqNext + 1) (hseq : b.seq = e.seqNext)
    (hpool : poolOf b.op = p) (hdest : b.dest.isSome = b.op.writesRegister) (hbound : ∀ r, b.dest = some r → r < c.nreg)
    (hwaits : ∀ t, b.oj = .wait t ∨ b.ok = .wait t → ∃ q, e.currentTag q = some t)
    (hsettled : b.fresh = false ∧ b.cl ≤ latOf c b.op)
    (htag : ∀ r t, e'.currentTag r = some t → (b.dest = some r ∧ t = ⟨p, k⟩) ∨ (b.dest ≠ some r ∧ e.currentTag r = some t)) :
    e'.Coherent := by
  have hcases : ∀ q j s, e'.slot q j = some s → (q = p ∧ j = k ∧ s = b) ∨ e.slot q j = some s := by
    intro q j s hs
    rw [hslot] at hs
    split at hs
    · next hqj => cases hs; exact .inl ⟨hqj.1, hqj.2, rfl⟩
    · exact .inr hs
  have hnew : e'.slot p k = some b := by rw [hslot, if_pos ⟨rfl, rfl⟩]
  have hold : ∀ q j s, e.slot q j = some s → e'.slot q j = some s := by
    intro q j s hs
    rw [hslot, if_neg]
    · exact hs
    · rintro ⟨rfl, rfl⟩; cases hidle.symm.trans hs
  refine ⟨?_, ?_, ?_, ?_, ?_, ?_, ?_, ?_⟩
  · intro q j s hs
    obtain ⟨rfl, -, rfl⟩ | hs := hcases q j s hs
    · exact hpool
    · exact h.slotPool q j s hs
  · intro q j s hs
    obtain ⟨-, -, rfl⟩ | hs := hcases q j s hs
    · exact hdest
    · exact h.slotDest q j s hs
  · intro q j s r hs hr
    obtain ⟨-, -, rfl⟩ | hs := hcases q j s hs
    · exact hbound r hr
    · exact h.destBound q j s r hs hr
  · intro q j s hs
    obtain ⟨-, -, rfl⟩ | hs := hcases q j s hs
    · omega
    · have := h.seqBound q j s hs
      omega
  · intro q j s q' j' s' hs hs' heq
    obtain ⟨rfl, rfl, rfl⟩ | hs := hcases q j s hs <;> obtain ⟨rfl, rfl, rfl⟩ | hs' := hcases q' j' s' hs'
    · exact ⟨rfl, rfl⟩
    · have := h.seqBound _ _ _ hs'
      omega
    · have := h.seqBound _ _ _ hs
      omega
    · exact h.seqUnique _ _ _ _ _ _ hs hs' heq
  · intro q j s t hs hw
    obtain ⟨-, -, rfl⟩ | hs := hcases q j s hs
    · obtain ⟨r, hr⟩ := hwaits t hw
      obtain ⟨s', hs', hd, -⟩ := h.pendingLive r t hr
      exact ⟨s', hold _ _ _ hs', by simp [hd], hseq ▸ h.seqBound _ _ _ hs'⟩
    · obtain ⟨s', hs', hd, hlt⟩ := h.waitLive q j s t hs hw
      exact ⟨s', hold _ _ _ hs', hd, hlt⟩
  · intro r t ht
    obtain ⟨hr, rfl⟩ | ⟨hr, ht⟩ := htag r t ht
    · refine ⟨b, hnew, hr, fun q j s hs _ => ?_⟩
      obtain ⟨-, -, rfl⟩ | hs := hcases q j s hs
      · exact Nat.le_refl _
      · have := h.seqBound q j s hs
        omega
    · obtain ⟨s, hs, hd, hmax⟩ := h.pendingLive r t ht
      refine ⟨s, hold _ _ _ hs, hd, fun q j s' hs' hd' => ?_⟩
      obtain ⟨-, -, rfl⟩ | hs' := hcases q j s' hs'
      · exact absurd hd' hr
      · exact hmax q j s' hs' hd'
  · intro q j s hs
    obtain ⟨-, -, rfl⟩ | hs := hcases q j s hs
    · exact hsettled
    · exact h.settled q j s hs

/-- After an allocation a register is pending on the new slot where it is the destination, and on its old tag elsewhere (R124). -/
theorem Engine.currentTag_allocated {op : Opcode} {i : Nat} {rest : List Nat} {k : Nat} {r : Resolved c.xlen} {q : Nat} {t : Tag}
    (h : (e.allocated op i rest k r).currentTag q = some t) :
    (r.dest = some q ∧ t = ⟨poolOf op, k⟩) ∨ (r.dest ≠ some q ∧ e.currentTag q = some t) := by
  by_cases hq : r.dest = some q
  · refine .inl ⟨hq, ?_⟩
    simp only [Engine.currentTag, Engine.allocated, hq, Option.elim_some, List.getD_eq_getElem?_getD, List.getElem?_set, if_true] at h
    split at h
    · cases h; rfl
    · cases h
  · refine .inr ⟨hq, ?_⟩
    rwa [Engine.currentTag, List.getD_eq_getElem?_getD, e.rst_allocated_of_ne op i rest k r hq, ← List.getD_eq_getElem?_getD] at h

/-- A dispatch keeps agreement, but for the new slot's being fresh (R120). -/
theorem Engine.Dispatches.coherent (hd : e.Dispatches d) (h : e.Coherent) : d.clearFresh.Coherent := by
  cases hd with
  | idle => exact h.clearFresh
  | reject code i rest hstream =>
    refine h.clearFresh.congr (fun p k => ?_) (fun r => e.currentTag_rejectHead code r) ?_
    · simp only [Engine.slot_clearFresh, Engine.slot_rejectHead]
    · rw [Engine.clearFresh_seqNext, Engine.rejectHead_frame]; rfl
  | allocate op i rest k r hstream hk hr =>
    have hslot : ∀ q j, (e.allocated op i rest k r).clearFresh.slot q j =
        if q = poolOf op ∧ j = k then
          some
            { op := op, pidx := i, oj := r.oj, ok := r.ok, dest := r.dest, a := r.a, target := r.target, cl := latOf c op,
              fresh := false, seq := e.seqNext }
        else e.slot q j := fun q j => by
      rw [Engine.slot_clearFresh, e.slot_allocated op i rest r hk]
      split
      · rfl
      · rw [← Engine.slot_clearFresh, h.slot_clearFresh]
    exact h.grow hk.idle hslot rfl rfl rfl hr.dest hr.destBound hr.waits ⟨rfl, Nat.le_refl _⟩
      fun q t ht => Engine.currentTag_allocated (i := i) (rest := rest) ht

/-- Agreement is kept when some slots become idle, if no operand and no register names one of them any more, and the others keep
operation, destination and sequence number (R129, R130, R132). -/
theorem Engine.Coherent.shrink (h : e.Coherent) (dead : Tag → Prop) (hseqNext : e'.seqNext = e.seqNext)
    (hslot : ∀ p k s', e'.slot p k = some s' → ∃ s, e.slot p k = some s ∧ s'.op = s.op ∧ s'.dest = s.dest ∧
      s'.seq = s.seq ∧ s'.cl ≤ s.cl ∧ s'.fresh = false ∧
      ∀ t, s'.oj = .wait t ∨ s'.ok = .wait t → (s.oj = .wait t ∨ s.ok = .wait t) ∧ ¬ dead t)
    (hlive : ∀ t s, ¬ dead t → e.slot t.pool t.slot = some s →
      ∃ s', e'.slot t.pool t.slot = some s' ∧ s'.dest = s.dest ∧ s'.seq = s.seq)
    (htag : ∀ r t, e'.currentTag r = some t → e.currentTag r = some t ∧ ¬ dead t) : e'.Coherent := by
  refine ⟨?_, ?_, ?_, ?_, ?_, ?_, ?_, ?_⟩
  · intro p k s' hs'
    obtain ⟨s, hs, hop, -⟩ := hslot p k s' hs'
    rw [hop]; exact h.slotPool p k s hs
  · intro p k s' hs'
    obtain ⟨s, hs, hop, hdest, -⟩ := hslot p k s' hs'
    rw [hop, hdest]; exact h.slotDest p k s hs
  · intro p k s' r hs' hr
    obtain ⟨s, hs, -, hdest, -⟩ := hslot p k s' hs'
    exact h.destBound p k s r hs (hdest ▸ hr)
  · intro p k s' hs'
    obtain ⟨s, hs, -, -, hseq, -⟩ := hslot p k s' hs'
    rw [hseqNext, hseq]; exact h.seqBound p k s hs
  · intro p k s' p₂ k₂ s₂' hs' hs₂' heq
    obtain ⟨s, hs, -, -, hseq, -⟩ := hslot p k s' hs'
    obtain ⟨s₂, hs₂, -, -, hseq₂, -⟩ := hslot p₂ k₂ s₂' hs₂'
    exact h.seqUnique _ _ _ _ _ _ hs hs₂ (hseq ▸ hseq₂ ▸ heq)
  · intro p k s' t hs' hw
    obtain ⟨s, hs, -, -, hseq, -, -, hwait⟩ := hslot p k s' hs'
    obtain ⟨hw, halive⟩ := hwait t hw
    obtain ⟨b, hb, hd, hlt⟩ := h.waitLive p k s t hs hw
    obtain ⟨b', hb', hdest, hbseq⟩ := hlive t b halive hb
    exact ⟨b', hb', hdest ▸ hd, by rw [hbseq, hseq]; exact hlt⟩
  · intro r t ht
    obtain ⟨ht, halive⟩ := htag r t ht
    obtain ⟨b, hb, hd, hmax⟩ := h.pendingLive r t ht
    obtain ⟨b', hb', hdest, hbseq⟩ := hlive t b halive hb
    refine ⟨b', hb', hdest.trans hd, fun p k s' hs' hd' => ?_⟩
    obtain ⟨s, hs, -, hsdest, hseq, -⟩ := hslot p k s' hs'
    rw [hseq, hbseq]
    exact hmax p k s hs (hsdest ▸ hd')
  · intro p k s' hs'
    obtain ⟨s, hs, hop, -, -, hcl, hfresh, -⟩ := hslot p k s' hs'
    refine ⟨hfresh, ?_⟩
    rw [hop]
    exact hcl.trans (h.settled p k s hs).2

theorem Slot.countdown_cl_le {w : Nat} (s : Slot w) : s.countdown.cl ≤ s.cl := by
  rw [Slot.countdown_cl]
  split <;> omega

/-- The event of a slot with a destination gives that register a value (R128). -/
theorem execute_resultOf {e₁ e₂ : Engine c} {t : Tag} {s : Slot c.xlen} {ev : Event c.xlen} {r : Nat}
    (hexec : execute e₁ t s = .ok (e₂, ev)) (hdest : s.dest.isSome = s.op.writesRegister) (hr : s.dest = some r) :
    ∃ v, ev.Result r v := by
  obtain ⟨hvalue, hevdest, -⟩ := execute_result hexec
  have hwrites : s.op.writesRegister = true := by rw [← hdest, hr]; rfl
  obtain ⟨v, hv⟩ := Option.isSome_iff_exists.1 (hvalue.trans hwrites)
  exact ⟨v, (hevdest hwrites).trans hr, hv⟩

/-- A cycle carried to its end brings back agreement: the slots of the events are idle, and whatever named one of them has its result
(R129 to R134). -/
theorem Engine.Finishes.coherent {e₁ : Engine c} {evs : List (Event c.xlen)} (hfin : d.Finishes e₁ evs e')
    (h : d.clearFresh.Coherent) : e'.Coherent := by
  have stepped := Engine.stepPools_stepsTo poolOrder_nodup hfin.stepped
  have hclear : ∀ {p k b}, d.slot p k = some b → d.clearFresh.slot p k = some { b with fresh := false } := fun hb => by
    rw [Engine.slot_clearFresh, hb]; rfl
  have hresult : ∀ ev ∈ evs, ∀ r, (∃ s, d.clearFresh.slot ev.tag.pool ev.tag.slot = some s ∧ s.dest = some r) → ∃ v, ev.Result r v := by
    rintro ev hev r ⟨s, hs, hr⟩
    obtain ⟨b, hb, _, _, hexec⟩ := stepped.event ev hev
    cases hs.symm.trans (hclear hb.1)
    have hdest := h.slotDest _ _ _ hs
    exact execute_resultOf hexec hdest hr
  refine h.shrink (fun t => ∃ ev ∈ evs, ev.tag = t) ?_ ?_ ?_ ?_
  · rw [hfin.frame]; rfl
  · intro p k s' hs'
    rw [hfin.slot] at hs'
    split at hs'
    · cases hs'
    · obtain ⟨b, hb, rfl⟩ := Option.map_eq_some_iff.1 hs'
      refine ⟨_, hclear hb, b.countdown_op, b.countdown_dest, b.countdown_seq, b.countdown_cl_le, rfl, fun t hw => ?_⟩
      simp only [Slot.hear, Slot.countdown_oj, Slot.countdown_ok, Operand.hear_eq_wait_iff] at hw
      have hwait : b.oj = .wait t ∨ b.ok = .wait t := hw.imp And.left And.left
      have hno : ∀ ev ∈ evs, ev.tag = t → ¬ ∃ r v, ev.Result r v := hw.elim And.right And.right
      refine ⟨hwait, ?_⟩
      rintro ⟨ev, hev, rfl⟩
      obtain ⟨s, hs, hd, -⟩ := h.waitLive p k _ ev.tag (hclear hb) hwait
      obtain ⟨r, hr⟩ := Option.isSome_iff_exists.1 hd
      exact hno ev hev rfl ⟨r, hresult ev hev r ⟨s, hs, hr⟩⟩
  · intro t s halive hs
    rw [Engine.slot_clearFresh] at hs
    obtain ⟨b, hb, rfl⟩ := Option.map_eq_some_iff.1 hs
    refine ⟨{ b.countdown.hear evs with fresh := false }, ?_, b.countdown_dest, b.countdown_seq⟩
    rw [hfin.slot, if_neg halive, hb]
    rfl
  · intro r t ht
    obtain ⟨_, _, _, _, _, hready, -⟩ | ⟨-, hkept, hno⟩ := hfin.register r
    · cases hready.symm.trans ht
    · rw [hkept] at ht
      refine ⟨ht, ?_⟩
      rintro ⟨ev, hev, rfl⟩
      obtain ⟨s, hs, hr, -⟩ := h.pendingLive r ev.tag ht
      obtain ⟨v, hv⟩ := hresult ev hev r ⟨s, hs, hr⟩
      exact hno ev hev v hv ht

end Coherent

/-- Settles O49: an allocation adds a slot that agrees with the rest, and a cycle's end removes the slots that nothing names any
more. -/
theorem stepKeepsCoherence : Obligations.StepKeepsCoherence := by
  unfold Obligations.StepKeepsCoherence
  intro s t h hstep hok
  obtain ⟨e', rfl, hedge⟩ := step_edge hstep
  cases hedge with
  | reset hpin => exact Engine.coherent_of_idle (Engine.slot_of_idlePools rfl) (s.eng.currentTag_applyReset _)
  | still hpin hstop => exact h hok
  | halt hpin hrun hdrained => exact (h (by simp [hrun])).congr (fun _ _ => rfl) (fun _ => rfl) rfl
  | guard hpin hrun hwork hguard => exact absurd rfl hok
  | cycle hpin hrun hwork hguard d hd =>
    obtain ⟨e₁, evs, hfin⟩ := Engine.finishes_of_not_faulted (hd.status.trans hrun) hok
    have hbegun : s.eng.beginCycle.Coherent := (h (by simp [hrun])).congr (fun _ _ => rfl) (fun _ => rfl) rfl
    exact hfin.coherent (hd.coherent hbegun)

/-! ### Soundness -/

/-- The Halted state is reached by an engine that is drained, and not left but by reset (R111). -/
theorem State.Edge.haltedDrained {s : State} {e' : Engine s.cfg} (hedge : s.Edge e') (h : s.eng.HaltedDrained) : e'.HaltedDrained := by
  cases hedge with
  | reset hpin => intro hhalt; cases hhalt
  | still hpin hstop => exact h
  | halt hpin hrun hdrained => exact fun _ => hdrained
  | guard hpin hrun hwork hguard => intro hhalt; cases hhalt
  | cycle hpin hrun hwork hguard d hd =>
    intro hhalt
    obtain ⟨e₁, f, i, hraise, -⟩ | ⟨e₁, evs, hfin⟩ := Engine.finishCycle_spec (hd.status.trans hrun)
    · rw [hraise] at hhalt; cases hhalt
    · rw [hfin.frame] at hhalt
      cases (hd.status.trans hrun).symm.trans hhalt

/-- A fault is recorded with the Faulted status and cleared with it (10_state R33). -/
theorem State.Edge.faultRecorded {s : State} {e' : Engine s.cfg} (hedge : s.Edge e') (h : s.eng.FaultRecorded) : e'.FaultRecorded := by
  unfold Engine.FaultRecorded at h ⊢
  cases hedge with
  | reset hpin => simp
  | still hpin hstop => exact h
  | halt hpin hrun hdrained => simpa [hrun] using h
  | guard hpin hrun hwork hguard => simp
  | cycle hpin hrun hwork hguard d hd =>
    obtain ⟨e₁, f, i, hraise, -⟩ | ⟨e₁, evs, hfin⟩ := Engine.finishCycle_spec (hd.status.trans hrun)
    · simp [hraise]
    · rw [hfin.frame, hd.frame]
      exact h

/-- Settles O50: each part of the invariant is kept. -/
theorem stepKeepsSoundness : Obligations.StepKeepsSoundness := by
  unfold Obligations.StepKeepsSoundness
  intro s t h hstep
  obtain ⟨hsized, hmemory⟩ := stepKeepsShape s t h.sized h.memory hstep
  have hstream := stepKeepsStreamASuffix s t h.stream hstep
  have hcoherent := stepKeepsCoherence s t h.coherent hstep
  obtain ⟨e', rfl, hedge⟩ := step_edge hstep
  exact ⟨hsized, hmemory, hstream, hcoherent, hedge.faultRecorded h.faults, hedge.haltedDrained h.halted⟩

/-- Settles O46: a launch is idle, with every register Ready and the whole program pending. -/
theorem launchIsSound : Obligations.LaunchIsSound := by
  unfold Obligations.LaunchIsSound
  intro c prog x m hx hwf hwithin
  refine ⟨⟨hx, List.length_replicate, fun p => ?_⟩, ⟨hwf, hwithin⟩, ⟨rfl, fun _ => ⟨0, (streamFrom_zero _).symm⟩⟩, fun _ => ?_, ?_, ?_⟩
  · change ((idlePools c).get p).length = capOf c p
    simp
  · exact Engine.coherent_of_idle (Engine.slot_of_idlePools rfl) ((State.launch c prog x m).eng.currentTag_applyReset 0)
  · exact ⟨nofun, nofun⟩
  · intro hhalt; cases hhalt

/-- Settles O45: the reset state is the launch of an empty program in the reference configuration. -/
theorem resetStateIsSound : Obligations.ResetStateIsSound := by
  unfold Obligations.ResetStateIsSound
  have hlaunch : State.reset = State.launch Config.reference [] (List.replicate 8 0) [] := by decide
  refine ⟨?_, by decide, rfl, rfl, rfl⟩
  rw [hlaunch]
  exact launchIsSound _ _ _ _ List.length_replicate rfl (fun _ hcell => by cases hcell)

theorem Engine.drained_iff {c : Config} (e : Engine c) : e.drained = true ↔ e.stream = [] ∧ ∀ p k, e.slot p k = none := by
  rw [← Bool.not_eq_false, e.drained_eq_false_iff]
  simp [Option.eq_none_iff_forall_ne_some]

/-- Settles O53: a halted engine is drained, and a pending register would name a busy slot. -/
theorem haltedRegistersAreCommitted : Obligations.HaltedRegistersAreCommitted := by
  unfold Obligations.HaltedRegistersAreCommitted
  intro s h hhalt
  obtain ⟨hstream, hidle⟩ := s.eng.drained_iff.1 (h.halted hhalt)
  refine ⟨hstream, hidle, fun r => ?_⟩
  cases htag : s.eng.currentTag r with
  | none => rfl
  | some t =>
    obtain ⟨b, hb, -⟩ := (h.coherent (by simp [hhalt])).pendingLive r t htag
    cases (hidle _ _).symm.trans hb

end Sys2Proof.Machine
end

section
/-! What a cycle from a sound state completes: a slot dispatched in the cycle is not due in it, so the completions are those of slots that
were in flight before (40_engine_cycle R120, R125, R126). -/

namespace Sys2Proof.Machine

/-! ### Slots in flight before the dispatch -/

section InFlight
variable {c : Config} {e d : Engine c}

theorem one_le_latOf (h : c.Valid) (op : Opcode) : 1 ≤ latOf c op := by
  obtain ⟨-, -, -, -, ⟨hadd, hsub, hnand, hload, hstore, hbeq⟩, -⟩ := h
  cases op <;> assumption

/-- A slot that is no candidate changes no selection when it takes an idle place (R126). -/
theorem selectFrom_set_of_idle {w : Nat} (l : Station w) (b k : Nat) (s : Slot w) (hk : l[k]? = some none)
    (hs : s.isCandidate = false) : selectFrom b (l.set k (some s)) = selectFrom b l := by
  induction l generalizing b k with
  | nil => rfl
  | cons o rest ih =>
    cases k with
    | zero =>
      obtain rfl : o = none := by simpa using hk
      simp [selectFrom, hs]
    | succ k =>
      have hrest := ih (b + 1) k (by simpa using hk)
      cases o with
      | none => simpa [selectFrom] using hrest
      | some a => simp [selectFrom, hrest]

/-- A dispatch keeps every busy slot. -/
theorem Engine.Dispatches.slot_of_busy (hd : e.Dispatches d) {p : PoolId} {k : Nat} {b : Slot c.xlen} (hb : e.slot p k = some b) :
    d.slot p k = some b := by
  cases hd with
  | idle => exact hb
  | reject code i rest hstream => rwa [Engine.slot_rejectHead]
  | allocate op i rest k' r hstream hk hr =>
    rw [e.slot_allocated op i rest r hk, if_neg]
    · exact hb
    · rintro ⟨rfl, rfl⟩; cases hk.idle.symm.trans hb

/-- A dispatch changes no pool's selection: with a latency of at least 1 the new slot is not due (R120). -/
theorem Engine.Dispatches.selectOldest_eq (hd : e.Dispatches d) (hvalid : c.Valid) (p : PoolId) :
    selectOldest ((d.countdown p).pools.get p) = selectOldest ((e.countdown p).pools.get p) := by
  cases hd with
  | idle => rfl
  | reject code i rest hstream => rw [Engine.rejectHead_cons code hstream]; rfl
  | allocate op i rest k r hstream hk hr =>
    simp only [Engine.countdown_pools, Pools.get_put_same, Engine.allocated, Pools.get_put]
    split
    · next hp =>
      subst hp
      rw [List.map_set]
      refine selectFrom_set_of_idle _ _ _ _ (by simp [hk.1]) ?_
      have hlat := one_le_latOf hvalid op
      simp only [Slot.isCandidate, Slot.countdown_ready, Slot.countdown_cl]
      simp
      omega
    · rfl

/-- The slots that pools select in a cycle are those they would select without its dispatch. -/
theorem Engine.Dispatches.selects_iff (hd : e.Dispatches d) (hvalid : c.Valid) {t : Tag} {b : Slot c.xlen} :
    d.Selects t b ↔ e.Selects t b := by
  have hkeep : ∀ {b}, e.Selects t b → d.Selects t b := fun h =>
    ⟨hd.slot_of_busy h.1, (hd.selectOldest_eq hvalid t.pool).trans h.2⟩
  refine ⟨fun h => ?_, hkeep⟩
  have hsel := (hd.selectOldest_eq hvalid t.pool).symm.trans h.2
  obtain ⟨hnone, -⟩ | ⟨k, b', hsome, hb', -⟩ := e.selectOldest_cases t.pool
  · cases hnone.symm.trans hsel
  · obtain ⟨hk, -⟩ := Prod.mk.inj (Option.some.inj (hsome.symm.trans hsel))
    subst hk
    cases h.1.symm.trans (hkeep hb').1
    exact hb'

/-- A dispatch leaves a pending register pending, and a tag it gives a register names a slot that was idle (R124). -/
theorem Engine.Dispatches.currentTag (hd : e.Dispatches d) (hsized : e.Sized) (r : Nat) :
    d.currentTag r = e.currentTag r ∨ ∃ t, d.currentTag r = some t ∧ e.slot t.pool t.slot = none := by
  cases hd with
  | idle => exact .inl rfl
  | reject code i rest hstream => exact .inl (e.currentTag_rejectHead code r)
  | allocate op i rest k res hstream hk hr =>
    by_cases hq : res.dest = some r
    · have hlt : r < e.rst.length := hsized.status ▸ hr.destBound r hq
      refine .inr ⟨⟨poolOf op, k⟩, ?_, hk.idle⟩
      simp only [Engine.currentTag, Engine.allocated, hq, Option.elim_some, List.getD_eq_getElem?_getD, List.getElem?_set, if_true, hlt]
      rfl
    · left
      rw [Engine.currentTag, List.getD_eq_getElem?_getD, e.rst_allocated_of_ne op i rest k res hq, ← List.getD_eq_getElem?_getD]
      rfl

end InFlight

/-! ### The cycle of a sound state -/

section Sound
variable {s : State} {d e₁ e' : Engine s.cfg} {evs : List (Event s.cfg.xlen)}

theorem State.Inv.coherent_of_running (h : s.Inv) (hrun : s.eng.status = .running) : s.eng.Coherent :=
  h.coherent (by simp [hrun])

/-- The pools of the engine a dispatch leaves hold only operations they execute (R116). -/
theorem Engine.Dispatches.inPools (hd : s.eng.beginCycle.Dispatches d) (h : s.eng.Coherent) : d.InPools := by
  have hbegun : s.eng.beginCycle.Coherent := h.congr (fun _ _ => rfl) (fun _ => rfl) rfl
  intro p k b hb
  refine (hd.coherent hbegun).slotPool p k { b with fresh := false } ?_
  rw [Engine.slot_clearFresh, hb]
  rfl

/-- Each event of a cycle is that of a slot that was in flight before it and that its pool selects; a STORE's aside, it is the one
that executing the slot before the cycle answers (20_memory R68). -/
theorem Engine.Finishes.event_inFlight (hfin : d.Finishes e₁ evs e') (hd : s.eng.beginCycle.Dispatches d) (hvalid : s.cfg.Valid)
    (h : s.eng.Coherent) : ∀ ev ∈ evs, ∃ b, s.eng.Selects ev.tag b ∧ (∃ e₂ e₃, execute e₂ ev.tag b = .ok (e₃, ev)) ∧
      (b.op ≠ .store → execute s.eng ev.tag b = .ok (s.eng, ev)) := by
  intro ev hev
  obtain ⟨b, hb, hexec⟩ := Engine.stepPools_event (hd.inPools h) poolOrder_nodup poolOrder_load_before_store hfin.stepped ev hev
  obtain ⟨b', hb', e₂, e₃, hexec'⟩ := (Engine.stepPools_stepsTo poolOrder_nodup hfin.stepped).event ev hev
  cases hb.1.symm.trans hb'.1
  have hmem : s.eng.mem = d.mem := by rw [hd.frame]; rfl
  exact ⟨b, (hd.selects_iff hvalid).1 hb, ⟨e₂, e₃, hexec'⟩, fun hop => execute_congr s.eng hop (fun _ => hmem) (hexec hop)⟩

/-- A slot that a pool selects before the cycle completes in it (R126). -/
theorem Engine.Finishes.completes (hfin : d.Finishes e₁ evs e') (hd : s.eng.beginCycle.Dispatches d) (hvalid : s.cfg.Valid)
    {t : Tag} {b : Slot s.cfg.xlen} (hb : s.eng.Selects t b) : ∃ ev ∈ evs, ev.tag = t :=
  (Engine.stepPools_stepsTo poolOrder_nodup hfin.stepped).selected t b (mem_poolOrder _) ((hd.selects_iff hvalid).2 hb)

/-- A redirect's fault is that of a taken branch to a negative target (R202, R236). -/
theorem Engine.redirectAll_error_event {c : Config} {e : Engine c} {evs : List (Event c.xlen)} {f : FaultCode × Nat}
    (h : e.redirectAll evs = .error f) :
    ∃ ev ∈ evs, ev.taken = some true ∧ ev.target < 0 ∧ f = (.branchTargetOutOfRange, ev.pidx) := by
  induction evs generalizing e with
  | nil => cases h
  | cons ev evs ih =>
    rw [Engine.redirectAll] at h
    split at h
    · next htaken =>
      obtain ⟨-, hr⟩ | ⟨hneg, hr⟩ := e.redirect_cases ev
      · rw [hr] at h
        obtain ⟨ev', hev', hrest⟩ := ih h
        exact ⟨ev', List.mem_cons_of_mem _ hev', hrest⟩
      · rw [hr] at h
        cases h
        exact ⟨ev, List.mem_cons_self, htaken, hneg, rfl⟩
    · obtain ⟨ev', hev', hrest⟩ := ih h
      exact ⟨ev', List.mem_cons_of_mem _ hev', hrest⟩

end Sound

/-- The causes of a fault that a cycle raises: an access outside memory, or a taken branch to a negative target, of a slot in flight
before it (R235, R236). -/
theorem Engine.Dispatches.fault_cause {s : State} {d : Engine s.cfg} (hd : s.eng.beginCycle.Dispatches d) (hvalid : s.cfg.Valid)
    (h : s.eng.Coherent) (hrun : s.eng.status = .running) (hnone : s.eng.fault = none) {f : FaultCode} {i : Nat}
    (hfault : d.finishCycle.fault = some (f, i)) :
    d.finishCycle.status = .faulted ∧
    ((f = .memoryAddressOutOfRange ∧ ∃ p k b, s.eng.slot p k = some b ∧ b.pidx = i ∧ b.ready = true ∧
        ((b.op = .load ∧ inMemory s.cfg (loadAddress b) = false) ∨ (b.op = .store ∧ inMemory s.cfg (storeAddress b) = false))) ∨
      (f = .branchTargetOutOfRange ∧ ∃ k b v, s.eng.slot .beq k = some b ∧ b.pidx = i ∧ b.oj = .val v ∧ b.ok = .val v ∧
        b.target < 0)) := by
  obtain ⟨f', i', hstep, hfinish⟩ | ⟨e₁, evs, hstep, ⟨f', i', hredirect, hfinish⟩ | ⟨e₂, hredirect, hfinish⟩⟩ :=
    Engine.finishCycle_cases (hd.status.trans hrun)
  · rw [hfinish] at hfault ⊢
    cases hfault
    obtain ⟨t, b, -, hb, _, hexec⟩ := Engine.stepPools_error poolOrder_nodup hstep
    have hb := (hd.selects_iff hvalid).1 hb
    obtain ⟨hcode, hout⟩ := execute_error hexec
    cases hcode
    exact ⟨rfl, .inl ⟨rfl, t.pool, t.slot, b, hb.1, rfl, hb.due.1.1, hout⟩⟩
  · rw [hfinish] at hfault ⊢
    cases hfault
    obtain ⟨ev, hev, htaken, hneg, hcode⟩ := Engine.redirectAll_error_event hredirect
    cases hcode
    obtain ⟨b, hb, _, _, hexec⟩ := (Engine.stepPools_stepsTo poolOrder_nodup hstep).event ev hev
    have hb := (hd.selects_iff hvalid).1 hb
    obtain ⟨hop, htarget, heq⟩ := (execute_result hexec).2.2 htaken
    obtain ⟨vj, vk, hj, hk⟩ := b.ready_iff.1 hb.due.1.1
    have hbeq : PoolId.beq = ev.tag.pool := (poolOf_eq_beq.2 hop).symm.trans (h.slotPool _ _ b hb.1)
    rw [hj, hk] at heq
    refine ⟨rfl, .inr ⟨rfl, ev.tag.slot, b, vj, hbeq ▸ hb.1, (execute_ok hexec).2.1.symm, hj, ?_, htarget ▸ hneg⟩⟩
    rw [hk]
    exact congrArg Operand.val heq.symm
  · rw [hfinish, (Engine.finishes_of_redirectAll hstep hredirect).frame, hd.frame] at hfault
    cases hnone.symm.trans hfault

/-- Settles O38: a running machine has no fault recorded, so the one recorded after the edge is the guard's or one the cycle
raised. -/
theorem faultsNameTheirCause : Obligations.FaultsNameTheirCause := by
  unfold Obligations.FaultsNameTheirCause
  intro s t f i hvalid hinv hpin hrun hstep hfault
  have hnone : s.eng.fault = none := by
    have hrecorded : s.eng.fault.isSome = true ↔ s.eng.status = .faulted := hinv.faults
    rw [← Option.not_isSome_iff_eq_none, hrecorded, hrun]
    decide
  obtain ⟨e', rfl, hedge⟩ := step_edge hstep
  cases hedge with
  | reset h => cases hpin.symm.trans h
  | still hpin hstop => exact absurd hrun hstop
  | halt hpin hrun hdrained => cases hnone.symm.trans hfault
  | guard hpin hrun hwork hguard => cases hfault; exact ⟨rfl, .inl ⟨rfl, rfl, rfl⟩⟩
  | cycle hpin hrun hwork hguard d hd =>
    obtain ⟨hstatus, hcause⟩ := hd.fault_cause hvalid (hinv.coherent_of_running hrun) hrun hnone hfault
    have hcycle : d.finishCycle.cycle = s.eng.cycle + 1 := by
      rw [Engine.finishCycle_cycle (hd.status.trans hrun), hd.frame]; rfl
    obtain ⟨hf, hslot⟩ | ⟨hf, hslot⟩ := hcause
    · exact ⟨hstatus, .inr (.inl ⟨hf, hcycle, hslot⟩)⟩
    · exact ⟨hstatus, .inr (.inr ⟨hf, hcycle, hslot⟩)⟩

@[simp] theorem storeAddress_countdown {w : Nat} (b : Slot w) : storeAddress b.countdown = storeAddress b := by
  simp only [storeAddress, Slot.countdown_a, Slot.countdown_ok]

/-- An answered execution of a STORE was inside memory (R183). -/
theorem execute_store_inMemory {c : Config} {e e' : Engine c} {t : Tag} {b : Slot c.xlen} {ev : Event c.xlen} (hop : b.op = .store)
    (h : execute e t b = .ok (e', ev)) : 0 ≤ storeAddress b := by
  obtain ⟨-, -, -, -, hstore⟩ := execute_ok h
  exact (hstore hop).2.1

/-- Settles O42: memory after the cycle is the one written by the STORE that its pool selects before it, and a write to a canonical
memory changes one word. -/
theorem onlyTheSelectedStoreWritesMemory : Obligations.OnlyTheSelectedStoreWritesMemory := by
  unfold Obligations.OnlyTheSelectedStoreWritesMemory
  intro s t hvalid hinv hpin hrun hstep hok
  obtain ⟨e', rfl, hedge⟩ := step_edge hstep
  refine ⟨e', rfl, fun a => ?_⟩
  cases hedge with
  | reset h => cases hpin.symm.trans h
  | still hpin hstop => exact absurd hrun hstop
  | guard hpin hrun hwork hguard => exact absurd rfl hok
  | halt hpin hrun hdrained =>
    obtain ⟨hsel, -⟩ | ⟨k, b, -, hb, -⟩ := s.eng.selectOldest_cases .store
    · rw [hsel]
    · cases ((s.eng.drained_iff.1 hdrained).2 _ _).symm.trans hb.1
  | cycle hpin hrun hwork hguard d hd =>
    have hcoh := hinv.coherent_of_running hrun
    obtain ⟨e₁, evs, hfin⟩ := Engine.finishes_of_not_faulted (hd.status.trans hrun) hok
    have hmem : d.finishCycle.mem = d.stored := by
      rw [hfin.frame]
      simpa [mem_poolOrder] using Engine.stepPools_mem (hd.inPools hcoh) poolOrder_nodup hfin.stepped
    have hd_mem : d.mem = s.eng.mem := by rw [hd.frame]; rfl
    have hsel_eq := hd.selectOldest_eq hvalid .store
    obtain ⟨hnone, -⟩ | ⟨k, b, hsel, hb, -⟩ := s.eng.selectOldest_cases .store
    · rw [hmem, Engine.stored_of_none (hsel_eq.trans hnone), hd_mem, hnone]
    · have hb' : d.Selects ⟨.store, k⟩ b := (hd.selects_iff hvalid).2 hb
      obtain ⟨ev, hev, htag⟩ := hfin.completes hd hvalid hb
      obtain ⟨b₂, hb₂, ⟨_, _, hexec⟩, -⟩ := hfin.event_inFlight hd hvalid hcoh ev hev
      rw [htag] at hb₂
      cases hb.1.symm.trans hb₂.1
      have hlow := execute_store_inMemory (poolOf_eq_store.1 (hcoh.slotPool _ _ b hb.1)) hexec
      have haddr : a = (storeAddress b).toNat ↔ (a : Int) = storeAddress b := by omega
      rw [hmem, Engine.stored_of_selects hb', hd_mem, Memory.read_write _ _ _ _ hinv.memory.canonical, hsel]
      simp only [haddr, storeAddress_countdown, Slot.countdown_oj]

/-- What a cycle does to register `r` of a sound engine: the slot the register was pending on completes, and gives it the value of
its event; or its value stays, and it is pending if it was. -/
theorem Engine.Finishes.producer {s : State} {d e₁ e' : Engine s.cfg} {evs : List (Event s.cfg.xlen)} (hfin : d.Finishes e₁ evs e')
    (hd : s.eng.beginCycle.Dispatches d) (hvalid : s.cfg.Valid) (h : s.eng.Coherent) (hsized : s.eng.Sized) (r : Nat) :
    (∃ tag b ev, s.eng.currentTag r = some tag ∧ s.eng.slot tag.pool tag.slot = some b ∧ b.dest = some r ∧ b.ready = true ∧
        e'.slot tag.pool tag.slot = none ∧ e'.currentTag r = none ∧ execute s.eng tag b = .ok (s.eng, ev) ∧
        ev.value = some (e'.reg r)) ∨
    (e'.reg r = s.eng.reg r ∧ (s.eng.currentTag r ≠ none → e'.currentTag r ≠ none)) := by
  have hx : d.x = s.eng.x := by rw [hd.frame]; rfl
  obtain ⟨ev, hev, v, hres, htag, hready, hreg⟩ | ⟨hreg, htag, -⟩ := hfin.register r
  · obtain ⟨b, hb, ⟨_, _, hexec⟩, hbefore⟩ := hfin.event_inFlight hd hvalid h ev hev
    have hwrites : b.op.writesRegister = true := by rw [← (execute_result hexec).1, hres.2]; rfl
    have hdest : b.dest = some r := ((execute_result hexec).2.1 hwrites).symm.trans hres.1
    have hop : b.op ≠ .store := by rintro hop; rw [hop] at hwrites; cases hwrites
    have hpending : s.eng.currentTag r = some ev.tag := by
      obtain hkept | ⟨t, ht, hidle⟩ := hd.currentTag (hsized.of_sizes ⟨rfl, rfl, fun _ => rfl⟩) r
      · exact hkept.symm.trans htag
      · cases ht.symm.trans htag
        cases hidle.symm.trans hb.1
    have hlt : r < d.x.length := by rw [hx, hsized.regs]; exact h.destBound _ _ b r hb.1 hdest
    refine .inl ⟨ev.tag, b, ev, hpending, hb.1, hdest, hb.due.1.1, ?_, hready, hbefore hop, ?_⟩
    · rw [hfin.slot, if_pos ⟨ev, hev, rfl⟩]
    · rw [hreg hlt, hres.2]
  · refine .inr ⟨?_, fun hpending => ?_⟩
    · rw [hreg, Engine.reg, hx]; rfl
    · rw [htag]
      obtain hkept | ⟨t, ht, -⟩ := hd.currentTag (hsized.of_sizes ⟨rfl, rfl, fun _ => rfl⟩) r
      · rw [hkept]; exact hpending
      · simp [ht]

/-- Settles O43: only a cycle touches a register, and in it only the producer that the register names. -/
theorem onlyTheNamedProducerWritesARegister : Obligations.OnlyTheNamedProducerWritesARegister := by
  unfold Obligations.OnlyTheNamedProducerWritesARegister
  intro s t hvalid hinv hpin hstep hok
  obtain ⟨e', rfl, hedge⟩ := step_edge hstep
  refine ⟨e', rfl, ?_⟩
  cases hedge with
  | reset h => cases hpin.symm.trans h
  | still hpin hstop => exact ⟨fun r hr => absurd rfl hr, fun r tag ht hn => by cases ht.symm.trans hn⟩
  | halt hpin hrun hdrained => exact ⟨fun r hr => absurd rfl hr, fun r tag ht hn => by cases ht.symm.trans hn⟩
  | guard hpin hrun hwork hguard => exact absurd rfl hok
  | cycle hpin hrun hwork hguard d hd =>
    obtain ⟨e₁, evs, hfin⟩ := Engine.finishes_of_not_faulted (hd.status.trans hrun) hok
    have hproducer := hfin.producer hd hvalid (hinv.coherent_of_running hrun) hinv.sized
    refine ⟨fun r hr => ?_, fun r tag ht hn => ?_⟩
    · obtain h | ⟨hkept, -⟩ := hproducer r
      · exact h
      · exact absurd hkept hr
    · obtain ⟨tag', b, ev, ht', hb, hdest, hready, hidle, -, hexec, hvalue⟩ | ⟨-, hpending⟩ := hproducer r
      · cases ht.symm.trans ht'
        exact ⟨b, ev, hb, hdest, hready, hidle, hexec, hvalue⟩
      · exact absurd hn (hpending (by simp [ht]))

/-- The oldest busy slot waits on nothing, since it could only wait on an older one (R137). -/
theorem Engine.Oldest.ready {c : Config} {e : Engine c} {p : PoolId} {k : Nat} {b : Slot c.xlen} (h : e.Oldest p k b)
    (hcoh : e.Coherent) : b.ready = true := by
  have hno : ∀ t, ¬ (b.oj = .wait t ∨ b.ok = .wait t) := fun t hw => by
    obtain ⟨b', hb', -, hlt⟩ := hcoh.waitLive p k b t h.1 hw
    exact Nat.not_le.2 hlt (h.2 _ _ _ hb')
  rw [b.ready_iff]
  cases hj : b.oj with
  | wait t => exact absurd (.inl hj) (hno t)
  | val vj =>
    cases hk : b.ok with
    | wait t => exact absurd (.inr hk) (hno t)
    | val vk => exact ⟨vj, vk, rfl, rfl⟩

/-- The oldest busy slot is selected once it is due: a due slot selected before it would share its sequence number (R31, R126). -/
theorem Engine.Oldest.selects {c : Config} {e : Engine c} {p : PoolId} {k : Nat} {b : Slot c.xlen} (h : e.Oldest p k b)
    (hcoh : e.Coherent) (hdue : b.Due) : e.Selects ⟨p, k⟩ b := by
  obtain ⟨-, hno⟩ | ⟨j, b', -, hb', -, hmin⟩ := e.selectOldest_cases p
  · exact absurd hdue (hno k b h.1)
  · have hseq : b'.seq = b.seq := Nat.le_antisymm (hmin k b h.1 hdue) (h.2 _ _ _ hb'.1)
    obtain ⟨-, hj⟩ := hcoh.seqUnique _ _ _ _ _ _ hb'.1 h.1 hseq
    subst hj
    cases hb'.1.symm.trans h.1
    exact hb'

/-- Settles O44: the oldest busy slot is ready and not fresh, so it counts down; at 1 or below it is due, and then selected. -/
theorem oldestSlotProgresses : Obligations.OldestSlotProgresses := by
  unfold Obligations.OldestSlotProgresses
  intro s t p k b hvalid hinv hpin hrun hold hstep hok
  have hcoh := hinv.coherent_of_running hrun
  have hready := hold.ready hcoh
  have hfresh := (hcoh.settled p k b hold.1).1
  have hcl : b.countdown.cl = b.cl - 1 := by
    rw [Slot.countdown_cl]
    split
    · rfl
    · next hkeep =>
      have : ¬ 0 < b.cl := fun h => hkeep ⟨hready, hfresh, h⟩
      omega
  obtain ⟨e', rfl, hedge⟩ := step_edge hstep
  refine ⟨hready, e', rfl, ?_⟩
  cases hedge with
  | reset h => cases hpin.symm.trans h
  | still hpin hstop => exact absurd hrun hstop
  | halt hpin hrun hdrained => cases ((s.eng.drained_iff.1 hdrained).2 p k).symm.trans hold.1
  | guard hpin hrun hwork hguard => exact absurd rfl hok
  | cycle hpin hrun hwork hguard d hd =>
    obtain ⟨e₁, evs, hfin⟩ := Engine.finishes_of_not_faulted (hd.status.trans hrun) hok
    refine ⟨fun hle => ?_, fun hlt => ?_⟩
    · obtain ⟨ev, hev, htag⟩ := hfin.completes hd hvalid (hold.selects hcoh ⟨hready, by omega⟩)
      have hpos := List.length_pos_of_mem hev
      have hcompleted : d.completed = s.eng.completed := by rw [hd.frame]; rfl
      refine ⟨by rw [hfin.slot, if_pos ⟨ev, hev, htag⟩], ?_⟩
      rw [hfin.frame]
      simp only
      omega
    · have hnot : ¬ ∃ ev ∈ evs, ev.tag = ⟨p, k⟩ := by
        rintro ⟨ev, hev, htag⟩
        obtain ⟨b', hb', -⟩ := hfin.event_inFlight hd hvalid hcoh ev hev
        rw [htag] at hb'
        cases hb'.1.symm.trans hold.1
        have := hb'.due.1.2
        omega
      have hslot : d.slot p k = some b := hd.slot_of_busy hold.1
      have hhear : b.countdown.hear evs = b.countdown := Slot.hear_of_ready (by rwa [Slot.countdown_ready])
      have hcount : b.countdown = { b with cl := b.cl - 1 } := by
        rw [Slot.countdown, if_pos (by simp [hready, hfresh]; omega)]
      rw [hfin.slot, if_neg hnot, hslot, Option.map_some, hhear, hcount, hfresh]

end Sys2Proof.Machine
end

section
/-! Runs and what the host reads of them: the end of a run (70_reset_and_hazards R265), the status block (10_state R36), and the cycle
after which the status table no longer names every producer (log entry 13). -/

namespace Sys2Proof.Machine

/-! ### The end of a run -/

/-- From a sound state the edges of a run answer sound states up to its end, which is the first state that is not Running, or the
state after all its edges (R265). -/
theorem State.runEnd_spec (n : Nat) {s : State} (h : s.Inv) :
    ∃ k u, k ≤ n ∧ Host.Core.run Sys2Proof.core k s = .next u ∧ u.Inv ∧
      (∀ j < k, ∃ v, Host.Core.run Sys2Proof.core j s = .next v ∧ v.eng.status = .running) ∧
      ((u.eng.status = .halted ∧ s.runEnd n = .normal u) ∨ (u.eng.status = .faulted ∧ s.runEnd n = .faulted u) ∨
        (u.eng.status = .running ∧ k = n ∧ s.runEnd n = .unfinished u)) := by
  induction n generalizing s with
  | zero =>
    refine ⟨0, s, Nat.le_refl _, rfl, h, fun j hj => absurd hj j.not_lt_zero, ?_⟩
    cases hs : s.eng.status with
    | halted => exact .inl ⟨rfl, State.runEnd_of_halted 0 hs⟩
    | faulted => exact .inr (.inl ⟨rfl, State.runEnd_of_faulted 0 hs⟩)
    | running => exact .inr (.inr ⟨rfl, rfl, State.runEnd_zero hs⟩)
  | succ n ih =>
    cases hs : s.eng.status with
    | halted =>
      exact ⟨0, s, Nat.zero_le _, rfl, h, fun j hj => absurd hj j.not_lt_zero, .inl ⟨hs, State.runEnd_of_halted _ hs⟩⟩
    | faulted =>
      exact ⟨0, s, Nat.zero_le _, rfl, h, fun j hj => absurd hj j.not_lt_zero, .inr (.inl ⟨hs, State.runEnd_of_faulted _ hs⟩)⟩
    | running =>
      obtain ⟨e', ht⟩ := stepAlwaysAnswers s h.stream
      obtain ⟨k, u, hk, hrun, hu, hbefore, hend⟩ := ih (stepKeepsSoundness s _ h ht)
      refine ⟨k + 1, u, Nat.succ_le_succ hk, (run_succ k ht).trans hrun, hu, fun j hj => ?_, ?_⟩
      · cases j with
        | zero => exact ⟨s, rfl, hs⟩
        | succ j =>
          obtain ⟨v, hv, hvrun⟩ := hbefore j (Nat.lt_of_succ_lt_succ hj)
          exact ⟨v, (run_succ j ht).trans hv, hvrun⟩
      · rw [State.runEnd_succ n hs ht, Nat.succ_inj]
        exact hend

/-- Settles O60: the run's end is the state of `runEnd_spec`, and the results of a sound halted state are read from it. -/
theorem runEndsWithItsResults : Obligations.RunEndsWithItsResults := by
  unfold Obligations.RunEndsWithItsResults
  intro s n h
  obtain ⟨k, u, hk, hrun, hu, hbefore, hend⟩ := State.runEnd_spec n h
  have hcommitted := haltedRegistersAreCommitted u hu
  refine ⟨?_, fun j v hj hv hstopped hrunning => ?_, fun t ht => ?_, fun t ht => ?_⟩
  · obtain ⟨-, he⟩ | ⟨-, he⟩ | ⟨-, -, he⟩ := hend <;> simp [he]
  · obtain hlt | rfl | hlt := Nat.lt_trichotomy j k
    · obtain ⟨v', hv', hvrun⟩ := hbefore j hlt
      cases hv.symm.trans hv'
      exact absurd hvrun hstopped
    · cases hrun.symm.trans hv
      obtain ⟨-, he⟩ | ⟨-, he⟩ | ⟨hurun, -, -⟩ := hend
      · exact .inl he
      · exact .inr he
      · exact absurd hurun hstopped
    · obtain ⟨u', hu', hurun⟩ := hrunning k hlt
      cases hrun.symm.trans hu'
      obtain ⟨hs, -⟩ | ⟨hs, -⟩ | ⟨-, rfl, -⟩ := hend
      · cases hurun.symm.trans hs
      · cases hurun.symm.trans hs
      · omega
  · obtain ⟨-, he⟩ | ⟨-, he⟩ | ⟨hurun, rfl, he⟩ := hend
    · cases he.symm.trans ht
    · cases he.symm.trans ht
    · cases he.symm.trans ht
      refine ⟨hrun, fun j hj => ?_⟩
      obtain hlt | rfl := Nat.lt_or_eq_of_le hj
      · exact hbefore j hlt
      · exact ⟨_, hrun, hurun⟩
  · have htu : t = u := by
      obtain ⟨-, he⟩ | ⟨-, he⟩ | ⟨-, -, he⟩ := hend <;> obtain ht | ht | ht := ht <;> cases he.symm.trans ht <;> rfl
    subst htu
    refine ⟨⟨k, hk, hrun, hbefore⟩, ?_, ?_, fun hhalt => ?_, fun hnot => Engine.results_of_not_halted hnot⟩
    · obtain ⟨hs, he⟩ | ⟨hs, he⟩ | ⟨hs, -, he⟩ := hend <;> simp [hs, he]
    · obtain ⟨hs, he⟩ | ⟨hs, he⟩ | ⟨hs, -, he⟩ := hend <;> simp [hs, he]
    · obtain ⟨hstream, hidle, hready⟩ := hcommitted hhalt
      exact ⟨hstream, hidle, hready, Engine.results_of_halted hhalt⟩

/-! ### The status block -/

/-- STATUS with its fields written one above the other (R36). -/
def statusWord (busy empty : Bool) (fault : BitVec 4) (state : BitVec 2) : BitVec 32 :=
  (0 : BitVec 22) ++ (BitVec.ofBool busy ++ (BitVec.ofBool empty ++ (fault ++ ((0 : BitVec 2) ++ state))))

section StatusWord
variable (busy empty : Bool) (fault : BitVec 4) (state : BitVec 2)

/-- Each bit of STATUS is a bit of the field whose place it is in (R36). -/
theorem getLsbD_statusWord (i : Nat) :
    (statusWord busy empty fault state).getLsbD i =
      if i < 10 then
        if i < 9 then
          if i < 8 then
            if i < 4 then if i < 2 then state.getLsbD i else (0#2).getLsbD (i - 2)
            else fault.getLsbD (i - 4)
          else (BitVec.ofBool empty).getLsbD (i - 8)
        else (BitVec.ofBool busy).getLsbD (i - 9)
      else (0#22).getLsbD (i - 10) := by
  change BitVec.getLsbD (0#22 ++ (BitVec.ofBool busy ++ (BitVec.ofBool empty ++ (fault ++ (0#2 ++ state))))) i = _
  simp only [BitVec.getLsbD_append]

theorem statusWord_state : (statusWord busy empty fault state).extractLsb' 0 2 = state := by
  apply BitVec.eq_of_getLsbD_eq
  intro i hi
  rw [BitVec.getLsbD_extractLsb', getLsbD_statusWord]
  interval_cases i <;> simp

theorem statusWord_zero : (statusWord busy empty fault state).extractLsb' 2 2 = 0 := by
  apply BitVec.eq_of_getLsbD_eq
  intro i hi
  rw [BitVec.getLsbD_extractLsb', getLsbD_statusWord]
  interval_cases i <;> simp

theorem statusWord_fault : (statusWord busy empty fault state).extractLsb' 4 4 = fault := by
  apply BitVec.eq_of_getLsbD_eq
  intro i hi
  rw [BitVec.getLsbD_extractLsb', getLsbD_statusWord]
  interval_cases i <;> simp

theorem statusWord_empty : (statusWord busy empty fault state).getLsbD 8 = empty := by
  rw [getLsbD_statusWord]
  simp

theorem statusWord_busy : (statusWord busy empty fault state).getLsbD 9 = busy := by
  rw [getLsbD_statusWord]
  simp

theorem statusWord_high : (statusWord busy empty fault state).extractLsb' 10 22 = 0 := by
  apply BitVec.eq_of_getLsbD_eq
  intro i hi
  rw [BitVec.getLsbD_extractLsb', getLsbD_statusWord, if_neg (by omega)]
  simp

end StatusWord

section Block
variable {c : Config} (e : Engine c)

theorem Engine.statusRegister_eq : e.statusRegister = statusWord e.anyBusy e.stream.isEmpty e.faultField (statusNumber e.status) := rfl

theorem Engine.faultField_of_fault {e : Engine c} {f : FaultCode} {i : Nat} (hs : e.status = .faulted) (hf : e.fault = some (f, i)) :
    e.faultField = faultCodeNumber f := by
  simp only [Engine.faultField, hs, hf]

theorem Engine.faultField_of_not_faulted {e : Engine c} (hs : e.status ≠ .faulted) : e.faultField = 0 := by
  unfold Engine.faultField
  split
  · next h _ => exact absurd h hs
  · rfl

/-- A counter of at most 32 bits is shown whole (R36). -/
theorem counterRegister_toNat (hw : c.cntW ≤ 32) (n : Nat) : (counterRegister c n).toNat = n % 2 ^ c.cntW := by
  rw [counterRegister, BitVec.toNat_ofNat]
  exact Nat.mod_eq_of_lt ((Nat.mod_lt _ (by positivity)).trans_le (Nat.pow_le_pow_right Nat.two_pos hw))

theorem Engine.errflagsRegister_toNat : e.errflagsRegister.toNat = e.errflags.malformed.toNat + 2 * e.errflags.range.toNat := by
  unfold Engine.errflagsRegister
  cases e.errflags.malformed <;> cases e.errflags.range <;> rfl

theorem Engine.lasterrRegister_toNat {e : Engine c} {code : ErrCode} {i : Nat} (h : e.lasterr = some (code, i)) :
    e.lasterrRegister.toNat = i % 2 ^ 16 * 2 ^ 16 + (errCodeNumber code).toNat := by
  have hlow : (errCodeNumber code).toNat < 2 ^ 16 := (errCodeNumber code).isLt.trans (by decide)
  simp only [Engine.lasterrRegister, h]
  change (BitVec.ofNat 16 i ++ ((0 : BitVec 12) ++ errCodeNumber code)).toNat = _
  rw [BitVec.toNat_append, BitVec.toNat_append, BitVec.toNat_ofNat]
  simp only [BitVec.ofNat_eq_ofNat, BitVec.toNat_ofNat, Nat.zero_mod, Nat.zero_shiftLeft, Nat.zero_or]
  rw [← Nat.shiftLeft_add_eq_or_of_lt hlow, Nat.shiftLeft_eq]

/-- The indices from 8 on are reserved (R36). -/
theorem Engine.statusBlock_of_reserved {idx : BitVec 4} (h : 8 ≤ idx.toNat) : e.statusBlock idx = 0 := by
  unfold Engine.statusBlock
  split <;> first | omega | rfl

end Block

/-- Settles O59, register by register. -/
theorem statusBlockShowsItsFields : Obligations.StatusBlockShowsItsFields := by
  unfold Obligations.StatusBlockShowsItsFields
  intro s _ hw
  change (s.eng.statusRegister.extractLsb' 0 2).toNat = _ ∧ s.eng.statusRegister.extractLsb' 2 2 = 0 ∧ _
  rw [s.eng.statusRegister_eq]
  refine ⟨?_, statusWord_zero _ _ _ _, fun f i hs hf => ⟨?_, ?_⟩, fun hs => ?_, fun hf => ?_, ?_, ?_, statusWord_high _ _ _ _,
    counterRegister_toNat hw _, counterRegister_toNat hw _, counterRegister_toNat hw _, s.eng.errflagsRegister_toNat,
    fun hl => ?_, fun code i hl => ?_, BitVec.toNat_ofNat _ _, fun idx hidx => s.eng.statusBlock_of_reserved hidx⟩
  · rw [statusWord_state]
    cases s.eng.status <;> rfl
  · change ((statusWord _ _ _ _).extractLsb' 4 4).toNat = _
    rw [statusWord_fault, Engine.faultField_of_fault hs hf]
    cases f <;> rfl
  · change s.eng.faultInfoRegister.toNat = _
    simp only [Engine.faultInfoRegister, hf, BitVec.toNat_ofNat]
  · change (statusWord _ _ _ _).extractLsb' 4 4 = 0
    rw [statusWord_fault, Engine.faultField_of_not_faulted hs]
  · change s.eng.faultInfoRegister = 0
    simp only [Engine.faultInfoRegister, hf]
  · change (statusWord _ _ _ _).getLsbD 8 = true ↔ _
    rw [statusWord_empty, List.isEmpty_iff]
  · change (statusWord _ _ _ _).getLsbD 9 = true ↔ _
    rw [statusWord_busy, s.eng.anyBusy_iff]
  · change s.eng.lasterrRegister = 0
    simp only [Engine.lasterrRegister, hl]
  · change s.eng.lasterrRegister.toNat = _
    rw [Engine.lasterrRegister_toNat hl]
    cases code <;> rfl

/-! ### A producer that the status table no longer names -/

/-- The operands of `ADD R1, R0, R0` and of `LOAD R1, 0(R0)` where R0 is Ready and holds 0. -/
def zeroOperands : Resolved 16 := { oj := .val 0, ok := .val 0, dest := some 1, a := 0, target := 0 }

/-- A launch with the two records pending. -/
def pairLaunched : State := State.launch Config.reference [encode (.add 1 0 0), encode (.load 1 0 0)] (List.replicate 8 0) []

/-- The launch's engine with an ADD to R1 in flight. -/
def olderInFlight : Engine Config.reference :=
  (Engine.allocated (c := Config.reference) pairLaunched.eng .add 0 [1] 0 zeroOperands).clearFresh

/-- The same with a younger LOAD to R1 in flight, which completes first: LAT_LOAD is 1 and LAT_ADD is 2. -/
def pairInFlight : State := { pairLaunched with eng := (olderInFlight.allocated .load 1 [] 0 zeroOperands).clearFresh }

/-- The ADD after its first decrement. -/
def olderSlot : Slot 16 :=
  { op := .add, pidx := 0, oj := .val 0, ok := .val 0, dest := some 1, a := 0, target := 0, cl := 1, fresh := false, seq := 0 }

/-- The state after the cycle in which the LOAD has completed and the ADD has not. -/
def olderLeft : State :=
  { pairLaunched with eng :=
      { Engine.setSlot (c := Config.reference) pairLaunched.eng .add 0 (some olderSlot) with
        stream := []
        seqNext := 2
        cycle := 1
        completed := 1 } }

theorem step_pairInFlight : step pairInFlight = .next olderLeft := rfl

theorem zeroOperands_fromRegisters {e : Engine Config.reference} {op : Opcode} (hop : op.writesRegister = true) :
    Resolved.FromRegisters (c := Config.reference) zeroOperands e op where
  dest := hop.symm
  destBound := by rintro _ ⟨⟩; decide
  waits := fun t h => by cases h <;> contradiction

theorem pairLaunched_inv : pairLaunched.Inv :=
  launchIsSound _ _ _ _ List.length_replicate rfl fun _ hcell => by cases hcell

theorem pairLaunched_lowestIdle : Engine.LowestIdle (c := Config.reference) pairLaunched.eng (poolOf .add) 0 :=
  (Engine.lowestIdle_iff _ _ _).1 (by decide)

theorem olderInFlight_lowestIdle : olderInFlight.LowestIdle (poolOf .load) 0 := (Engine.lowestIdle_iff _ _ _).1 (by decide)

theorem olderInFlight_coherent : olderInFlight.Coherent :=
  Engine.Dispatches.coherent (e := (pairLaunched.eng : Engine Config.reference))
    (.allocate .add 0 [1] 0 zeroOperands rfl pairLaunched_lowestIdle (zeroOperands_fromRegisters rfl))
    (pairLaunched_inv.coherent_of_running rfl)

theorem pairInFlight_coherent : pairInFlight.eng.Coherent :=
  Engine.Dispatches.coherent (e := olderInFlight)
    (.allocate .load 1 [] 0 zeroOperands rfl olderInFlight_lowestIdle (zeroOperands_fromRegisters rfl)) olderInFlight_coherent

theorem pairInFlight_inv : pairInFlight.Inv where
  sized := ⟨rfl, rfl, fun p => by cases p <;> rfl⟩
  memory := pairLaunched_inv.memory.of_mem_eq rfl
  stream := ⟨rfl, fun _ => ⟨2, rfl⟩⟩
  coherent := fun _ => pairInFlight_coherent
  faults := ⟨nofun, nofun⟩
  halted := nofun

/-- The busy slots after an allocation, once nothing is fresh: the new one, and those from before. -/
theorem Engine.slot_clearFresh_allocated {c : Config} {e : Engine c} {op : Opcode} {i : Nat} {rest : List Nat} {k : Nat}
    {r : Resolved c.xlen} (hk : e.LowestIdle (poolOf op) k) {p : PoolId} {j : Nat} {s : Slot c.xlen}
    (h : (e.allocated op i rest k r).clearFresh.slot p j = some s) :
    (p = poolOf op ∧ j = k ∧ s.seq = e.seqNext ∧ s.dest = r.dest) ∨ ∃ b, e.slot p j = some b ∧ s = { b with fresh := false } := by
  rw [Engine.slot_clearFresh, e.slot_allocated op i rest r hk] at h
  split at h
  · next hpj => cases h; exact .inl ⟨hpj.1, hpj.2, rfl, rfl⟩
  · obtain ⟨b, hb, rfl⟩ := Option.map_eq_some_iff.1 h
    exact .inr ⟨b, hb, rfl⟩

theorem slot_pairLaunched (p : PoolId) (k : Nat) : Engine.slot (c := Config.reference) pairLaunched.eng p k = none :=
  Engine.slot_of_idlePools rfl p k

theorem slot_pairInFlight {p : PoolId} {k : Nat} {s : Slot 16} (h : pairInFlight.eng.slot p k = some s) :
    s.dest = some 1 ∧ ((p = .load ∧ k = 0 ∧ s.seq = 1) ∨ (p = .add ∧ k = 0 ∧ s.seq = 0)) := by
  obtain ⟨hp, hk, hseq, hdest⟩ | ⟨b, hb, rfl⟩ := Engine.slot_clearFresh_allocated olderInFlight_lowestIdle h
  · exact ⟨hdest, .inl ⟨hp, hk, hseq⟩⟩
  · obtain ⟨hp, hk, hseq, hdest⟩ | ⟨b', hb', -⟩ := Engine.slot_clearFresh_allocated pairLaunched_lowestIdle hb
    · exact ⟨hdest, .inr ⟨hp, hk, hseq⟩⟩
    · cases (slot_pairLaunched p k).symm.trans hb'

/-- R1 names the LOAD, which is the younger of its two producers. -/
theorem pairInFlight_pendingExactly : pairInFlight.eng.PendingExactly := by
  refine fun r t => ⟨pairInFlight_coherent.pendingLive r t, ?_⟩
  obtain ⟨p, k⟩ := t
  rintro ⟨s, hs, hr, hmax⟩
  obtain ⟨hdest, ⟨rfl, rfl, -⟩ | ⟨rfl, rfl, hseq⟩⟩ := slot_pairInFlight hs
  · cases hr.symm.trans hdest
    rfl
  · cases hr.symm.trans hdest
    have hyounger := hmax .load 0 _ rfl rfl
    rw [hseq] at hyounger
    exact absurd hyounger (by decide)

theorem slot_olderLeft {p : PoolId} {k : Nat} {s : Slot 16} (h : olderLeft.eng.slot p k = some s) : s = olderSlot := by
  have hslot := Engine.slot_setSlot (c := Config.reference) pairLaunched.eng .add p 0 k (some olderSlot) (by decide)
  rw [slot_pairLaunched] at hslot
  have h := hslot.symm.trans h
  split at h
  · cases h; rfl
  · cases h

/-- Settles O54: before the cycle R1 names the younger of its two producers; after it R1 is Ready, though the older one is still
busy. -/
theorem pendingExactlyIsNotKept : Obligations.PendingExactlyIsNotKept := by
  unfold Obligations.PendingExactlyIsNotKept
  refine ⟨pairInFlight, olderLeft, pairInFlight_inv, pairInFlight_pendingExactly, step_pairInFlight,
    stepKeepsSoundness _ _ pairInFlight_inv step_pairInFlight, fun h => ?_⟩
  have hpending := (h 1 ⟨.add, 0⟩).2 ⟨olderSlot, rfl, rfl, fun p k s hs _ => by rw [slot_olderLeft hs]⟩
  cases hpending

end Sys2Proof.Machine
end

section
/-! One instruction alone in the machine, from its dispatch to its end (70_reset_and_hazards, section 5): the cycles of an engine with one
busy slot. -/

namespace Sys2Proof.Machine

/-! ### An engine with one busy slot -/

/-- The pools with slot 0 of pool `p` busy and every other slot idle. -/
def alonePools (c : Config) (p : PoolId) (b : Slot c.xlen) : Pools c.xlen :=
  (idlePools c).put p (((idlePools c).get p).set 0 (some b))

section Alone
variable {c : Config} {e : Engine c} {p : PoolId} {b : Slot c.xlen}

theorem Engine.slot_of_alone (halone : e.pools = alonePools c p b) (hcap : 1 ≤ capOf c p) (q : PoolId) (k : Nat) :
    e.slot q k = if q = p ∧ k = 0 then some b else none := by
  have hset := Engine.slot_setSlot { e with pools := idlePools c } p q 0 k (some b)
    (by simpa using Nat.lt_of_lt_of_le Nat.zero_lt_one hcap)
  have hidle : Engine.slot { e with pools := idlePools c } q k = none := Engine.slot_of_idlePools rfl q k
  rw [hidle] at hset
  rw [← hset, Engine.slot_eq, halone]
  rfl

theorem mapBusy_alonePools (f : Slot c.xlen → Slot c.xlen) : (alonePools c p b).mapBusy f = alonePools c p (f b) := by
  refine Pools.ext_get fun q => ?_
  simp only [alonePools, Pools.get_mapBusy, Pools.get_put, idlePools_get]
  split <;> simp [List.map_set]

theorem mapBusy_idlePools (f : Slot c.xlen → Slot c.xlen) : (idlePools c).mapBusy f = idlePools c :=
  Pools.ext_get fun q => by simp

theorem Engine.countdown_alone (halone : e.pools = alonePools c p b) :
    e.countdown p = { e with pools := alonePools c p b.countdown } := by
  have hpools : e.pools.put p ((e.pools.get p).map (Option.map Slot.countdown)) = alonePools c p b.countdown := by
    refine Pools.ext_get fun q => ?_
    rw [halone]
    simp only [alonePools, Pools.get_put, idlePools_get]
    split <;> simp [List.map_set]
  rw [Engine.countdown, hpools]

theorem Pools.put_get {w : Nat} (ps : Pools w) (q : PoolId) : ps.put q (ps.get q) = ps := by cases q <;> rfl

/-- A pool with no busy slot has nothing to step (R125, R126). -/
theorem Engine.stepPool_of_idle {q : PoolId} (hidle : ∀ k, e.slot q k = none) : e.stepPool q = .ok (e, []) := by
  have hnone : ∀ o ∈ e.pools.get q, o = none := fun o ho => by
    obtain ⟨k, hk⟩ := List.mem_iff_getElem?.1 ho
    cases o with
    | none => rfl
    | some s => cases (hidle k).symm.trans ((e.slot_eq_some_iff q k s).2 hk)
  have hmap : (e.pools.get q).map (Option.map Slot.countdown) = e.pools.get q :=
    (List.map_congr_left fun o ho => by rw [hnone o ho]; rfl).trans (List.map_id _)
  have hcountdown : e.countdown q = e := by rw [Engine.countdown, hmap, Pools.put_get]
  obtain ⟨-, hstep⟩ | ⟨k, s, hsel, -⟩ := e.stepPool_cases q
  · rw [hstep, hcountdown]
  · obtain ⟨hsel', -⟩ | ⟨k', b, -, hb, -⟩ := e.selectOldest_cases q
    · cases hsel'.symm.trans hsel
    · cases (hidle k').symm.trans hb.1

theorem Engine.stepPools_of_idle {ps : List PoolId} (hidle : ∀ q ∈ ps, ∀ k, e.slot q k = none) : e.stepPools ps = .ok (e, []) := by
  induction ps with
  | nil => rfl
  | cons q ps ih =>
    obtain ⟨hq, hps⟩ := List.forall_mem_cons.1 hidle
    simp only [Engine.stepPools, Engine.stepPool_of_idle hq, ih hps, List.append_nil]

/-- Where one pool alone has busy slots, the step of all pools is the step of that one. -/
theorem Engine.stepPools_of_others_idle {ps : List PoolId} (hps : ps.Nodup) (hp : p ∈ ps)
    (hidle : ∀ q ≠ p, ∀ k, e.slot q k = none) : e.stepPools ps = e.stepPool p := by
  induction ps with
  | nil => cases hp
  | cons q ps ih =>
    obtain ⟨hq, hps⟩ := List.nodup_cons.1 hps
    by_cases hqp : q = p
    · subst hqp
      simp only [Engine.stepPools]
      cases hstep : e.stepPool q with
      | error f => rfl
      | ok r =>
        have hrest : r.1.stepPools ps = .ok (r.1, []) := Engine.stepPools_of_idle fun q' hq' k => by
          have hne : q' ≠ q := ne_of_mem_of_not_mem hq' hq
          rw [Engine.slot_eq, (Engine.stepPool_stepsTo hstep).get_of_not_mem (by simpa using hne)]
          exact hidle q' hne k
        simp only [hrest, List.append_nil]
    · have hp' : p ∈ ps := (List.mem_cons.1 hp).resolve_left (Ne.symm hqp)
      simp only [Engine.stepPools, Engine.stepPool_of_idle (hidle q hqp), ih hps hp']
      cases e.stepPool p <;> rfl

theorem Engine.stepPools_alone (halone : e.pools = alonePools c p b) (hcap : 1 ≤ capOf c p) :
    e.stepPools poolOrder = e.stepPool p := by
  refine Engine.stepPools_of_others_idle poolOrder_nodup (mem_poolOrder p) fun q hq k => ?_
  rw [Engine.slot_of_alone halone hcap, if_neg fun h => hq h.1]

/-- While the one slot is not due, the step is its decrement. -/
theorem Engine.stepPool_alone_of_not_due (halone : e.pools = alonePools c p b) (hcap : 1 ≤ capOf c p) (hnot : ¬ b.Due) :
    e.stepPool p = .ok (e.countdown p, []) := by
  obtain ⟨-, hstep⟩ | ⟨k, s, hsel, -⟩ := e.stepPool_cases p
  · exact hstep
  · obtain ⟨hsel', -⟩ | ⟨k', b', -, hb', hdue, -⟩ := e.selectOldest_cases p
    · cases hsel'.symm.trans hsel
    · have hslot := hb'.1
      rw [Engine.slot_of_alone halone hcap] at hslot
      split at hslot
      · cases hslot; exact absurd hdue hnot
      · cases hslot

/-- Once it is due, the step is its execution. -/
theorem Engine.stepPool_alone_of_due (halone : e.pools = alonePools c p b) (hcap : 1 ≤ capOf c p) (hdue : b.Due) :
    e.stepPool p =
      match execute (e.countdown p) ⟨p, 0⟩ b with
      | .ok (e', ev) => .ok (e', [ev])
      | .error f => .error f := by
  have hslot := Engine.slot_of_alone halone hcap
  obtain ⟨-, hno⟩ | ⟨k, b', hsel, hb', -⟩ := e.selectOldest_cases p
  · exact absurd hdue (hno 0 b (by rw [hslot, if_pos ⟨rfl, rfl⟩]))
  · have hb'' := hb'.1
    rw [hslot] at hb''
    split at hb''
    · next hk =>
      obtain ⟨-, rfl⟩ := hk
      cases hb''
      simp only [Engine.stepPool, hsel, execute_countdown]
      cases execute (e.countdown p) ⟨p, 0⟩ b <;> rfl
    · cases hb''

/-! ### The cycle of an engine with one busy slot -/

/-- A cycle in which the slot is not due counts it down and clears its `fresh` bit, and changes nothing else. -/
theorem Engine.finishCycle_alone_of_not_due (hrun : e.status = .running) (halone : e.pools = alonePools c p b)
    (hcap : 1 ≤ capOf c p) (hnot : ¬ b.Due) :
    e.finishCycle = { e with pools := alonePools c p { b.countdown with fresh := false } } := by
  have hstep := (Engine.stepPools_alone halone hcap).trans (Engine.stepPool_alone_of_not_due halone hcap hnot)
  rw [Engine.finishCycle, if_neg (not_not.2 hrun)]
  simp only [hstep, Engine.broadcastAll_nil, Engine.releaseAll_nil, Engine.redirectAll]
  rw [Engine.countdown_alone halone]
  simp only [Engine.clearFresh, mapBusy_alonePools]

/-- A cycle in which the slot is due and its execution faults is that fault (R183). -/
theorem Engine.finishCycle_alone_of_error (hrun : e.status = .running) (halone : e.pools = alonePools c p b)
    (hcap : 1 ≤ capOf c p) (hdue : b.Due) {f : FaultCode} {i : Nat} (hexec : execute (e.countdown p) ⟨p, 0⟩ b = .error (f, i)) :
    e.finishCycle = e.raise f i := by
  have hstep := (Engine.stepPools_alone halone hcap).trans (Engine.stepPool_alone_of_due halone hcap hdue)
  rw [hexec] at hstep
  simp only [Engine.finishCycle, hrun, hstep, ne_eq, not_true_eq_false, if_false]

/-- A broadcast's effect on registers and status entries depends on those alone. -/
theorem Engine.broadcast_registers {e e' : Engine c} (hx : e'.x = e.x) (hrst : e'.rst = e.rst) (ev : Event c.xlen) :
    (e'.broadcast ev).x = (e.broadcast ev).x ∧ (e'.broadcast ev).rst = (e.broadcast ev).rst := by
  have htag : ∀ d, e'.currentTag d = e.currentTag d := fun d => by rw [Engine.currentTag, hrst]; rfl
  by_cases h : ∃ r v, ev.Result r v
  · obtain ⟨d, v, hd, hv⟩ := h
    simp only [Engine.broadcast_of_result _ hd hv, Engine.wakeAll_x, Engine.wakeAll_rst, Engine.writeBack, htag]
    split <;> simp [hx, hrst]
  · simp only [Engine.broadcast_of_noResult h, hx, hrst, and_self]

/-- After its broadcast and its release the one slot is idle. -/
theorem Engine.released_alone (halone : e.pools = alonePools c p b) {ev : Event c.xlen} (htag : ev.tag = ⟨p, 0⟩) :
    ((e.broadcast ev).release ev).pools = idlePools c := by
  obtain ⟨b', hb'⟩ : ∃ b', (e.broadcast ev).pools = alonePools c p b' := by
    by_cases h : ∃ r v, ev.Result r v
    · obtain ⟨d, v, hd, hv⟩ := h
      refine ⟨Slot.wake ev.tag v b, ?_⟩
      rw [e.broadcast_of_result hd hv, Engine.wakeAll_pools]
      obtain ⟨-, heq⟩ | ⟨-, heq⟩ := e.writeBack_cases d ev.tag v <;> simp [heq, halone, mapBusy_alonePools]
    · exact ⟨b, by rw [Engine.broadcast_of_noResult h, halone]⟩
  rw [Engine.release_pools, hb', htag]
  refine Pools.ext_get fun q => ?_
  simp only [alonePools, Pools.get_put, idlePools_get]
  split
  · next hq => subst hq; simp
  · rfl

variable {m : Memory c.xlen} {ev : Event c.xlen}

/-- What the broadcast and the release of the one slot's event leave, after its execution (R129, R132). -/
theorem Engine.released_frame_alone (htag : ev.tag = ⟨p, 0⟩) :
    (Engine.broadcast { e with pools := alonePools c p b, mem := m } ev).release ev =
      { e with
        x := (e.broadcast ev).x
        rst := (e.broadcast ev).rst
        mem := m
        pools := idlePools c
        completed := e.completed + 1 } := by
  obtain ⟨hx, hrst⟩ := Engine.broadcast_registers (e := e) (e' := { e with pools := alonePools c p b, mem := m }) rfl rfl ev
  rw [← Engine.released_alone (e := { e with pools := alonePools c p b, mem := m }) rfl htag, ← hx, ← hrst, Engine.release,
    Engine.setSlot, Engine.broadcast_frame]

theorem Engine.redirectAll_singleton (htarget : ev.taken = some true → 0 ≤ ev.target) :
    e.redirectAll [ev] =
      .ok { e with stream := if ev.taken = some true then streamFrom ev.target.toNat e.progLen else e.stream } := by
  by_cases htaken : ev.taken = some true
  · simp [Engine.redirectAll, Engine.redirect, htaken, Int.not_lt.2 (htarget htaken)]
  · simp [Engine.redirectAll, htaken]

/-- A cycle in which the slot is due and completes: its event is broadcast, its slot released, and a taken branch refills the stream
(R129 to R134). -/
theorem Engine.finishCycle_alone_of_ok (hrun : e.status = .running) (halone : e.pools = alonePools c p b)
    (hcap : 1 ≤ capOf c p) (hdue : b.Due) (hexec : execute (e.countdown p) ⟨p, 0⟩ b = .ok ({ e.countdown p with mem := m }, ev))
    (htarget : ev.taken = some true → 0 ≤ ev.target) :
    e.finishCycle =
      { e with
        x := (e.broadcast ev).x
        rst := (e.broadcast ev).rst
        mem := m
        pools := idlePools c
        stream := if ev.taken = some true then streamFrom ev.target.toNat e.progLen else e.stream
        completed := e.completed + 1 } := by
  have hstep := (Engine.stepPools_alone halone hcap).trans (Engine.stepPool_alone_of_due halone hcap hdue)
  rw [hexec] at hstep
  rw [Engine.finishCycle, if_neg (not_not.2 hrun)]
  simp only [hstep, Engine.broadcastAll_cons, Engine.broadcastAll_nil, Engine.releaseAll_cons, Engine.releaseAll_nil]
  rw [Engine.countdown_alone halone, Engine.released_frame_alone (e := e) (execute_ok hexec).1, Engine.redirectAll_singleton htarget]
  simp only [Engine.clearFresh, mapBusy_idlePools]

/-- A cycle in which a taken branch with a negative target completes is its fault (R202, R236). -/
theorem Engine.finishCycle_alone_of_negative (hrun : e.status = .running) (halone : e.pools = alonePools c p b)
    (hcap : 1 ≤ capOf c p) (hdue : b.Due) (hexec : execute (e.countdown p) ⟨p, 0⟩ b = .ok ({ e.countdown p with mem := m }, ev))
    (htaken : ev.taken = some true) (hneg : ev.target < 0) :
    e.finishCycle.status = .faulted ∧ e.finishCycle.fault = some (.branchTargetOutOfRange, ev.pidx) := by
  have hstep := (Engine.stepPools_alone halone hcap).trans (Engine.stepPool_alone_of_due halone hcap hdue)
  rw [hexec] at hstep
  simp [Engine.finishCycle, hrun, hstep, Engine.redirectAll, Engine.redirect, htaken, hneg]

end Alone

end Sys2Proof.Machine
end

section
/-! The life of a lone instruction: its dispatch, the cycles it is in flight, and the cycle it completes in (70_reset_and_hazards, section
5). -/

namespace Sys2Proof.Machine

/-! ### In flight -/

/-- The slot of a lone instruction of program index `i`, `k` cycles after its dispatch (R120, R125). -/
def flightSlot {c : Config} (op : Opcode) (i : Nat) (r : Resolved c.xlen) (seq k : Nat) : Slot c.xlen :=
  { op := op, pidx := i, oj := r.oj, ok := r.ok, dest := r.dest, a := r.a, target := r.target, cl := latOf c op - k, fresh := false,
    seq := seq }

/-- The engine `k` cycles after the one in which `e` dispatched its lone instruction: dispatched, `k + 1` cycles counted, and the
slot's countdown `k` less than its latency. -/
def Engine.flight {c : Config} (e : Engine c) (op : Opcode) (i : Nat) (r : Resolved c.xlen) (k : Nat) : Engine c :=
  { e with
    stream := []
    rst := r.dest.elim e.rst fun d => e.rst.set d (some ⟨poolOf op, 0⟩)
    pools := alonePools c (poolOf op) (flightSlot op i r e.seqNext k)
    seqNext := e.seqNext + 1
    cycle := e.cycle + 1 + k }

/-- A lone machine whose next cycle dispatches its record as operation `op` with resolved operands `r` that hold values. -/
structure State.Departs (s : State) (i : Nat) (op : Opcode) (r : Resolved s.cfg.xlen) : Prop where
  lone : s.Lone i (latOf s.cfg op + 1)
  ready : r.oj.isVal = true ∧ r.ok.isVal = true
  bound : ∀ d, r.dest = some d → d < s.cfg.nreg
  dispatch : ∃ w, s.prog[i]? = some w ∧ dispatchRecord w { s with eng := s.eng.beginCycle } =
    .next { s with eng := s.eng.beginCycle.allocated op i [] 0 r }

/-- The host's run of one more step after a run. -/
theorem run_add {s u : State} (j k : Nat) (h : Host.Core.run Sys2Proof.core j s = .next u) :
    Host.Core.run Sys2Proof.core (j + k) s = Host.Core.run Sys2Proof.core k u := by
  induction j generalizing s with
  | zero => cases h; rw [Nat.zero_add]
  | succ j ih =>
    cases ht : step s with
    | next t =>
      rw [run_succ j ht] at h
      rw [Nat.succ_add, run_succ _ ht, ih h]
    | fault f =>
      have hstep : Sys2Proof.core.step s = .fault f := ht
      simp only [Host.Core.run, hstep] at h
      cases h
    | refused f =>
      have hstep : Sys2Proof.core.step s = .refused f := ht
      simp only [Host.Core.run, hstep] at h
      cases h

theorem run_one {s t : State} (h : step s = .next t) : Host.Core.run Sys2Proof.core 1 s = .next t := run_succ 0 h

section Departs
variable {s : State} {i : Nat} {op : Opcode} {r : Resolved s.cfg.xlen}

theorem one_le_capOf {c : Config} (h : c.Valid) (p : PoolId) : 1 ≤ capOf c p := by
  obtain ⟨-, -, -, ⟨hadd, hnand, hload, hstore, hbeq⟩, -⟩ := h
  cases p <;> assumption

/-- The guard does not trip in the cycles that a lone machine is allowed. -/
theorem State.Lone.guardTrips_eq_false {n k : Nat} (h : s.Lone i n) (hk : k < n) {e : Engine s.cfg}
    (hcycle : e.cycle = s.eng.cycle + k) : e.guardTrips = false := by
  rw [← Bool.not_eq_true, Engine.guardTrips_iff]
  rintro ⟨m, hm, hle⟩
  have := h.allowed m hm
  omega

/-- A slot in flight counts down in every cycle until it is at 0 (R125). -/
theorem flightSlot_countdown (hr : r.oj.isVal = true ∧ r.ok.isVal = true) {seq k : Nat} (hk : k < latOf s.cfg op) :
    (flightSlot op i r seq k).countdown = flightSlot op i r seq (k + 1) := by
  have hpos : 0 < latOf s.cfg op - k := Nat.sub_pos_of_lt hk
  simp [Slot.countdown, Slot.ready, flightSlot, hr, hpos, Nat.sub_sub]

/-- A slot in flight is due in the last cycle of its latency, and not before (R126). -/
theorem flightSlot_due_iff (hr : r.oj.isVal = true ∧ r.ok.isVal = true) {seq k : Nat} (hk : k < latOf s.cfg op) :
    (flightSlot op i r seq k).Due ↔ k + 1 = latOf s.cfg op := by
  have hready : (flightSlot op i r seq k).ready = true := by simp [Slot.ready, flightSlot, hr]
  rw [Slot.Due, flightSlot_countdown hr hk, hready]
  simp only [flightSlot, true_and]
  omega

/-- The first cycle dispatches the instruction and does no more: the new slot is fresh (R120, R134). -/
theorem State.Departs.first (h : s.Departs i op r) : step s = .next { s with eng := s.eng.flight op i r 0 } := by
  obtain ⟨hlone, hready, -, w, hprog, hdispatch⟩ := h
  have hlat := one_le_latOf hlone.valid op
  have hguard : s.eng.guardTrips = false := hlone.guardTrips_eq_false (k := 0) (Nat.succ_pos _) rfl
  have hwork : s.eng.drained = false := s.eng.drained_eq_false_iff.2 (.inl (by simp [hlone.pending]))
  have hfresh : Slot.countdown { flightSlot op i r s.eng.seqNext 0 with fresh := true } =
      { flightSlot op i r s.eng.seqNext 0 with fresh := true } := by simp [Slot.countdown]
  have hnot : ¬ Slot.Due { flightSlot op i r s.eng.seqNext 0 with fresh := true } := fun hdue => by
    have hzero := hdue.2
    rw [hfresh] at hzero
    simp only [flightSlot] at hzero
    omega
  have halone : (s.eng.beginCycle.allocated op i [] 0 r).pools =
      alonePools s.cfg (poolOf op) { flightSlot op i r s.eng.seqNext 0 with fresh := true } := by
    simp only [Engine.allocated, Engine.beginCycle_pools, hlone.idle]
    rfl
  have hfinish := Engine.finishCycle_alone_of_not_due (e := s.eng.beginCycle.allocated op i [] 0 r) hlone.running halone
    (one_le_capOf hlone.valid _) hnot
  rw [step_of_running hlone.released hlone.running, engineCycle_of_record hwork hguard hlone.pending hprog, hdispatch]
  simp only [finishOutcome, hfinish, hfresh]
  rfl

/-- The next cycle of a lone machine in flight is the rest of a cycle without dispatch. -/
theorem State.Departs.step_flight (h : s.Departs i op r) {k : Nat} (hk : k < latOf s.cfg op) :
    step { s with eng := s.eng.flight op i r k } =
      .next { s with eng := (s.eng.flight op i r k).beginCycle.finishCycle } := by
  have hguard : (s.eng.flight op i r k).guardTrips = false :=
    h.lone.guardTrips_eq_false (k := k + 1) (Nat.succ_lt_succ hk) (by simp only [Engine.flight]; omega)
  have hslot := Engine.slot_of_alone (e := s.eng.flight op i r k) rfl (one_le_capOf h.lone.valid _) (poolOf op) 0
  have hwork : (s.eng.flight op i r k).drained = false :=
    (Engine.drained_eq_false_iff _).2 (.inr ⟨_, _, _, hslot.trans (if_pos ⟨rfl, rfl⟩)⟩)
  rw [step_of_running (s := { s with eng := s.eng.flight op i r k }) h.lone.released h.lone.running]
  exact engineCycle_of_nil (s := { s with eng := s.eng.flight op i r k }) hwork hguard rfl

/-- A later cycle before the last of the latency counts the slot down and changes nothing else (R125). -/
theorem State.Departs.later (h : s.Departs i op r) {k : Nat} (hk : k + 1 < latOf s.cfg op) :
    step { s with eng := s.eng.flight op i r k } = .next { s with eng := s.eng.flight op i r (k + 1) } := by
  have hlt := Nat.lt_of_succ_lt hk
  have hfinish := Engine.finishCycle_alone_of_not_due (e := (s.eng.flight op i r k).beginCycle) h.lone.running rfl
    (one_le_capOf h.lone.valid _) (fun hdue => Nat.ne_of_lt hk ((flightSlot_due_iff h.ready hlt).1 hdue))
  rw [h.step_flight hlt, hfinish, flightSlot_countdown h.ready hlt]
  rfl

/-- A lone machine is in flight from its first cycle to the last but one of its life. -/
theorem State.Departs.run_flight (h : s.Departs i op r) (k : Nat) (hk : k < latOf s.cfg op) :
    Host.Core.run Sys2Proof.core (k + 1) s = .next { s with eng := s.eng.flight op i r k } := by
  induction k with
  | zero => exact run_one h.first
  | succ k ih => rw [run_add (k + 1) 1 (ih (Nat.lt_of_succ_lt hk))]; exact run_one (h.later hk)

/-- The engine that the last cycle of a lone machine's life completes. -/
def Engine.lastFlight {c : Config} (e : Engine c) (op : Opcode) (i : Nat) (r : Resolved c.xlen) : Engine c :=
  (e.flight op i r (latOf c op - 1)).beginCycle

/-- The slot of that engine, at 1. -/
def lastSlot {c : Config} (op : Opcode) (i : Nat) (r : Resolved c.xlen) (seq : Nat) : Slot c.xlen :=
  flightSlot op i r seq (latOf c op - 1)

/-- The last cycle of a lone machine's life completes its slot. -/
theorem State.Departs.arrives (h : s.Departs i op r) :
    Host.Core.run Sys2Proof.core (latOf s.cfg op + 1) s = .next { s with eng := (s.eng.lastFlight op i r).finishCycle } := by
  have hlat := one_le_latOf h.lone.valid op
  have hlt : latOf s.cfg op - 1 < latOf s.cfg op := by omega
  have hflight := h.run_flight _ hlt
  rw [Nat.sub_add_cancel hlat] at hflight
  rw [run_add _ 1 hflight]
  exact run_one (h.step_flight hlt)

theorem State.Departs.lastSlot_due (h : s.Departs i op r) : (lastSlot op i r s.eng.seqNext).Due := by
  have hlat := one_le_latOf h.lone.valid op
  exact (flightSlot_due_iff h.ready (by omega)).2 (by omega)

theorem State.Departs.lastFlight_cycle (h : s.Departs i op r) :
    (s.eng.lastFlight op i r).cycle = s.eng.cycle + latOf s.cfg op + 1 := by
  have hlat := one_le_latOf h.lone.valid op
  simp only [Engine.lastFlight, Engine.flight, Engine.beginCycle_cycle]
  omega

/-- In flight the destination alone is pending, on the slot (R124). -/
theorem State.Departs.lastFlight_currentTag (h : s.Departs i op r) (q : Nat) :
    (s.eng.lastFlight op i r).currentTag q = if r.dest = some q then some ⟨poolOf op, 0⟩ else none := by
  have htag : (s.eng.lastFlight op i r).currentTag q = (s.eng.allocated op i [] 0 r).currentTag q := rfl
  rw [htag]
  split
  · next hq =>
    have hlt : q < s.eng.rst.length := h.lone.sized.status ▸ h.bound q hq
    simp only [Engine.currentTag, Engine.allocated, hq, Option.elim_some, List.getD_eq_getElem?_getD, List.getElem?_set, if_true, hlt]
    rfl
  · next hq =>
    rw [Engine.currentTag, List.getD_eq_getElem?_getD, s.eng.rst_allocated_of_ne op i [] 0 r hq, ← List.getD_eq_getElem?_getD]
    exact h.lone.ready q

/-- The last cycle of a lone machine whose execution faults is that fault (R235). -/
theorem State.Departs.ends_of_error (h : s.Departs i op r) {f : FaultCode} {info : Nat}
    (hexec : ∀ e : Engine s.cfg, e.mem = s.eng.mem → execute e ⟨poolOf op, 0⟩ (lastSlot op i r s.eng.seqNext) = .error (f, info)) :
    (s.eng.lastFlight op i r).finishCycle = (s.eng.lastFlight op i r).raise f info :=
  Engine.finishCycle_alone_of_error (e := s.eng.lastFlight op i r) h.lone.running rfl (one_le_capOf h.lone.valid _) h.lastSlot_due (hexec _ rfl)

variable {m : Memory s.cfg.xlen} {ev : Event s.cfg.xlen}

/-- The last cycle of a lone machine whose execution answers: its event's broadcast, the memory its execution left, idle pools, and
the stream refilled by a taken branch. -/
theorem State.Departs.ends_of_ok (h : s.Departs i op r)
    (hexec : ∀ e : Engine s.cfg, e.mem = s.eng.mem →
      execute e ⟨poolOf op, 0⟩ (lastSlot op i r s.eng.seqNext) = .ok ({ e with mem := m }, ev))
    (htarget : ev.taken = some true → 0 ≤ ev.target) :
    (s.eng.lastFlight op i r).finishCycle =
      { s.eng.lastFlight op i r with
        x := ((s.eng.lastFlight op i r).broadcast ev).x
        rst := ((s.eng.lastFlight op i r).broadcast ev).rst
        mem := m
        pools := idlePools s.cfg
        stream := if ev.taken = some true then streamFrom ev.target.toNat s.eng.progLen else []
        completed := s.eng.completed + 1 } :=
  Engine.finishCycle_alone_of_ok (e := s.eng.lastFlight op i r) h.lone.running rfl (one_le_capOf h.lone.valid _) h.lastSlot_due (hexec _ rfl) htarget

/-- The broadcast of a lone machine's result writes its destination and leaves every register Ready (R129). -/
theorem State.Departs.broadcast_result (h : s.Departs i op r) {d : Nat} {v : Word s.cfg.xlen} (hdest : r.dest = some d)
    (htag : ev.tag = ⟨poolOf op, 0⟩) (hres : ev.Result d v) :
    ((s.eng.lastFlight op i r).broadcast ev).x = s.eng.x.set d v ∧
      ∀ q, ((s.eng.lastFlight op i r).broadcast ev).currentTag q = none := by
  have hpending : (s.eng.lastFlight op i r).currentTag d = some ev.tag := by rw [h.lastFlight_currentTag, if_pos hdest, htag]
  rw [Engine.broadcast_of_result _ hres.1 hres.2, Engine.writeBack_of_eq _ _ hpending]
  refine ⟨rfl, fun q => ?_⟩
  rw [Engine.currentTag_wakeAll, Engine.currentTag_clearPending, Engine.currentTag_setReg, h.lastFlight_currentTag, hdest]
  by_cases hq : q = d
  · rw [if_pos hq]
  · rw [if_neg hq, if_neg fun heq => hq (Option.some.inj heq).symm]

end Departs

/-! ### The dispatch of a lone instruction -/

section Lone
variable {s : State} {i n : Nat}

theorem State.Lone.lowestIdle (h : s.Lone i n) (p : PoolId) : s.eng.beginCycle.LowestIdle p 0 := by
  refine ⟨?_, fun j hj => absurd hj j.not_lt_zero⟩
  have hcap := one_le_capOf h.valid p
  rw [Engine.beginCycle_pools, h.idle, idlePools_get, List.getElem?_replicate, if_pos (by omega)]

/-- In a lone machine every source is Ready (R121). -/
theorem State.Lone.resolve (h : s.Lone i n) (q : RegField) : s.eng.beginCycle.resolve q = .val (s.eng.reg q.toNat) :=
  Engine.resolve_of_ready (h.ready q.toNat)

/-- A lone machine's instruction departs with the operands its dispatch resolves. -/
theorem State.Lone.departs {ins : Instr} {op : Opcode} (h : s.Lone i (latOf s.cfg op + 1))
    (hprog : s.prog[i]? = some (encode ins)) (hwf : ins.wellFormed s.cfg.nreg = true) {resolve : Nat → Resolved s.cfg.xlen}
    (hexec : exec ins { s with eng := s.eng.beginCycle } =
      .next { s with eng := s.eng.beginCycle.dispatchHead op ins.usedRegs resolve })
    (hready : (resolve i).oj.isVal = true ∧ (resolve i).ok.isVal = true)
    (hfrom : (resolve i).FromRegisters s.eng.beginCycle op) : s.Departs i op (resolve i) := by
  have hused : ∀ q ∈ ins.usedRegs, q.toNat < s.cfg.nreg := by simpa [Instr.wellFormed] using hwf
  refine ⟨h, hready, hfrom.destBound, _, hprog, ?_⟩
  rw [dispatchRecord, decodeOfEncode ins]
  exact hexec.trans (by rw [Engine.dispatchHead_eq (e := s.eng.beginCycle) resolve h.pending hused (h.lowestIdle _)])

end Lone

end Sys2Proof.Machine
end

section
/-! The whole life of each instruction alone in the machine (70_reset_and_hazards, section 5). -/

namespace Sys2Proof.Machine

/-! ### How a lone machine ends -/

/-- The machine that `s` is after `n` edges, with engine `e'`, where its lone instruction completed without a fault: what every
completion leaves, whatever the operation. -/
structure State.Completes (s : State) (n : Nat) (e' : Engine s.cfg) : Prop where
  run : Host.Core.run Sys2Proof.core n s = .next { s with eng := e' }
  tags : ∀ q, e'.currentTag q = none
  pools : e'.pools = idlePools s.cfg
  status : e'.status = .running
  cycle : e'.cycle = s.eng.cycle + n
  completed : e'.completed = s.eng.completed + 1
  seqNext : e'.seqNext = s.eng.seqNext + 1
  dropped : e'.dropped = s.eng.dropped
  errflags : e'.errflags = s.eng.errflags
  lasterr : e'.lasterr = s.eng.lasterr
  fault : e'.fault = s.eng.fault
  progLen : e'.progLen = s.eng.progLen
  faults : e'.faults = s.eng.faults

section Departs
variable {s : State} {i : Nat} {op : Opcode} {r : Resolved s.cfg.xlen} {m : Memory s.cfg.xlen} {ev : Event s.cfg.xlen}

/-- A lone machine whose execution answers an event that leaves every register Ready completes with it. -/
theorem State.Departs.completes (h : s.Departs i op r)
    (hexec : ∀ e : Engine s.cfg, e.mem = s.eng.mem →
      execute e ⟨poolOf op, 0⟩ (lastSlot op i r s.eng.seqNext) = .ok ({ e with mem := m }, ev))
    (htarget : ev.taken = some true → 0 ≤ ev.target)
    (htags : ∀ q, ((s.eng.lastFlight op i r).broadcast ev).currentTag q = none) :
    ∃ e', s.Completes (latOf s.cfg op + 1) e' ∧ e'.x = ((s.eng.lastFlight op i r).broadcast ev).x ∧ e'.mem = m ∧
      e'.stream = if ev.taken = some true then streamFrom ev.target.toNat s.eng.progLen else [] := by
  have hrun := h.arrives
  rw [h.ends_of_ok hexec htarget] at hrun
  exact ⟨_, ⟨hrun, htags, rfl, h.lone.running, h.lastFlight_cycle, rfl, rfl, rfl, rfl, rfl, rfl, rfl, rfl⟩, rfl, rfl, rfl⟩

/-- A lone machine whose execution answers a register's value completes with the register written, and nothing else. -/
theorem State.Departs.completes_with_result (h : s.Departs i op r) {d : Nat} {v : Word s.cfg.xlen} (hdest : r.dest = some d)
    (hexec : ∀ e : Engine s.cfg, e.mem = s.eng.mem → execute e ⟨poolOf op, 0⟩ (lastSlot op i r s.eng.seqNext) =
      .ok (e, resultEvent ⟨poolOf op, 0⟩ (lastSlot op i r s.eng.seqNext) v)) :
    ∃ e', s.Completes (latOf s.cfg op + 1) e' ∧ e'.x = s.eng.x.set d v ∧ e'.mem = s.eng.mem ∧ e'.stream = [] := by
  obtain ⟨hx, htags⟩ := h.broadcast_result hdest (ev := resultEvent ⟨poolOf op, 0⟩ (lastSlot op i r s.eng.seqNext) v) rfl ⟨hdest, rfl⟩
  obtain ⟨e', he', hx', hmem, hstream⟩ := h.completes (m := s.eng.mem) (fun e hmem => by rw [hexec e hmem, ← hmem])
    (fun htaken => by cases htaken) htags
  exact ⟨e', he', hx'.trans hx, hmem, hstream⟩

/-- A lone machine whose execution answers no register's value completes with the registers as they were. -/
theorem State.Departs.completes_without_result (h : s.Departs i op r) (hdest : r.dest = none) (hno : ev.value = none)
    (hexec : ∀ e : Engine s.cfg, e.mem = s.eng.mem →
      execute e ⟨poolOf op, 0⟩ (lastSlot op i r s.eng.seqNext) = .ok ({ e with mem := m }, ev))
    (htarget : ev.taken = some true → 0 ≤ ev.target) :
    ∃ e', s.Completes (latOf s.cfg op + 1) e' ∧ e'.x = s.eng.x ∧ e'.mem = m ∧
      e'.stream = if ev.taken = some true then streamFrom ev.target.toNat s.eng.progLen else [] := by
  have hbroadcast : (s.eng.lastFlight op i r).broadcast ev = s.eng.lastFlight op i r :=
    Engine.broadcast_of_noResult (fun ⟨_, _, _, hv⟩ => by cases hno.symm.trans hv) _
  obtain ⟨e', he', hx, hmem, hstream⟩ :=
    h.completes hexec htarget fun q => by rw [hbroadcast, h.lastFlight_currentTag, hdest, if_neg nofun]
  exact ⟨e', he', by rw [hx, hbroadcast]; rfl, hmem, hstream⟩

/-- A lone machine whose execution faults ends with the fault. -/
theorem State.Departs.faults (h : s.Departs i op r) {f : FaultCode} {info : Nat}
    (hexec : ∀ e : Engine s.cfg, execute e ⟨poolOf op, 0⟩ (lastSlot op i r s.eng.seqNext) = .error (f, info)) :
    ∃ e' : Engine s.cfg, Host.Core.run Sys2Proof.core (latOf s.cfg op + 1) s = .next { s with eng := e' } ∧
      e'.cycle = s.eng.cycle + latOf s.cfg op + 1 ∧ e'.status = .faulted ∧ e'.fault = some (f, info) := by
  have hrun := h.arrives
  rw [h.ends_of_error fun e _ => hexec e] at hrun
  exact ⟨_, hrun, h.lastFlight_cycle, rfl, rfl⟩

/-- A lone machine whose execution answers a taken branch with a negative target ends with its fault. -/
theorem State.Departs.faults_of_negative (h : s.Departs i op r)
    (hexec : ∀ e : Engine s.cfg, e.mem = s.eng.mem →
      execute e ⟨poolOf op, 0⟩ (lastSlot op i r s.eng.seqNext) = .ok ({ e with mem := m }, ev))
    (htaken : ev.taken = some true) (hneg : ev.target < 0) :
    ∃ e' : Engine s.cfg, Host.Core.run Sys2Proof.core (latOf s.cfg op + 1) s = .next { s with eng := e' } ∧
      e'.cycle = s.eng.cycle + latOf s.cfg op + 1 ∧ e'.status = .faulted ∧ e'.fault = some (.branchTargetOutOfRange, ev.pidx) :=
  have hrunning : (s.eng.lastFlight op i r).status = .running := h.lone.running
  ⟨_, h.arrives, (Engine.finishCycle_cycle hrunning).trans h.lastFlight_cycle,
    Engine.finishCycle_alone_of_negative hrunning rfl (one_le_capOf h.lone.valid _) h.lastSlot_due (hexec _ rfl) htaken hneg⟩

/-- Until its completion a lone machine has the registers and the count of completions it began with. -/
theorem State.Departs.keeps_results (h : s.Departs i op r) {k : Nat} (hk : k ≤ latOf s.cfg op) :
    ∃ e' : Engine s.cfg, Host.Core.run Sys2Proof.core k s = .next { s with eng := e' } ∧ e'.x = s.eng.x ∧
      e'.completed = s.eng.completed := by
  cases k with
  | zero => exact ⟨s.eng, rfl, rfl, rfl⟩
  | succ k => exact ⟨_, h.run_flight k hk, rfl, rfl⟩

end Departs

/-! ### The operands of a lone instruction -/

section Lone
variable {s : State} {i n : Nat} {ra rb rc : RegField} {imm : Imm}

theorem State.Lone.rrrOperands (h : s.Lone i n) : rrrOperands s.eng.beginCycle ra rb rc =
    { oj := .val (s.eng.reg rb.toNat), ok := .val (s.eng.reg rc.toNat), dest := some ra.toNat, a := 0, target := 0 } := by
  rw [Machine.rrrOperands, h.resolve, h.resolve]

theorem State.Lone.loadOperands (h : s.Lone i n) : loadOperands s.eng.beginCycle ra rb imm =
    { oj := .val (s.eng.reg rb.toNat), ok := .val 0, dest := some ra.toNat, a := imm.toInt, target := 0 } := by
  rw [Machine.loadOperands, h.resolve, immValue]

theorem State.Lone.storeOperands (h : s.Lone i n) : storeOperands s.eng.beginCycle ra rb imm =
    { oj := .val (s.eng.reg ra.toNat), ok := .val (s.eng.reg rb.toNat), dest := none, a := imm.toInt, target := 0 } := by
  rw [Machine.storeOperands, h.resolve, h.resolve, immValue]

theorem State.Lone.beqOperands (h : s.Lone i n) : beqOperands s.eng.beginCycle ra rb imm i =
    { oj := .val (s.eng.reg ra.toNat), ok := .val (s.eng.reg rb.toNat), dest := none, a := 0, target := branchTarget s.cfg i imm } := by
  rw [Machine.beqOperands, h.resolve, h.resolve]

/-- A lone ADD, SUB or NAND departs with its registers' values. -/
theorem State.Lone.departs_rrr {ins : Instr} {op : Opcode} (h : s.Lone i (latOf s.cfg op + 1))
    (hprog : s.prog[i]? = some (encode ins)) (hwf : ins.wellFormed s.cfg.nreg = true) (hregs : ins.usedRegs = [ra, rb, rc])
    (hop : op.writesRegister = true)
    (hexec : exec ins { s with eng := s.eng.beginCycle } =
      .next { s with eng := s.eng.beginCycle.dispatchHead op ins.usedRegs fun _ => Machine.rrrOperands s.eng.beginCycle ra rb rc }) :
    s.Departs i op
      { oj := .val (s.eng.reg rb.toNat), ok := .val (s.eng.reg rc.toNat), dest := some ra.toNat, a := 0, target := 0 } := by
  have hra : ra.toNat < s.cfg.nreg := by
    simp only [Instr.wellFormed, hregs, List.all_cons, Bool.and_eq_true, decide_eq_true_eq] at hwf
    exact hwf.1
  rw [← h.rrrOperands]
  refine h.departs hprog hwf hexec ?_ (rrrOperands_fromRegisters hop hra)
  rw [h.rrrOperands]
  exact ⟨rfl, rfl⟩

/-- A lone LOAD departs with its base. -/
theorem State.Lone.departs_load (h : s.Lone i (s.cfg.latLoad + 1)) (hprog : s.prog[i]? = some (encode (.load ra rb imm)))
    (hwf : (Instr.load ra rb imm).wellFormed s.cfg.nreg = true) :
    s.Departs i .load
      { oj := .val (s.eng.reg rb.toNat), ok := .val 0, dest := some ra.toNat, a := imm.toInt, target := 0 } := by
  have hra : ra.toNat < s.cfg.nreg := by
    simp only [Instr.wellFormed, Instr.usedRegs, List.all_cons, Bool.and_eq_true, decide_eq_true_eq] at hwf
    exact hwf.1
  rw [← h.loadOperands]
  refine State.Lone.departs (op := .load) h hprog hwf (resolve := fun _ => Machine.loadOperands s.eng.beginCycle ra rb imm) rfl ?_
    (loadOperands_fromRegisters hra)
  rw [h.loadOperands]
  exact ⟨rfl, rfl⟩

/-- A lone STORE departs with its value and its base. -/
theorem State.Lone.departs_store (h : s.Lone i (s.cfg.latStore + 1)) (hprog : s.prog[i]? = some (encode (.store ra rb imm)))
    (hwf : (Instr.store ra rb imm).wellFormed s.cfg.nreg = true) :
    s.Departs i .store
      { oj := .val (s.eng.reg ra.toNat), ok := .val (s.eng.reg rb.toNat), dest := none, a := imm.toInt, target := 0 } := by
  rw [← h.storeOperands]
  refine State.Lone.departs (op := .store) h hprog hwf (resolve := fun _ => Machine.storeOperands s.eng.beginCycle ra rb imm) rfl ?_
    storeOperands_fromRegisters
  rw [h.storeOperands]
  exact ⟨rfl, rfl⟩

/-- A lone BEQ departs with its two words and its target. -/
theorem State.Lone.departs_beq (h : s.Lone i (s.cfg.latBeq + 1)) (hprog : s.prog[i]? = some (encode (.beq ra rb imm)))
    (hwf : (Instr.beq ra rb imm).wellFormed s.cfg.nreg = true) :
    s.Departs i .beq
      { oj := .val (s.eng.reg ra.toNat), ok := .val (s.eng.reg rb.toNat), dest := none, a := 0,
        target := branchTarget s.cfg i imm } := by
  rw [← h.beqOperands]
  refine State.Lone.departs (op := .beq) h hprog hwf (resolve := Machine.beqOperands s.eng.beginCycle ra rb imm) rfl ?_
    beqOperands_fromRegisters
  rw [h.beqOperands]
  exact ⟨rfl, rfl⟩

end Lone

/-! ### The four lives -/

/-- Settles O55: the slot is in flight, registers untouched, until the last cycle of its latency writes the value. -/
theorem loneArithmeticCompletes : Obligations.LoneArithmeticCompletes := by
  unfold Obligations.LoneArithmeticCompletes
  intro s i ra rb rc ins lat v hins hprog hwf hlone
  obtain ⟨op, r, hdeparts, rfl, hdest, hexec⟩ : ∃ op r, s.Departs i op r ∧ lat = latOf s.cfg op ∧ r.dest = some ra.toNat ∧
      ∀ e : Engine s.cfg, execute e ⟨poolOf op, 0⟩ (lastSlot op i r s.eng.seqNext) =
        .ok (e, resultEvent ⟨poolOf op, 0⟩ (lastSlot op i r s.eng.seqNext) v) := by
    obtain ⟨rfl, rfl, rfl⟩ | ⟨rfl, rfl, rfl⟩ | ⟨rfl, rfl, rfl⟩ := hins
    · refine ⟨.add, _, State.Lone.departs_rrr (op := .add) hlone hprog hwf rfl rfl rfl, rfl, rfl, fun e => ?_⟩
      rw [execute_add rfl, BitVec.ofNat_add, BitVec.ofNat_toNat, BitVec.ofNat_toNat, BitVec.setWidth_eq, BitVec.setWidth_eq]
      rfl
    · refine ⟨.sub, _, State.Lone.departs_rrr (op := .sub) hlone hprog hwf rfl rfl rfl, rfl, rfl, fun e => ?_⟩
      rw [execute_sub rfl, ← subWords_eq]
      rfl
    · refine ⟨.nand, _, State.Lone.departs_rrr (op := .nand) hlone hprog hwf rfl rfl rfl, rfl, rfl, fun e => ?_⟩
      rw [execute_nand rfl]
      rfl
  obtain ⟨e', he', hx, hmem, hstream⟩ := hdeparts.completes_with_result hdest fun e _ => hexec e
  exact ⟨fun _ => hdeparts.keeps_results, e', he'.run, hx, hmem, he'.tags, he'.pools, hstream, he'.status, he'.cycle, he'.completed,
    he'.seqNext, he'.dropped, he'.errflags, he'.lasterr, he'.fault, he'.progLen, he'.faults⟩

/-- Settles O56: nothing writes memory while the LOAD is in flight. -/
theorem loneLoadCompletes : Obligations.LoneLoadCompletes := by
  unfold Obligations.LoneLoadCompletes
  intro s i ra rb imm hprog hwf hlone ea
  have hdeparts := hlone.departs_load hprog hwf
  by_cases hin : 0 ≤ ea ∧ ea < (s.cfg.memWords : Int)
  · obtain ⟨e', he', hx, hmem, hstream⟩ := hdeparts.completes_with_result (v := s.eng.mem.read ea.toNat) rfl fun e hmem => by
      rw [execute_load rfl, hmem]; exact if_pos hin
    exact ⟨e', he'.run, he'.cycle, by
      rw [if_pos hin]; exact ⟨hx, hmem, he'.tags, he'.pools, hstream, he'.status, he'.completed, he'.dropped⟩⟩
  · obtain ⟨e', hrun, hcycle, hfault⟩ := hdeparts.faults fun e => by rw [execute_load rfl]; exact if_neg hin
    exact ⟨e', hrun, hcycle, by rw [if_neg hin]; exact hfault⟩

/-- Settles O57: the memory the STORE's execution leaves is the one it found with one word written. -/
theorem loneStoreCompletes : Obligations.LoneStoreCompletes := by
  unfold Obligations.LoneStoreCompletes
  intro s i ra rb imm hprog hwf hlone hcanonical ea
  have hdeparts := hlone.departs_store hprog hwf
  by_cases hin : 0 ≤ ea ∧ ea < (s.cfg.memWords : Int)
  · obtain ⟨e', he', hx, hmem, hstream⟩ :=
      hdeparts.completes_without_result (m := s.eng.mem.write ea.toNat (s.eng.reg ra.toNat)) rfl rfl
        (fun e hmem => by rw [execute_store rfl, hmem]; exact if_pos hin) (fun htaken => by cases htaken)
    have hread : ∀ a, e'.mem.read a = if (a : Int) = ea then s.eng.reg ra.toNat else s.eng.mem.read a := fun a => by
      have haddr : a = ea.toNat ↔ (a : Int) = ea := by omega
      rw [hmem, Memory.read_write _ _ _ _ hcanonical]
      simp only [haddr]
    exact ⟨e', he'.run, he'.cycle, by
      rw [if_pos hin]; exact ⟨hread, hx, he'.tags, he'.pools, hstream, he'.status, he'.completed, he'.dropped⟩⟩
  · obtain ⟨e', hrun, hcycle, hfault⟩ := hdeparts.faults fun e => by rw [execute_store rfl]; exact if_neg hin
    exact ⟨e', hrun, hcycle, by rw [if_neg hin]; exact hfault⟩

/-- Settles O58: the event of the BEQ holds the comparison and the target, and the redirect is the one thing that reads them. -/
theorem loneBranchCompletes : Obligations.LoneBranchCompletes := by
  unfold Obligations.LoneBranchCompletes
  intro s i ra rb imm hprog hwf hlone target taken
  obtain ⟨r, hr⟩ : ∃ r : Resolved s.cfg.xlen, r = ⟨.val (s.eng.reg ra.toNat), .val (s.eng.reg rb.toNat), none, 0, target⟩ := ⟨_, rfl⟩
  have hdeparts : s.Departs i .beq r := hr ▸ hlone.departs_beq hprog hwf
  have hexec : ∀ e : Engine s.cfg, e.mem = s.eng.mem → execute e ⟨.beq, 0⟩ (lastSlot .beq i r s.eng.seqNext) =
      .ok ({ e with mem := s.eng.mem }, completeBeq ⟨.beq, 0⟩ (lastSlot .beq i r s.eng.seqNext)) := fun e hmem => by
    rw [execute_beq rfl, ← hmem]
  have htaken : (completeBeq ⟨.beq, 0⟩ (lastSlot .beq i r s.eng.seqNext)).taken = some true ↔ taken := by
    simp [completeBeq, lastSlot, flightSlot, hr, Operand.value, taken]
  have htarget : (completeBeq ⟨.beq, 0⟩ (lastSlot .beq i r s.eng.seqNext)).target = target := by rw [hr]; rfl
  by_cases hneg : taken ∧ target < 0
  · obtain ⟨e', hrun, hcycle, hfault⟩ := hdeparts.faults_of_negative hexec (htaken.2 hneg.1) (htarget ▸ hneg.2)
    exact ⟨e', hrun, hcycle, fun _ => hfault, fun hnot => absurd hneg hnot⟩
  · obtain ⟨e', he', hx, hmem, hstream⟩ := hdeparts.completes_without_result (by rw [hr]) rfl hexec fun ht =>
      htarget ▸ not_lt.1 fun hlt => hneg ⟨htaken.1 ht, hlt⟩
    rw [htarget, streamFrom_eq_drop] at hstream
    exact ⟨e', he'.run, he'.cycle, fun h => absurd h hneg, fun _ => ⟨hx, hmem, he'.tags, he'.pools, he'.status, he'.completed,
      he'.dropped, fun ht => hstream.trans (if_pos (htaken.2 ht)), fun hnot => hstream.trans (if_neg (hnot ∘ htaken.1))⟩⟩

end Sys2Proof.Machine
end
